-- ==== Sys2Proof/Word.lean ====
section
/-! DEFINITION. The widths of the block: 8-bit buffer and stream elements, 16-bit registers, 20-bit command words
(`00_scope.md` R10). -/

namespace Sys2Proof

/-- One element of a buffer or of a stream (R10). -/
abbrev Byte := BitVec 8

/-- The CRC accumulator, the timer, `TIMEOUT`, a status code (R10, R33). -/
abbrev Word := BitVec 16

/-- A host command (`30_encoding.md` R90). -/
abbrev CmdWord := BitVec 20

end Sys2Proof
end

