-- ==== Sys2Proof/Syntax.lean ====
section
/-! DEFINITION. The instructions (one constructor per row of `spec/opcode_table.json`), the formats their words come
in, the buffers, and the events the environment delivers. -/

namespace Sys2Proof

/-- One constructor per row of the opcode table: sixteen command codes (`30_encoding.md` R91), the classes of a
frame body by its first byte (R106, R108), the classes of a received byte (R93). -/
inductive Instr where
  | nop
  | crcClr
  | crcUpd (a : Byte)
  | argClr
  | argPush (a : Byte)
  | enc (a : Byte)
  | send
  | capt
  | dec
  | val (a : Byte)
  | xact (a b : Byte)
  | tmoSet (a b : Byte)
  | flgClr
  | reservedD
  | reservedE
  | reservedF
  | wireErrorAnswer
  | wireAnswer (opcode : Byte)
  | wireRtcReadRequest
  | wireRtcReadAnswer
  | rxByteStx
  | rxByteEtx
  | rxByteOther (byte : Byte)
deriving DecidableEq, Repr

/-- The instruction is a host command: a row of the format `CMD20`, reserved codes included (R91). -/
def Instr.isCommand : Instr → Bool
  | .nop | .crcClr | .crcUpd _ | .argClr | .argPush _ | .enc _ | .send | .capt | .dec | .val _ | .xact _ _
  | .tmoSet _ _ | .flgClr | .reservedD | .reservedE | .reservedF => true
  | .wireErrorAnswer | .wireAnswer _ | .wireRtcReadRequest | .wireRtcReadAnswer => false
  | .rxByteStx | .rxByteEtx | .rxByteOther _ => false

/-- Where a word stands, which says how it is read: the command port (R90), the RX stream (R93), the first byte of a
received body (R106), the first byte of a body being transmitted (R108: the table's one transmit row). -/
inductive Format where
  | cmd20
  | rxStream
  | rxBody
  | txBody
deriving DecidableEq, Repr

/-- The number of bits of a word of the format. -/
def Format.width : Format → Nat
  | .cmd20 => 20
  | .rxStream | .rxBody | .txBody => 8

/-- The byte buffers of `20_memory.md` R60 (`CRCTAB` is read-only and holds 16-bit entries: it is a constant). -/
inductive Space where
  | argbuf
  | txbuf
  | rxbuf
  | payload
deriving DecidableEq, Repr, Inhabited

/-- What the environment draws for one send (`20_memory.md` R67): whether the whole frame was written, and, where it
was not, how many of its bytes the transport took. -/
structure TxDraw where
  txok : Bool
  taken : Nat
deriving DecidableEq, Repr, Inhabited

/-- What the environment can do next (`00_scope.md` R14). `rxByte` is the channel's offer of its oldest queued byte
(`70_reset_and_hazards.md` R326); `arrive` is a byte joining that queue, which the block does not see
(`10_state.md` R41). -/
inductive Event where
  | cmd (w : CmdWord) (draw : TxDraw)
  | rxByte
  | arrive (b : Byte)
  | tick
  | reset
deriving DecidableEq, Repr, Inhabited

end Sys2Proof
end

