-- ==== Sys2Proof/WellFormed.lean ====
section
/-! DEFINITION. Which instruction terms stand for a row of the opcode table. -/

namespace Sys2Proof

/-- A catch-all row is selected only where no exact row of its format matches (the table's `priority`):
`WIRE.ANSWER` not for `0xFF` nor for the answer `0x97`, `RXBYTE.OTHER` not for the two markers (`30_encoding.md` R93,
R106). -/
def Instr.wf : Instr → Bool
  | .wireAnswer op => op != 0xFF && op != 0x97
  | .rxByteOther b => b != 0x02 && b != 0x03
  | .nop | .crcClr | .crcUpd _ | .argClr | .argPush _ | .enc _ | .send | .capt | .dec | .val _ | .xact _ _
  | .tmoSet _ _ | .flgClr | .reservedD | .reservedE | .reservedF => true
  | .wireErrorAnswer | .wireRtcReadRequest | .wireRtcReadAnswer => true
  | .rxByteStx | .rxByteEtx => true

end Sys2Proof
end

