-- ==== Sys2Proof/Decode.lean ====
section
/-! DEFINITION. The decoder (`30_encoding.md` R90 to R93, R106), the encoder written from the same tables, and the
reading of a word as `spec/opcode_table.json` numbers it. -/

namespace Sys2Proof

/-- Why a word is rejected: it has bits above its format's width, or it is the first byte of a transmitted body
for which the table has no row. -/
inductive DecodeError where
  | wordTooWide
  | noTransmitRow
deriving DecidableEq, Repr

/-- `w[19:16]` (R90). -/
def cmdField (w : CmdWord) : BitVec 4 := w.extractLsb' 16 4

/-- `w[15:8]` (R90). -/
def aField (w : CmdWord) : Byte := w.extractLsb' 8 8

/-- `w[7:0]` (R90). -/
def bField (w : CmdWord) : Byte := w.extractLsb' 0 8

/-- The table of R91. Every 20-bit word selects a row (R92); fields a command does not use are ignored (R90). -/
def decodeCmd (w : CmdWord) : Instr :=
  match (cmdField w).toNat with
  | 0 => .nop
  | 1 => .crcClr
  | 2 => .crcUpd (aField w)
  | 3 => .argClr
  | 4 => .argPush (aField w)
  | 5 => .enc (aField w)
  | 6 => .send
  | 7 => .capt
  | 8 => .dec
  | 9 => .val (aField w)
  | 10 => .xact (aField w) (bField w)
  | 11 => .tmoSet (aField w) (bField w)
  | 12 => .flgClr
  | 13 => .reservedD
  | 14 => .reservedE
  | _ => .reservedF

/-- The class of a received byte, by its value alone (R93). -/
def decodeRxByte (b : Byte) : Instr :=
  if b = 0x02 then .rxByteStx else if b = 0x03 then .rxByteEtx else .rxByteOther b

/-- The class of a received body by its first byte: the exact rows, then every other value is an answer opcode
(R106). A received `0x17` is an answer opcode like any other: the table's row for it is a transmit row. -/
def decodeRxBody (b : Byte) : Instr :=
  if b = 0xFF then .wireErrorAnswer else if b = 0x97 then .wireRtcReadAnswer else .wireAnswer b

/-- The class of a transmitted body by its first byte: the one transmit row of the table (R108). -/
def decodeTxBody (b : Byte) : Except DecodeError Instr :=
  if b = 0x17 then .ok .wireRtcReadRequest else .error .noTransmitRow

/-- The decoder, total on every format and every number. -/
def decode (f : Format) (w : Nat) : Except DecodeError Instr :=
  if w < 2 ^ f.width then
    match f with
    | .cmd20 => .ok (decodeCmd (BitVec.ofNat 20 w))
    | .rxStream => .ok (decodeRxByte (BitVec.ofNat 8 w))
    | .rxBody => .ok (decodeRxBody (BitVec.ofNat 8 w))
    | .txBody => decodeTxBody (BitVec.ofNat 8 w)
  else .error .wordTooWide

/-- A command word from its three fields (R90). -/
def cmdWord (cmd : BitVec 4) (a b : Byte) : CmdWord := cmd ++ a ++ b

/-- The command word of an instruction with the fields it does not use at zero; zero for an instruction that is no
command. -/
def encodeCmd : Instr → CmdWord
  | .nop => cmdWord 0x0 0 0
  | .crcClr => cmdWord 0x1 0 0
  | .crcUpd a => cmdWord 0x2 a 0
  | .argClr => cmdWord 0x3 0 0
  | .argPush a => cmdWord 0x4 a 0
  | .enc a => cmdWord 0x5 a 0
  | .send => cmdWord 0x6 0 0
  | .capt => cmdWord 0x7 0 0
  | .dec => cmdWord 0x8 0 0
  | .val a => cmdWord 0x9 a 0
  | .xact a b => cmdWord 0xA a b
  | .tmoSet a b => cmdWord 0xB a b
  | .flgClr => cmdWord 0xC 0 0
  | .reservedD => cmdWord 0xD 0 0
  | .reservedE => cmdWord 0xE 0 0
  | .reservedF => cmdWord 0xF 0 0
  | .wireErrorAnswer | .wireAnswer _ | .wireRtcReadRequest | .wireRtcReadAnswer => 0
  | .rxByteStx | .rxByteEtx | .rxByteOther _ => 0

/-- The encoder: the format an instruction's word stands in, and the word. -/
def encode : Instr → Format × Nat
  | .wireErrorAnswer => (.rxBody, 0xFF)
  | .wireAnswer op => (.rxBody, op.toNat)
  | .wireRtcReadAnswer => (.rxBody, 0x97)
  | .wireRtcReadRequest => (.txBody, 0x17)
  | .rxByteStx => (.rxStream, 0x02)
  | .rxByteEtx => (.rxStream, 0x03)
  | .rxByteOther b => (.rxStream, b.toNat)
  | .nop => (.cmd20, (encodeCmd .nop).toNat)
  | .crcClr => (.cmd20, (encodeCmd .crcClr).toNat)
  | .crcUpd a => (.cmd20, (encodeCmd (.crcUpd a)).toNat)
  | .argClr => (.cmd20, (encodeCmd .argClr).toNat)
  | .argPush a => (.cmd20, (encodeCmd (.argPush a)).toNat)
  | .enc a => (.cmd20, (encodeCmd (.enc a)).toNat)
  | .send => (.cmd20, (encodeCmd .send).toNat)
  | .capt => (.cmd20, (encodeCmd .capt).toNat)
  | .dec => (.cmd20, (encodeCmd .dec).toNat)
  | .val a => (.cmd20, (encodeCmd (.val a)).toNat)
  | .xact a b => (.cmd20, (encodeCmd (.xact a b)).toNat)
  | .tmoSet a b => (.cmd20, (encodeCmd (.tmoSet a b)).toNat)
  | .flgClr => (.cmd20, (encodeCmd .flgClr).toNat)
  | .reservedD => (.cmd20, (encodeCmd .reservedD).toNat)
  | .reservedE => (.cmd20, (encodeCmd .reservedE).toNat)
  | .reservedF => (.cmd20, (encodeCmd .reservedF).toNat)

/-- The format a bare word of the opcode table is read in. Twenty bits, given as 24 in whole bytes, are a command.
Eight bits do not say their format: an exact row of any format wins; a word that only catch-all rows match is an
answer opcode where bit 7 is set (R107) and a byte of the RX stream otherwise (R95). DESIGN CHOICE (log 10). -/
def tableFormat (nbits w : Nat) : Option Format :=
  if nbits = 20 ∨ nbits = 24 then some .cmd20
  else if nbits = 8 then
    if w = 0x02 ∨ w = 0x03 then some .rxStream
    else if w = 0x17 then some .txBody
    else if 0x80 ≤ w then some .rxBody
    else some .rxStream
  else none

/-- The instruction the decoder reads from a word numbered as `spec/opcode_table.json` numbers it. -/
def decodeTableWord (nbits w : Nat) : Option Instr :=
  match tableFormat nbits w with
  | none => none
  | some f => (decode f w).toOption

end Sys2Proof
end

