-- ==== Sys2Proof/Machine/Operands.lean ====
section
/-! DEFINITION. Constants, and the assembly of operands and fields: hex characters, the CRC field, the terminal's
error code, the timeout (`00_scope.md` R7, `30_encoding.md` R100 to R105). -/

namespace Sys2Proof.Machine

/-- START_MARKER (R7). -/
def stx : Byte := 0x02

/-- END_MARKER (R7). -/
def etx : Byte := 0x03

/-- The error-opcode marker (R7). -/
def errOp : Byte := 0xFF

/-- The CRC's initial value (R7). -/
def crcInit : Word := 0xFFFF

/-- The minimum length of a frame: markers and CRC field (R7). -/
def minFrame : Nat := 6

/-- The upper-case hex character of a nibble (R100). -/
def digit (n : BitVec 4) : Byte := if n.toNat < 10 then 0x30 + n.setWidth 8 else 0x41 + (n.setWidth 8 - 10)

/-- A byte's two characters, high nibble first (R100). -/
def hexU (b : Byte) : List Byte := [digit (b.extractLsb' 4 4), digit (b.extractLsb' 0 4)]

/-- A character's nibble; `none` for every byte that is not an upper-case hex digit (R101). -/
def nib (c : Byte) : Option (BitVec 4) :=
  if 0x30 ≤ c.toNat ∧ c.toNat ≤ 0x39 then some ((c - 0x30).setWidth 4)
  else if 0x41 ≤ c.toNat ∧ c.toNat ≤ 0x46 then some ((c - 0x41 + 10).setWidth 4)
  else none

/-- Two characters to a byte (R102). -/
def unhex (c1 c2 : Byte) : Option Byte :=
  match nib c1, nib c2 with
  | some hi, some lo => some ((hi.setWidth 8 <<< 4) ||| lo.setWidth 8)
  | _, _ => none

/-- Every byte's two characters, in index order (`20_memory.md` R72). -/
def hexAll : List Byte → List Byte
  | [] => []
  | b :: bs => hexU b ++ hexAll bs

/-- Characters paired into bytes; `none` where one is no hex digit or their number is odd (`43_deframer.md` R203,
R204). -/
def unhexAll : List Byte → Option (List Byte)
  | [] => some []
  | [_] => none
  | c1 :: c2 :: cs =>
    match unhex c1 c2, unhexAll cs with
    | some b, some bs => some (b :: bs)
    | _, _ => none

/-- A CRC's four wire characters, low byte first (R103). -/
def crcField (c : Word) : List Byte := hexU (c.extractLsb' 0 8) ++ hexU (c.extractLsb' 8 8)

/-- The CRC that four wire characters stand for (R103). -/
def crcValue : List Byte → Option Word
  | [f0, f1, f2, f3] =>
    match unhex f2 f3, unhex f0 f1 with
    | some hi, some lo => some ((hi.setWidth 16 <<< 8) ||| lo.setWidth 16)
    | _, _ => none
  | _ => none

/-- The terminal's error code, little-endian (`20_memory.md` R74, R105). -/
def errorCode (lo hi : Byte) : Word := lo.setWidth 16 ||| (hi.setWidth 16 <<< 8)

/-- The operand of `TMO.SET`: `a` is the high byte (`42_rx_capture.md` R171). -/
def timeoutValue (a b : Byte) : Word := (a.setWidth 16 <<< 8) ||| b.setWidth 16

end Sys2Proof.Machine
end

