-- ==== Sys2Proof/Config.lean ====
section
/-! DEFINITION. What an implementation fixes (`00_scope.md` R9) and the free values: constants without a body, so
that a claim holds whatever they are. -/

namespace Sys2Proof

/-- The parameters of `00_scope.md` R9 that a rule depends on. `rxCap = none` is the unbounded buffer. They stand in
`State` and no step writes them, so that a statement about every state is one about every parameter value (log 1). -/
structure Params where
  argMax : Nat
  rxCap : Option Nat
  defaultTimeout : Word
deriving DecidableEq, Repr

/-- The constraints of R9: `ARG_MAX >= 162`, `RX_CAP >= 6` or `none`, `DEFAULT_TIMEOUT_TICKS` in 1..65535. -/
def Params.ok (p : Params) : Bool :=
  decide (162 ≤ p.argMax) && p.rxCap.all (fun c => decide (6 ≤ c)) && decide (p.defaultTimeout ≠ 0)

/-- `TX_MAX` (R9). -/
def Params.txMax (p : Params) : Nat := 2 * (1 + p.argMax) + 6

/-- `PAY_MAX` (R9): rounded down, 0 when negative, unbounded when `RX_CAP = none`. -/
def Params.payMax (p : Params) : Option Nat := p.rxCap.map fun c => (c - 6) / 2 - 1

/-- How many elements a buffer has; `none` where it is unbounded (`20_memory.md` R60). -/
def Params.capacity (p : Params) : Space → Option Nat
  | .argbuf => some p.argMax
  | .txbuf => some p.txMax
  | .rxbuf => p.rxCap
  | .payload => p.payMax

/-- Indices below `n` all exist in the buffer. -/
def Params.fits (p : Params) (sp : Space) (n : Nat) : Bool := (p.capacity sp).all fun c => decide (n ≤ c)

/-- The values R9 suggests. DESIGN CHOICE (log 1): the reset state carries them. -/
def Config.suggested : Params := { argMax := 255, rxCap := some 1024, defaultTimeout := 1000 }

/-- The contents of a buffer element that nothing has written since reset number `epoch`: any value
(`70_reset_and_hazards.md` R321, U2). A free value (log 2). -/
opaque Config.unspecifiedByte (sp : Space) (epoch index : Nat) : Byte

/-- The event the environment chooses next where none is pending: any event (`00_scope.md` R14, U6). A free value
(log 3). -/
opaque Config.environment (index : Nat) : Event

end Sys2Proof
end

