-- ==== Sys2Proof/Machine/State.lean ====
section
/-! DEFINITION. The state of the block and of the channel it owns, the reasons a step can stop, and the state after
reset. -/

namespace Sys2Proof.Machine

/-- Why a meaning stops. -/
inductive Fault where
  /-- An index at or beyond the capacity of the buffer (`20_memory.md` R60). Raised by `readBuf` and `writeBuf`.
  Safe: the element does not exist, and in the states of `10_state.md` R46 no step asks for one (log 12). -/
  | noSuchElement (sp : Space)
  /-- `RxByte` in `IDLE`: the event is not enabled (`42_rx_capture.md` R176, U8). Raised by the `RXBYTE` rows. Safe:
  the spec gives the event no step there, and `step` leaves the byte in the channel instead (log 6). -/
  | rxNotEnabled
deriving DecidableEq, Repr

/-- Why an instruction is refused. -/
inductive Refusal where
  /-- The instruction has no meaning yet. Raised only by an arm of `exec` that says so; safe. No arm does. -/
  | notModelled (mnemonic : String)
deriving DecidableEq, Repr

/-- `PHASE` (`10_state.md` R30). Value 3 is never taken (log 17). -/
inductive Phase where
  | idle
  | hunt
  | acc
deriving DecidableEq, Repr

/-- The number of a phase (R30). -/
def Phase.code : Phase → BitVec 2
  | .idle => 0
  | .hunt => 1
  | .acc => 2

/-- `MODE` (`10_state.md` R31): 0 standalone, 1 transaction. -/
inductive Mode where
  | standalone
  | transaction
deriving DecidableEq, Repr

/-- The bit of a mode (R31). -/
def Mode.code : Mode → BitVec 1
  | .standalone => 0
  | .transaction => 1

/-- The local status codes (`10_state.md` R34). -/
inductive LocalCode where
  | none
  | crcNotValid
  | timeout
  | hwErr
  | dataSent
  | dataReceived
  | success
  | payloadTooLong
  | payloadIdCheckFailed
  | opcodeMismatch
deriving DecidableEq, Repr

/-- The number of a local status code (R34). -/
def LocalCode.number : LocalCode → Word
  | .none => 0
  | .crcNotValid => 1
  | .timeout => 2
  | .hwErr => 3
  | .dataSent => 4
  | .dataReceived => 5
  | .success => 6
  | .payloadTooLong => 7
  | .payloadIdCheckFailed => 8
  | .opcodeMismatch => 9

/-- `STATUS` (`10_state.md` R33): a local code, or a terminal's 16-bit code taken verbatim
(log 18). -/
inductive Status where
  | loc (c : LocalCode)
  | terminal (code : Word)
deriving DecidableEq, Repr

/-- The field `KIND` (R33). -/
def Status.kind : Status → BitVec 1
  | .loc _ => 0
  | .terminal _ => 1

/-- The field `CODE` (R33). -/
def Status.code : Status → Word
  | .loc c => c.number
  | .terminal c => c

/-- A buffer: the elements written since reset, by strictly rising index. An index that is not listed holds no value
of its own (`State.elem` says what reading it gives). -/
abbrev Memory := List Host.Cell

/-- The canonical form: strictly rising indices. -/
def Memory.wf : Memory → Bool
  | [] => true
  | [_] => true
  | (i, _) :: (j, v) :: m => decide (i < j) && Memory.wf ((j, v) :: m)

/-- One `emit TxFrame(s); draw txok` (`20_memory.md` R67): the bytes emitted, and the draw (log 7). -/
structure Emission where
  frame : List Byte
  draw : TxDraw
deriving DecidableEq, Repr

/-- The bytes the transport took: all of them, or the prefix that the environment drew (R67, U5). -/
def Emission.onWire (e : Emission) : List Byte := if e.draw.txok then e.frame else e.frame.take e.draw.taken

structure State where
  /-- `CRC` (`10_state.md` R20). -/
  crc : Word
  /-- `ARGBUF`, `ARGLEN` (R21). -/
  argbuf : Memory
  arglen : Nat
  /-- `TXBUF`, `TXLEN` (R22). -/
  txbuf : Memory
  txlen : Nat
  /-- `RXBUF`, `RXLEN` (R23). -/
  rxbuf : Memory
  rxlen : Nat
  /-- `TMR` (R24). -/
  tmr : Word
  /-- `TIMEOUT` (R25). -/
  timeout : Word
  /-- `EXP` (R26). -/
  exp : Byte
  /-- `ANSOP` (R27). -/
  ansop : Byte
  /-- `PAYLOAD`, `PLEN` (R28). -/
  payload : Memory
  plen : Nat
  /-- `PHASE` (R30). -/
  phase : Phase
  /-- `MODE` (R31). -/
  mode : Mode
  /-- `STATUS` (R33). -/
  status : Status
  /-- `FLAGS` (R36). -/
  flags : BitVec 5
  /-- The channel's receive queue, oldest byte first (R41): environment state. -/
  rxq : List Byte
  /-- What the block has emitted, oldest first (`20_memory.md` R67): environment state. -/
  sent : List Emission
  /-- The model's own: the parameters of `00_scope.md` R9. No step writes them. -/
  params : Params
  /-- The model's own: how many `Reset` events there have been (log 2). -/
  epoch : Nat
  /-- The model's own: the events the environment has already chosen, oldest first (log 3). -/
  pending : List Event
  /-- The model's own: which choice of `Config.environment` comes next (log 3). -/
  envIndex : Nat
  /-- The model's own: the draw that came with the current command (log 4). -/
  draw : TxDraw
deriving DecidableEq, Repr

/-- The output `busy` (`10_state.md` R32). -/
def State.busy (s : State) : Bool := s.phase != .idle

/-- The cells of a buffer. -/
def State.mem (s : State) : Space → Memory
  | .argbuf => s.argbuf
  | .txbuf => s.txbuf
  | .rxbuf => s.rxbuf
  | .payload => s.payload

/-- The length register of a buffer. -/
def State.len (s : State) : Space → Nat
  | .argbuf => s.arglen
  | .txbuf => s.txlen
  | .rxbuf => s.rxlen
  | .payload => s.plen

/-- A buffer replaced. -/
def State.setMem (s : State) (sp : Space) (m : Memory) : State :=
  match sp with
  | .argbuf => { s with argbuf := m }
  | .txbuf => { s with txbuf := m }
  | .rxbuf => { s with rxbuf := m }
  | .payload => { s with payload := m }

/-- The indices below `n` of the buffer exist. -/
def State.fits (s : State) (sp : Space) (n : Nat) : Bool := s.params.fits sp n

/-- The state after `Reset` for given parameters (`70_reset_and_hazards.md` R321). No buffer lists an element: their
contents are unspecified. -/
def State.resetWith (p : Params) : State where
  crc := 0xFFFF
  argbuf := []
  arglen := 0
  txbuf := []
  txlen := 0
  rxbuf := []
  rxlen := 0
  tmr := 0
  timeout := p.defaultTimeout
  exp := 0x00
  ansop := 0x00
  payload := []
  plen := 0
  phase := .idle
  mode := .standalone
  status := .loc .none
  flags := 0
  rxq := []
  sent := []
  params := p
  epoch := 0
  pending := []
  envIndex := 0
  draw := { txok := true, taken := 0 }

/-- The machine right after reset, with the parameter values R9 suggests (log 1). -/
def State.reset : State := State.resetWith Config.suggested

end Sys2Proof.Machine
end

