-- ==== Sys2Proof/Machine/Codec.lean ====
section
/-! DEFINITION. The Frame Codec's pure functions: `encode` (`41_tx_framer.md` R155), `decode` (`43_deframer.md`
R201) and `validate` (`44_validator_transaction.md` R221). -/

namespace Sys2Proof.Machine

/-- `encode(op, args)` (R155). -/
def encodeFrame (op : Byte) (args : List Byte) : List Byte :=
  [stx] ++ hexAll (op :: args) ++ crcField (crc16 (op :: args)) ++ [etx]

/-- What `decode` returns (R201). -/
structure Decoded where
  status : Status
  ansop : Byte
  payload : List Byte
  malf : Bool
deriving DecidableEq, Repr

/-- The malformed outcome (R210). -/
def malformed : Decoded := { status := .loc .crcNotValid, ansop := 0x00, payload := [], malf := true }

/-- The outcome of a failed CRC comparison (R206). -/
def crcFailed : Decoded := { status := .loc .crcNotValid, ansop := 0x00, payload := [], malf := false }

/-- A captured frame's markers are in place (R202). -/
def framed (f : List Byte) : Bool := decide (minFrame ≤ f.length) && f.head? == some stx && f.getLast? == some etx

/-- The bytes strictly between the first and the last (R202). -/
def interior (f : List Byte) : List Byte := f.tail.dropLast

/-- Steps 1 to 5 of `decode`: framing, hex alphabet and splitting, CRC, empty body (R202 to R207). The body's first
byte and the rest, or the outcome that ended the decoding. -/
def openFrame (f : List Byte) : Except Decoded (Byte × List Byte) :=
  if framed f then
    let i := interior f
    match unhexAll (i.take (i.length - 4)), crcValue (i.drop (i.length - 4)) with
    | some body, some claimed =>
      if claimed = crc16 body then
        match body with
        | [] => .error malformed
        | b :: rest => .ok (b, rest)
      else .error crcFailed
    | _, _ => .error malformed
  else .error malformed

/-- An error frame, from the body bytes after its first: the code of the next two, later bytes ignored; malformed
where the code is not all there (R208). -/
def errorFrame : List Byte → Decoded
  | lo :: hi :: _ => { status := .terminal (errorCode lo hi), ansop := errOp, payload := [], malf := false }
  | _ => malformed

/-- An answer frame: the first byte is the answer opcode and the remainder the payload (R209). -/
def answerFrame (op : Byte) (rest : List Byte) : Decoded :=
  { status := .loc .dataReceived, ansop := op, payload := rest, malf := false }

/-- `decode(f)` (R201). -/
def decodeFrame (f : List Byte) : Decoded :=
  match openFrame f with
  | .error r => r
  | .ok (b, rest) => if b = errOp then errorFrame rest else answerFrame b rest

/-- `validate(status, ansop, exp)` (R221). -/
def validate (status : Status) (ansop exp : Byte) : Status :=
  if status = .loc .dataReceived then
    if ansop = exp then .loc .success else .loc .opcodeMismatch
  else status

end Sys2Proof.Machine
end

