-- ==== Sys2Proof/Machine/Flags.lean ====
section
/-! DEFINITION. The sticky bits of `FLAGS` (`10_state.md` R36). There are no condition codes (R37). -/

namespace Sys2Proof.Machine

/-- The five flags (R36). -/
inductive Flag where
  | malf
  | rxovf
  | argovf
  | busyerr
  | illcmd
deriving DecidableEq, Repr

/-- The bit position of a flag (R36). -/
def Flag.bit : Flag → Nat
  | .malf => 0
  | .rxovf => 1
  | .argovf => 2
  | .busyerr => 3
  | .illcmd => 4

/-- The value of `FLAGS` with one bit set; the others keep theirs (the bits are sticky, R36). -/
def withFlag (flags : BitVec 5) (f : Flag) : BitVec 5 := flags ||| (1#5 <<< f.bit)

/-- One flag of the state. -/
def State.flag (s : State) (f : Flag) : Bool := s.flags.getLsbD f.bit

/-- The event that a flag records has happened. -/
def State.setFlag (s : State) (f : Flag) : State := { s with flags := withFlag s.flags f }

end Sys2Proof.Machine
end

