-- ==== Sys2Proof/Machine/Ops.lean ====
section
/-! DEFINITION. The named operations over buffers and registers that the meanings share. -/

namespace Sys2Proof.Machine

/-- What an event handler answers. -/
abbrev Result := Host.Outcome State Fault Refusal

/-- An effect that may ask for an element that does not exist, as an outcome. -/
def finish : Except Fault State → Result
  | .ok s => .next s
  | .error f => .fault f

/-- The listed value of an index. -/
def Memory.lookup : Memory → Nat → Option Byte
  | [], _ => none
  | (j, v) :: m, i => if i = j then some v else Memory.lookup m i

/-- One element written; the canonical form is kept. -/
def Memory.write : Memory → Nat → Byte → Memory
  | [], i, b => [(i, b)]
  | (j, v) :: m, i, b =>
    if i < j then (i, b) :: (j, v) :: m else if i = j then (i, b) :: m else (j, v) :: Memory.write m i b

/-- Consecutive elements written from an index on. -/
def Memory.writeAll : Memory → Nat → List Byte → Memory
  | m, _, [] => m
  | m, i, b :: bs => Memory.writeAll (Memory.write m i b) (i + 1) bs

/-- `MemRead(sp, i, 1)` (`00_scope.md` R12): what was last written there, any value where nothing was since reset
(U2, U3, log 2). -/
def State.elem (s : State) (sp : Space) (i : Nat) : Byte :=
  ((s.mem sp).lookup i).getD (Config.unspecifiedByte sp s.epoch i)

/-- `n` elements of a buffer from index `i` on. -/
def State.elems (s : State) (sp : Space) : Nat → Nat → List Byte
  | _, 0 => []
  | i, n + 1 => s.elem sp i :: State.elems s sp (i + 1) n

/-- The elements `0..n-1` of a buffer; a fault where one does not exist (log 12). -/
def readBuf (s : State) (sp : Space) (n : Nat) : Except Fault (List Byte) :=
  if s.fits sp n then .ok (s.elems sp 0 n) else .error (.noSuchElement sp)

/-- `MemWrite(sp, i + k, 1, bs[k])` for every `k` (R12); a fault where an element does not exist (log 12). -/
def writeBuf (s : State) (sp : Space) (i : Nat) (bs : List Byte) : Except Fault State :=
  if s.fits sp (i + bs.length) then .ok (s.setMem sp ((s.mem sp).writeAll i bs)) else .error (.noSuchElement sp)

/-- `emit TxFrame(f)`, with the draw that came with the command (R12, `20_memory.md` R67). -/
def State.emit (s : State) (f : List Byte) : State := { s with sent := s.sent ++ [{ frame := f, draw := s.draw }] }

/-- `raise <Status>`: the status is written and the operation in progress is complete; nothing is saved and control
goes nowhere (`00_scope.md` R12, `60_exceptions.md` R290). There is no operation that returns from it (R291). -/
def State.raise (s : State) (st : Status) : State := { s with status := st, phase := .idle }

/-- The rule that gates every command: in `IDLE` it is executed, in another phase it only sets `BUSYERR`
(`44_validator_transaction.md` R232, log 19). -/
def whenIdle (s : State) (k : State → Result) : Result :=
  if s.phase = .idle then k s else .next (s.setFlag .busyerr)

/-- `TXBUF`, `TXLEN` receive `encode(op, args)` (`41_tx_framer.md` R156). -/
def storeFrame (s : State) (op : Byte) (args : List Byte) : Except Fault State :=
  match writeBuf s .txbuf 0 (encodeFrame op args) with
  | .error e => .error e
  | .ok s' => .ok { s' with txlen := (encodeFrame op args).length }

/-- The frame of an opcode and the arguments in `ARGBUF`, built in `TXBUF` (R156). -/
def buildFrame (s : State) (op : Byte) : Except Fault State :=
  match readBuf s .argbuf s.arglen with
  | .error e => .error e
  | .ok args => storeFrame s op args

/-- `arm()` (`42_rx_capture.md` R173, R174). -/
def arm (s : State) : State :=
  if s.timeout = 0 then State.raise { s with rxlen := 0 } (.loc .timeout)
  else { s with rxlen := 0, tmr := s.timeout, phase := .hunt }

/-- A `TIMEOUT` completion: `short_frame()` and `deadline()` (`42_rx_capture.md` R181, R183). -/
def timeOut (s : State) : State := State.raise { s with rxlen := 0 } (.loc .timeout)

/-- `if malf then x[FLAGS].MALF <- 1`. -/
def State.noteMalf (s : State) (malf : Bool) : State := if malf then s.setFlag .malf else s

/-- The result registers receive a decoded frame (`43_deframer.md` R200). -/
def applyDecoded (s : State) (r : Decoded) : Except Fault State :=
  match writeBuf { s with status := r.status, ansop := r.ansop } .payload 0 r.payload with
  | .error e => .error e
  | .ok s' => .ok (State.noteMalf { s' with plen := r.payload.length } r.malf)

/-- The result registers of a transaction receive a decoded frame and its validated status; the payload only on
`SUCCESS` (`44_validator_transaction.md` R227). -/
def applyValidated (s : State) (r : Decoded) : Except Fault State :=
  let v := validate r.status r.ansop s.exp
  let s := { s.noteMalf r.malf with ansop := r.ansop, status := v }
  if v = .loc .success then
    match writeBuf s .payload 0 r.payload with
    | .error e => .error e
    | .ok s' => .ok { s' with plen := r.payload.length }
  else .ok { s with plen := 0 }

/-- `complete_transaction()` (R227). -/
def completeTransaction (s : State) : Except Fault State :=
  match readBuf s .rxbuf s.rxlen with
  | .error e => .error e
  | .ok f => applyValidated s (decodeFrame f)

/-- What follows the `ETX` stored in `RXBUF`, with `PHASE` already `IDLE` (`42_rx_capture.md` R180). -/
def completeCapture (s : State) : Except Fault State :=
  if s.rxlen < minFrame then .ok (timeOut s)
  else
    match s.mode with
    | .standalone => .ok (s.raise (.loc .dataReceived))
    | .transaction => completeTransaction s

/-- A byte appended to `RXBUF` (`42_rx_capture.md` R179). -/
def appendRx (s : State) (b : Byte) : Except Fault State :=
  match writeBuf s .rxbuf s.rxlen [b] with
  | .error e => .error e
  | .ok s' => .ok { s' with rxlen := s.rxlen + 1 }

/-- The buffer is full: the frame in progress and the byte are dropped, the capture goes on hunting
(`42_rx_capture.md` R178). -/
def dropFrame (s : State) : State := { s.setFlag .rxovf with rxlen := 0, phase := .hunt }

/-- A byte of phase `ACC` that does not end the frame (R178, R179). -/
def accumulate (s : State) (b : Byte) : Except Fault State :=
  if s.params.rxCap = some s.rxlen then .ok (dropFrame s) else appendRx s b

/-- The deframer with a row of the body table already selected: the failing outcomes of steps 1 to 5 as they are,
else the row's own outcome for the body bytes after the first (`43_deframer.md` R201, log 8). -/
def deframeRow (s : State) (row : List Byte → Decoded) : Except Fault State :=
  match readBuf s .rxbuf s.rxlen with
  | .error e => .error e
  | .ok f =>
    match openFrame f with
    | .error r => applyDecoded s r
    | .ok (_, rest) => applyDecoded s (row rest)

end Sys2Proof.Machine
end

