-- ==== Sys2Proof/Machine/Capture.lean ====
section
/-! DEFINITION. The RX capture automaton (`42_rx_capture.md`): `TMO.SET`, `CAPT`, the three classes of a received
byte, and the tick. -/

namespace Sys2Proof.Machine

/-- `TMO.SET a, b` (R171). -/
def execTmoSet (a b : Byte) (s : State) : Result := whenIdle s fun s => .next { s with timeout := timeoutValue a b }

/-- `CAPT` (R172). -/
def execCapt (s : State) : Result := whenIdle s fun s =>
  .next (arm { s with mode := .standalone, status := .loc .none })

/-- `RxByte(STX)`: starts a frame in `HUNT` (R177), is stored as data in `ACC` (R178, R179). -/
def execRxByteStx (s : State) : Result :=
  match s.phase with
  | .idle => .fault .rxNotEnabled
  | .hunt =>
    match writeBuf s .rxbuf 0 [stx] with
    | .error e => .fault e
    | .ok s' => .next { s' with rxlen := 1, phase := .acc }
  | .acc => finish (accumulate s stx)

/-- `RxByte(ETX)`: discarded in `HUNT` (R177), ends the frame in `ACC` (R178, R180). -/
def execRxByteEtx (s : State) : Result :=
  match s.phase with
  | .idle => .fault .rxNotEnabled
  | .hunt => .next s
  | .acc =>
    if s.params.rxCap = some s.rxlen then .next (dropFrame s)
    else
      match appendRx s etx with
      | .error e => .fault e
      | .ok s' => finish (completeCapture { s' with phase := .idle })

/-- `RxByte(b)` for a byte that is no marker: discarded in `HUNT` (R177), stored in `ACC` (R178, R179). -/
def execRxByteOther (b : Byte) (s : State) : Result :=
  match s.phase with
  | .idle => .fault .rxNotEnabled
  | .hunt => .next s
  | .acc => finish (accumulate s b)

/-- `Tick` (R182, R183, log 16): nothing in `IDLE`; else `TMR` goes down by one and stops at 0 (`60_exceptions.md` R298,
log 13), where the deadline is reached. -/
def onTick (s : State) : State :=
  match s.phase with
  | .idle => s
  | .hunt | .acc =>
    let s := { s with tmr := BitVec.ofNat 16 (s.tmr.toNat - 1) }
    if s.tmr = 0 then timeOut s else s

end Sys2Proof.Machine
end

