-- ==== Sys2Proof/Machine/Checksum.lean ====
section
/-! DEFINITION. The commands of the Checksum Engine (`40_crc.md`). -/

namespace Sys2Proof.Machine

/-- `CRC.CLR` (R135). -/
def execCrcClr (s : State) : Result := whenIdle s fun s => .next { s with crc := crcInit }

/-- `CRC.UPD a` (R136). -/
def execCrcUpd (a : Byte) (s : State) : Result := whenIdle s fun s => .next { s with crc := crcStep s.crc a }

end Sys2Proof.Machine
end

