-- ==== Sys2Proof/Machine/Deframer.lean ====
section
/-! DEFINITION. The deframer (`43_deframer.md`): `DEC`, and what it does for each class of a received body. -/

namespace Sys2Proof.Machine

/-- `DEC` (R200). -/
def execDec (s : State) : Result := whenIdle s fun s =>
  match readBuf s .rxbuf s.rxlen with
  | .error e => .fault e
  | .ok f => finish (applyDecoded s (decodeFrame f))

/-- `WIRE.ERROR_ANSWER`: the frame in `RXBUF` is an error frame (R208, log 8). -/
def execWireErrorAnswer (s : State) : Result := finish (deframeRow s errorFrame)

/-- `WIRE.ANSWER op`: the frame in `RXBUF` is an answer with that opcode (R209, log 8). -/
def execWireAnswer (op : Byte) (s : State) : Result := finish (deframeRow s (answerFrame op))

/-- `WIRE.RTC_READ_ANSWER`: an answer with the opcode `0x97` (R209, `45_catalog.md` R257, log 8). What time its
payload stands for is the catalog's `rtcTime`. -/
def execWireRtcReadAnswer (s : State) : Result := finish (deframeRow s (answerFrame 0x97))

/-- `WIRE.RTC_READ_REQUEST`: the framer builds the frame of the body `[0x17]`, no arguments (`45_catalog.md` R257,
`41_tx_framer.md` R155, R156, log 9). -/
def execWireRtcReadRequest (s : State) : Result := finish (storeFrame s 0x17 [])

end Sys2Proof.Machine
end

