-- ==== Sys2Proof/Machine/Engine.lean ====
section
/-! DEFINITION. The validator and the transaction engine, housekeeping and reserved codes
(`44_validator_transaction.md`). -/

namespace Sys2Proof.Machine

/-- `VAL a` (R222), as its pseudocode has it also after a mismatch (log 20). -/
def execVal (a : Byte) (s : State) : Result := whenIdle s fun s =>
  let v := validate s.status s.ansop a
  .next { s with exp := a, status := v, plen := if v = .loc .opcodeMismatch then 0 else s.plen }

/-- `XACT a, b` (R226). -/
def execXact (a b : Byte) (s : State) : Result := whenIdle s fun s =>
  match readBuf s .argbuf s.arglen with
  | .error e => .fault e
  | .ok args =>
    match storeFrame { s with status := .loc .none, ansop := 0x00, plen := 0, exp := b } a args with
    | .error e => .fault e
    | .ok s' =>
      let s' := s'.emit (encodeFrame a args)
      if s.draw.txok then .next (arm { s' with mode := .transaction }) else .next (s'.raise (.loc .hwErr))

/-- `NOP` (R230). -/
def execNop (s : State) : Result := whenIdle s fun s => .next s

/-- `FLG.CLR` (R231). -/
def execFlgClr (s : State) : Result := whenIdle s fun s => .next { s with flags := 0 }

/-- The reserved code `0xD` (R233). -/
def execReservedD (s : State) : Result := whenIdle s fun s => .next (s.setFlag .illcmd)

/-- The reserved code `0xE` (R233). -/
def execReservedE (s : State) : Result := whenIdle s fun s => .next (s.setFlag .illcmd)

/-- The reserved code `0xF` (R233). -/
def execReservedF (s : State) : Result := whenIdle s fun s => .next (s.setFlag .illcmd)

end Sys2Proof.Machine
end

