-- ==== Sys2Proof/Machine/Framer.lean ====
section
/-! DEFINITION. The commands of the TX framer (`41_tx_framer.md`). -/

namespace Sys2Proof.Machine

/-- `ARG.CLR` (R152). -/
def execArgClr (s : State) : Result := whenIdle s fun s => .next { s with arglen := 0 }

/-- `ARG.PUSH a` (R153). -/
def execArgPush (a : Byte) (s : State) : Result := whenIdle s fun s =>
  if s.arglen = s.params.argMax then .next (s.setFlag .argovf)
  else
    match writeBuf s .argbuf s.arglen [a] with
    | .error e => .fault e
    | .ok s' => .next { s' with arglen := s.arglen + 1 }

/-- `ENC a` (R156). -/
def execEnc (a : Byte) (s : State) : Result := whenIdle s fun s => finish (buildFrame s a)

/-- `SEND` (R158): the status follows the draw whatever the frame. -/
def execSend (s : State) : Result := whenIdle s fun s =>
  match readBuf s .txbuf s.txlen with
  | .error e => .fault e
  | .ok f => .next (State.raise (s.emit f) (if s.draw.txok then .loc .dataSent else .loc .hwErr))

end Sys2Proof.Machine
end

