-- ==== Sys2Proof/Machine/Dispatch.lean ====
section
/-! DEFINITION. One arm per instruction. -/

namespace Sys2Proof.Machine

def exec (i : Instr) (s : State) : Host.Outcome State Fault Refusal :=
  match i with
  | .nop => Sys2Proof.Machine.execNop s
  | .crcClr => Sys2Proof.Machine.execCrcClr s
  | .crcUpd a => Sys2Proof.Machine.execCrcUpd a s
  | .argClr => Sys2Proof.Machine.execArgClr s
  | .argPush a => Sys2Proof.Machine.execArgPush a s
  | .enc a => Sys2Proof.Machine.execEnc a s
  | .send => Sys2Proof.Machine.execSend s
  | .capt => Sys2Proof.Machine.execCapt s
  | .dec => Sys2Proof.Machine.execDec s
  | .val a => Sys2Proof.Machine.execVal a s
  | .xact a b => Sys2Proof.Machine.execXact a b s
  | .tmoSet a b => Sys2Proof.Machine.execTmoSet a b s
  | .flgClr => Sys2Proof.Machine.execFlgClr s
  | .reservedD => Sys2Proof.Machine.execReservedD s
  | .reservedE => Sys2Proof.Machine.execReservedE s
  | .reservedF => Sys2Proof.Machine.execReservedF s
  | .wireErrorAnswer => Sys2Proof.Machine.execWireErrorAnswer s
  | .wireAnswer opcode => Sys2Proof.Machine.execWireAnswer opcode s
  | .wireRtcReadRequest => Sys2Proof.Machine.execWireRtcReadRequest s
  | .wireRtcReadAnswer => Sys2Proof.Machine.execWireRtcReadAnswer s
  | .rxByteStx => Sys2Proof.Machine.execRxByteStx s
  | .rxByteEtx => Sys2Proof.Machine.execRxByteEtx s
  | .rxByteOther byte => Sys2Proof.Machine.execRxByteOther byte s

end Sys2Proof.Machine
end

