-- ==== Sys2Proof/Machine/Events.lean ====
section
/-! DEFINITION. The events (`00_scope.md` R14): how each is handled, the pseudo-commands' expansion into them
(`30_encoding.md` R112), and how a word of the opcode table is placed where the next step takes it. -/

namespace Sys2Proof.Machine

/-- `Reset` (`70_reset_and_hazards.md` R320, R321): every register at its reset value, the channel as it was. The
buffers' contents are unspecified anew (log 2). -/
def onReset (s : State) : State :=
  { State.resetWith s.params with
    rxq := s.rxq, sent := s.sent, epoch := s.epoch + 1, pending := s.pending, envIndex := s.envIndex, draw := s.draw }

/-- The channel offers its oldest byte: the block takes it in `HUNT` and `ACC` and leaves it in `IDLE`
(`20_memory.md` R68, `42_rx_capture.md` R176, log 6). Nothing happens where the queue is empty. -/
def onRxByte (s : State) : Result :=
  match s.phase, s.rxq with
  | .idle, _ => .next s
  | .hunt, [] | .acc, [] => .next s
  | .hunt, b :: q | .acc, b :: q => exec (decodeRxByte b) { s with rxq := q }

/-- One event, handled to completion (`00_scope.md` R14). -/
def handleEvent (e : Event) (s : State) : Result :=
  match e with
  | .cmd w d => exec (decodeCmd w) { s with draw := d }
  | .rxByte => onRxByte s
  | .arrive b => .next { s with rxq := s.rxq ++ [b] }
  | .tick => .next (onTick s)
  | .reset => .next (onReset s)

/-- Events handled one after the other, up to the first that stops. -/
def handleAll : List Event → State → Result
  | [], s => .next s
  | e :: es, s =>
    match handleEvent e s with
    | .next s' => handleAll es s'
    | .fault r => .fault r
    | .refused r => .refused r

/-- The next event: the oldest pending one, else the environment's free choice (log 3). -/
def nextEvent (s : State) : Event × State :=
  match s.pending with
  | e :: rest => (e, { s with pending := rest })
  | [] => (Config.environment s.envIndex, { s with envIndex := s.envIndex + 1 })

/-- The event of a command whose send, if it makes one, succeeds (`30_encoding.md` R111: absent, `txok` is meant). -/
def command (i : Instr) : Event := .cmd (encodeCmd i) { txok := true, taken := 0 }

/-- `CRC16 b0, ..., bk` (R112). -/
def pseudoCrc16 (bs : List Byte) : List Event := command .crcClr :: bs.map fun b => command (.crcUpd b)

/-- `ARGS b0, ..., bk` (R112). -/
def pseudoArgs (bs : List Byte) : List Event := command .argClr :: bs.map fun b => command (.argPush b)

/-- `TMO t` (R112). -/
def pseudoTmo (t : Word) : Event := command (.tmoSet (t.extractLsb' 8 8) (t.extractLsb' 0 8))

/-- `RXS s` (R112): each byte joins the channel's queue and is offered to the block. -/
def pseudoRxs : List Byte → List Event
  | [] => []
  | b :: bs => .arrive b :: .rxByte :: pseudoRxs bs

/-- `TICK * n` (R112). -/
def pseudoTicks (n : Nat) : List Event := List.replicate n .tick

/-- `EXEC q, e, b0, ..., bk` (R112). -/
def pseudoExec (q e : Byte) (bs : List Byte) : List Event := pseudoArgs bs ++ [command (.xact q e)]

/-- `RxByte` enabled: a state in `IDLE` put into `HUNT` as an armed standalone capture has it. -/
def readyForByte (s : State) : State :=
  match s.phase with
  | .idle => { s with phase := .hunt, mode := .standalone, status := .loc .none, rxlen := 0,
                      tmr := if s.timeout = 0 then 1 else s.timeout }
  | .hunt | .acc => s

/-- A frame placed in `RXBUF` as a completed capture leaves it. -/
def holdingFrame (s : State) (f : List Byte) : State :=
  { s with rxbuf := s.rxbuf.writeAll 0 f, rxlen := f.length, phase := .idle }

/-- The operand bytes, all zero, of a received body that begins with an opcode: two code bytes of an error frame,
four payload bytes of the RTC answer, else none. -/
def zeroOperands (b : Byte) : List Byte := if b = errOp then [0, 0] else if b = 0x97 then [0, 0, 0, 0] else []

/-- A word of the opcode table placed where the next step takes it (log 11): a command on the command port; a
received byte first in the channel's queue with a capture armed; a received body in `RXBUF` with `DEC` on the command
port, which runs its row; the transmitted body of the RTC request by `ENC 0x17` with no arguments. -/
def placeWord (s : State) (nbits w : Nat) : State :=
  let draw : TxDraw := { txok := true, taken := 0 }
  match tableFormat nbits w with
  | none => s
  | some .cmd20 => { s with pending := .cmd (BitVec.ofNat 20 w) draw :: s.pending }
  | some .rxStream => { readyForByte s with rxq := BitVec.ofNat 8 w :: s.rxq, pending := .rxByte :: s.pending }
  | some .rxBody =>
    let b : Byte := BitVec.ofNat 8 w
    { holdingFrame s (encodeFrame b (zeroOperands b)) with pending := .cmd (encodeCmd .dec) draw :: s.pending }
  | some .txBody =>
    { s with arglen := 0, phase := .idle, pending := .cmd (encodeCmd (.enc (BitVec.ofNat 8 w))) draw :: s.pending }

end Sys2Proof.Machine
end

