-- ==== Sys2Proof/Machine/Step.lean ====
section
/-! DEFINITION. One step of the machine: one event. -/

namespace Sys2Proof.Machine

/-- The next event is taken and handled to completion (`00_scope.md` R14). -/
def step (s : State) : Host.Outcome State Fault Refusal := handleEvent (nextEvent s).1 (nextEvent s).2

/-- The state with a word of the opcode table placed where the next step takes it. -/
def State.withFetchWord (s : State) (nbits w : Nat) : State := placeWord s nbits w

end Sys2Proof.Machine
end

