-- ==== Sys2Proof/Machine/Catalog.lean ====
section
/-! DEFINITION. The Command Catalog, as far as the source describes it (`45_catalog.md`): its pure functions, and how a
host uses an entry. Host software outside the block (`00_scope.md` R5): no meaning of an instruction calls it. Layouts
marked D31 are the spec's own reading (log 14). -/

namespace Sys2Proof.Machine

/-- A Command Descriptor (R250). The encoder answers a status where it does not encode its argument (R255), the
decoder nothing where the payload does not hold all of the result (R251). -/
structure Descriptor (α β : Type) where
  request : Byte
  answer : Byte
  encodeArgs : α → Except Status (List Byte)
  decodeResult : List Byte → Option β

/-- The result an entry hands to its caller, from the block's status and payload: on `SUCCESS` the decoded payload, on
anything else the status with no value (R250). The status of a payload that does not decode is not stated: `short` is a
parameter (R251, U19). -/
def entryResult {β : Type} (decodeResult : List Byte → Option β) (short status : Status) (payload : List Byte) :
    Except Status β :=
  if status = .loc .success then
    match decodeResult payload with
    | some v => .ok v
    | none => .error short
  else .error status

/-- What a host issues to use an entry: `EXEC q, e, b0, ..., bk` (R250). -/
def Descriptor.issue {α β : Type} (d : Descriptor α β) (x : α) : Except Status (List Event) :=
  match d.encodeArgs x with
  | .error st => .error st
  | .ok args => .ok (pseudoExec d.request d.answer args)

/-- What a host reads once `busy` has fallen; nothing while it has not (R250). -/
def Descriptor.outcome {α β : Type} (d : Descriptor α β) (short : Status) (s : State) : Option (Except Status β) :=
  if s.busy then none else some (entryResult d.decodeResult short s.status (s.elems .payload 0 s.plen))

/-- An entry used from a state, with the events the environment delivers while the host waits: the state then, and the
result (R250). An argument that is not encoded issues no command (R255). Nothing where `busy` has not fallen by the
last of the events. -/
def Descriptor.run {α β : Type} (d : Descriptor α β) (short : Status) (x : α) (waiting : List Event) (s : State) :
    Option (State × Except Status β) :=
  match d.issue x with
  | .error st => some (s, .error st)
  | .ok es =>
    match handleAll (es ++ waiting) s with
    | .next t => (d.outcome short t).map fun r => (t, r)
    | .fault _ | .refused _ => none

/-- 2018-01-01T00:00:00Z as a Unix timestamp (`00_scope.md` R7). -/
def rtcEpoch : Nat := 1514764800

/-- The absolute time of an RTC answer; absent where the payload is too short (R251, R257). The sum is unbounded. -/
def rtcTime : List Byte → Option Nat
  | b0 :: b1 :: b2 :: b3 :: _ => some (b0.toNat + 2 ^ 8 * b1.toNat + 2 ^ 16 * b2.toNat + 2 ^ 24 * b3.toNat + rtcEpoch)
  | _ => none

/-- RTC read (R257). -/
def rtcRead : Descriptor Unit Nat :=
  { request := 0x17, answer := 0x97, encodeArgs := fun _ => .ok [], decodeResult := rtcTime }

/-- The feature flags of the configuration entries (R252). -/
structure ConfigFlags where
  payloadAck : Bool
  geolocation : Bool
  ephemeris : Bool
  deepSleep : Bool
  ackPinMask : Bool
  resetPinMask : Bool
deriving DecidableEq, Repr

/-- A byte whose bit 0 is the first flag, bit 1 the second, and so on. -/
def bitsByte : List Bool → Byte
  | [] => 0
  | b :: bs => (bitsByte bs <<< 1) ||| (BitVec.ofBool b).setWidth 8

/-- The argument bytes of a configuration write (R252, D31). -/
def configWriteArgs (f : ConfigFlags) : List Byte :=
  [bitsByte [f.payloadAck, f.geolocation, f.ephemeris, f.deepSleep], 0, bitsByte [f.ackPinMask, f.resetPinMask]]

/-- The identifiers and the flags of a configuration answer; absent where the payload is shorter than eight bytes
(R251, R253, D31). -/
def configRead : List Byte → Option (List Byte × ConfigFlags)
  | i0 :: i1 :: i2 :: i3 :: i4 :: f :: _ :: m :: _ =>
    some ([i0, i1, i2, i3, i4],
      { payloadAck := f.getLsbD 0, geolocation := f.getLsbD 1, ephemeris := f.getLsbD 2, deepSleep := f.getLsbD 3,
        ackPinMask := m.getLsbD 0, resetPinMask := m.getLsbD 1 })
  | _ => none

/-- Configuration write (R252). The source gives no opcodes, so they are parameters, and describes no result. -/
def configWrite (request answer : Byte) : Descriptor ConfigFlags Unit :=
  { request := request, answer := answer, encodeArgs := fun f => .ok (configWriteArgs f), decodeResult := fun _ => some () }

/-- Configuration read (R253). The source gives no opcodes, so they are parameters. It gives only the answer's layout:
that the request carries no argument bytes is a DESIGN CHOICE (log 21). -/
def configReadEntry (request answer : Byte) : Descriptor Unit (List Byte × ConfigFlags) :=
  { request := request, answer := answer, encodeArgs := fun _ => .ok [], decodeResult := configRead }

/-- `PAYLOAD_USER_MAX` (`00_scope.md` R7). -/
def payloadUserMax : Nat := 160

/-- The arguments of a payload enqueue, the correlation ID low byte first; too long a payload is not enqueued (R254,
R255). -/
def enqueueArgs (id : Word) (payload : List Byte) : Except Status (List Byte) :=
  if payload.length ≤ payloadUserMax then .ok ([id.extractLsb' 0 8, id.extractLsb' 8 8] ++ payload)
  else .error (.loc .payloadTooLong)

/-- The correlation ID that an enqueue's answer echoes (R256, D31). -/
def echoedId : List Byte → Option Word
  | lo :: hi :: _ => some (errorCode lo hi)
  | _ => none

/-- Payload enqueue (R254 to R256): the argument is the ID and the payload, the decoded result the echoed ID. The source
gives no opcodes, so they are parameters. -/
def payloadEnqueue (request answer : Byte) : Descriptor (Word × List Byte) Word :=
  { request := request, answer := answer, encodeArgs := fun x => enqueueArgs x.1 x.2, decodeResult := echoedId }

/-- The caller's check of the echoed ID against the one it sent (R256). -/
def checkEcho (id : Word) : Except Status Word → Status
  | .ok echo => if echo = id then .loc .success else .loc .payloadIdCheckFailed
  | .error st => st

/-- The status of an enqueue, from the block's status and payload: on `SUCCESS` the echoed ID is checked (R256). The
status of an answer too short to hold the echo is not stated: `short` is a parameter (U19). -/
def enqueueStatus (short : Status) (id : Word) (status : Status) (payload : List Byte) : Status :=
  checkEcho id (entryResult echoedId short status payload)

/-- A payload enqueue used from a state, with its check (R254 to R256). -/
def enqueue (request answer : Byte) (short : Status) (id : Word) (payload : List Byte) (waiting : List Event)
    (s : State) : Option (State × Status) :=
  ((payloadEnqueue request answer).run short (id, payload) waiting s).map fun r => (r.1, checkEcho id r.2)

/-- What a record-sequence answer decodes into (R258): the width of a tag's value, the tags of the named fields, one tag
a field, and the structure that a value for every one of those fields makes, the values in the order of `tags`. The
source gives no tags, widths or names (N11), so the table is a parameter, with the widths of the tags the decoder does
not recognise, which it skips. -/
structure RecordTable (β : Type) where
  width : Byte → Nat
  tags : List Byte
  build : List (List Byte) → β

/-- The walk over the records (R258): nothing where one is cut off. The first argument bounds their number. -/
def RecordTable.walk {β : Type} (t : RecordTable β) : Nat → List Byte → Option (List (Byte × List Byte))
  | _, [] => some []
  | 0, _ :: _ => none
  | bound + 1, tag :: rest =>
    if t.width tag ≤ rest.length then
      (RecordTable.walk t bound (rest.drop (t.width tag))).map fun rs => (tag, rest.take (t.width tag)) :: rs
    else none

/-- The records of a payload, in order. Every record has its tag, so there are at most as many as bytes. -/
def RecordTable.records {β : Type} (t : RecordTable β) (payload : List Byte) : Option (List (Byte × List Byte)) :=
  t.walk payload.length payload

/-- What the walk leaves in the field of a tag: the value of its last record; nothing where none came (R258, log 14). -/
def fieldValue (tag : Byte) : List (Byte × List Byte) → Option (List Byte)
  | [] => none
  | (tag', value) :: rs =>
    match fieldValue tag rs with
    | some later => some later
    | none => if tag' = tag then some value else none

/-- A value for every field; nothing where one of them is not filled (R251). -/
def fieldValues (rs : List (Byte × List Byte)) : List Byte → Option (List (List Byte))
  | [] => some []
  | tag :: tags =>
    match fieldValue tag rs, fieldValues rs tags with
    | some v, some vs => some (v :: vs)
    | _, _ => none

/-- The result decoder of a record-sequence read (R258): every field of the structure filled, or no structure at all
(R251). -/
def RecordTable.decode {β : Type} (t : RecordTable β) (payload : List Byte) : Option β :=
  match t.records payload with
  | some rs => (fieldValues rs t.tags).map t.build
  | none => none

/-- A record-sequence read (R258). The source gives no opcodes, so they are parameters. It describes only the answer:
that the request carries no argument bytes is a DESIGN CHOICE (log 21). -/
def recordRead {β : Type} (request answer : Byte) (t : RecordTable β) : Descriptor Unit β :=
  { request := request, answer := answer, encodeArgs := fun _ => .ok [], decodeResult := t.decode }

end Sys2Proof.Machine
end

