-- ==== Sys2Proof/Safety.lean ====
section
/-! DEFINITION. What holds in every reachable state (`10_state.md` R46), and what a step must not do. -/

namespace Sys2Proof.Machine

/-- The step goes on: neither a fault nor a refusal (`60_exceptions.md` R280). -/
def Result.goesOn (r : Result) : Prop := ∃ t, r = .next t

/-- The arguments of the next request: `ARGBUF[0..ARGLEN-1]` (`41_tx_framer.md` R150). -/
def State.args (s : State) : List Byte := s.elems .argbuf 0 s.arglen

/-- The frame in `RXBUF`: `RXBUF[0..RXLEN-1]` (`10_state.md` R23). -/
def State.frame (s : State) : List Byte := s.elems .rxbuf 0 s.rxlen

/-- The payload of the result: `PAYLOAD[0..PLEN-1]` (`10_state.md` R28). -/
def State.result (s : State) : List Byte := s.elems .payload 0 s.plen

/-- There is room for one more byte in `RXBUF`: `RXLEN < RX_CAP` (`42_rx_capture.md` R179, R180). -/
def State.room (s : State) : Bool := s.fits .rxbuf (s.rxlen + 1)

/-- The invariants of `10_state.md` R46, with the bounds of the lengths (its section 1), the parameters' constraints
(`00_scope.md` R9), that a mismatch withholds the payload (R28), and the buffers' canonical form: rising indices, all
of which exist. -/
structure State.Inv (s : State) : Prop where
  params_ok : s.params.ok = true
  arglen_fits : s.fits .argbuf s.arglen = true
  txlen_fits : s.fits .txbuf s.txlen = true
  txlen_shape : s.txlen = 0 ∨ (s.txlen % 2 = 0 ∧ 8 ≤ s.txlen)
  rxlen_fits : s.fits .rxbuf s.rxlen = true
  plen_fits : s.fits .payload s.plen = true
  buffers_wf : ∀ sp, (s.mem sp).wf = true
  cells_exist : ∀ sp, ∀ c ∈ s.mem sp, s.fits sp (c.1 + 1) = true
  hunt_empty : s.phase = .hunt → s.rxlen = 0
  acc_frame : s.phase = .acc →
    1 ≤ s.rxlen ∧ s.elem .rxbuf 0 = stx ∧ ∀ i, i < s.rxlen → 1 ≤ i → s.elem .rxbuf i ≠ etx
  armed : s.phase ≠ .idle → 1 ≤ s.tmr.toNat ∧ s.status = .loc .none
  mismatch_clear : s.status = .loc .opcodeMismatch → s.plen = 0
  transaction_clear : s.phase ≠ .idle → s.mode = .transaction → s.plen = 0 ∧ s.ansop = 0x00

end Sys2Proof.Machine
end

