-- ==== Sys2Proof/Certificates/Slice0/Obligations.lean ====
section
/-! DEFINITION. The statements for the provers, from the numbered rules of the spec. -/

open Sys2Proof Sys2Proof.Machine

/-! ### Encoding and decoding -/

/-- Every operand at every value: decoding the encoding of a well-formed instruction gives it back. -/
def Obligations.EncodedInstructionsDecodeBack : Prop :=
  ∀ i : Instr, i.wf = true → decode (encode i).1 (encode i).2 = .ok i

/-- R92: a word selects the row with `(w AND 0xF0000) = cmd << 16`, exactly one; the decoder gives that row's
instruction; the reserved codes do nothing but set `ILLCMD`. -/
def Obligations.EveryCommandWordSelectsExactlyOneRow : Prop :=
  (∀ w : CmdWord, ∃! c : BitVec 4, w &&& 0xF0000 = c.setWidth 20 <<< 16) ∧
  (∀ w : CmdWord, ∃ i, decode .cmd20 w.toNat = .ok i ∧ i.isCommand = true ∧
    encodeCmd i &&& 0xF0000 = w &&& 0xF0000) ∧
  (∀ (w : CmdWord) (s : State), 0xD0000 ≤ w.toNat → s.phase = .idle →
    exec (decodeCmd w) s = .next (s.setFlag .illcmd))

/-- R90: a word is its code and two operand bytes; operand fields that the command does not use are ignored. -/
def Obligations.UnusedOperandFieldsAreIgnored : Prop :=
  (∀ w : CmdWord, w = w.extractLsb' 16 4 ++ w.extractLsb' 8 8 ++ w.extractLsb' 0 8) ∧
  ∀ (cmd : BitVec 4) (a b a' b' : Byte),
    (cmd ∈ [0x2, 0x4, 0x5, 0x9, 0xA, 0xB] → a = a') → (cmd ∈ [0xA, 0xB] → b = b') →
      decodeCmd (cmd ++ a ++ b) = decodeCmd (cmd ++ a' ++ b')

/-- Words the spec prints (R91, V8, V14, V36, V37, V45), a command word of every code from `0x0` to `0xD` among them, and the instructions they stand for. -/
def Obligations.SpecExampleWordsDecode : Prop :=
  decode .cmd20 0x0ABCD = .ok .nop ∧ decode .cmd20 0x10000 = .ok .crcClr ∧
  decode .cmd20 0x217AB = .ok (.crcUpd 0x17) ∧ decode .cmd20 0x30000 = .ok .argClr ∧
  decode .cmd20 0x40300 = .ok (.argPush 0x03) ∧ decode .cmd20 0x50500 = .ok (.enc 0x05) ∧
  decode .cmd20 0x60000 = .ok .send ∧
  decode .cmd20 0x70000 = .ok .capt ∧ decode .cmd20 0x80000 = .ok .dec ∧
  decode .cmd20 0x98500 = .ok (.val 0x85) ∧ decode .cmd20 0xA1797 = .ok (.xact 0x17 0x97) ∧
  decode .cmd20 0xB03E8 = .ok (.tmoSet 0x03 0xE8) ∧ decode .cmd20 0xC0000 = .ok .flgClr ∧
  decode .cmd20 0xD1234 = .ok .reservedD ∧ decode .rxStream 0x02 = .ok .rxByteStx ∧
  decode .rxStream 0x03 = .ok .rxByteEtx ∧ decode .rxStream 0x41 = .ok (.rxByteOther 0x41) ∧
  decode .rxBody 0xFF = .ok .wireErrorAnswer ∧ decode .rxBody 0x85 = .ok (.wireAnswer 0x85) ∧
  decode .rxBody 0x97 = .ok .wireRtcReadAnswer ∧ decode .txBody 0x17 = .ok .wireRtcReadRequest

/-! ### A step runs the decoded instruction -/

/-- Where the next event is a command, the step is `exec` of the instruction its word decodes to, at the state with
that event taken and its draw at hand. -/
def Obligations.StepRunsThePendingCommand : Prop :=
  ∀ (s : State) (w : CmdWord) (d : TxDraw) (rest : List Event) (i : Instr),
    s.pending = .cmd w d :: rest → decode .cmd20 w.toNat = .ok i →
      step s = exec i { s with pending := rest, draw := d }

/-- Where the next event is the channel's offer of a byte: in `HUNT` and `ACC` the oldest queued byte is taken and the
step is `exec` of its class; in `IDLE`, or with nothing queued, nothing changes. -/
def Obligations.StepRunsTheOfferedByte : Prop :=
  (∀ (s : State) (rest : List Event) (b : Byte) (q : List Byte) (i : Instr),
    s.pending = .rxByte :: rest → s.phase ≠ .idle → s.rxq = b :: q → decode .rxStream b.toNat = .ok i →
      step s = exec i { s with pending := rest, rxq := q }) ∧
  (∀ (s : State) (rest : List Event), s.pending = .rxByte :: rest → s.phase = .idle ∨ s.rxq = [] →
    step s = .next { s with pending := rest })

/-- The other events, and the environment's free choice where none is pending (the model's log 3). -/
def Obligations.StepTakesTicksResetsAndFreeEvents : Prop :=
  (∀ (s : State) (rest : List Event), s.pending = .tick :: rest →
    step s = .next (onTick { s with pending := rest })) ∧
  (∀ (s : State) (rest : List Event), s.pending = .reset :: rest →
    step s = .next (onReset { s with pending := rest })) ∧
  (∀ (s : State) (rest : List Event) (b : Byte), s.pending = .arrive b :: rest →
    step s = .next { s with pending := rest, rxq := s.rxq ++ [b] }) ∧
  (∀ s : State, s.pending = [] →
    step s = step { s with pending := [Config.environment s.envIndex], envIndex := s.envIndex + 1 })

/-! ### The Checksum Engine -/

/-- R135. -/
def Obligations.CrcClrSetsTheInitialValue : Prop :=
  (∀ w : CmdWord, w.extractLsb' 16 4 = 0x1 → decodeCmd w = .crcClr) ∧
  (∀ s : State, s.phase = .idle → exec .crcClr s = .next { s with crc := 0xFFFF }) ∧
  (∀ s : State, s.phase ≠ .idle → exec .crcClr s = .next (s.setFlag .busyerr)) ∧
  (∀ s t : State, s.phase = .idle → exec .crcClr s = .next t → exec .crcClr t = .next t)

/-- R136, its last sentence as a run: `CRC.CLR`, `CRC.UPD s[0]`, ..., `CRC.UPD s[k-1]` leave `crc16(s)`. -/
def Obligations.CrcUpdAdvancesTheAccumulator : Prop :=
  (∀ w : CmdWord, w.extractLsb' 16 4 = 0x2 → decodeCmd w = .crcUpd (w.extractLsb' 8 8)) ∧
  (∀ (a : Byte) (s : State), s.phase = .idle → exec (.crcUpd a) s = .next { s with crc := crcStep s.crc a }) ∧
  (∀ (a : Byte) (s : State), s.phase ≠ .idle → exec (.crcUpd a) s = .next (s.setFlag .busyerr)) ∧
  crcStep 0xFFFF 0x00 = 0xE1F0 ∧ crcTab 0xE8 = 0x7C26 ∧ crcStep 0xFFFF 0x17 = 0x8326 ∧
  (∀ (bs : List Byte) (s : State), s.phase = .idle →
    handleAll (pseudoCrc16 bs) s = .next { s with crc := crc16 bs, draw := { txok := true, taken := 0 } })

/-- R131 in unbounded arithmetic, with one mask at the end (R133). -/
def Obligations.CrcStepIsTheMaskedTableStep : Prop :=
  ∀ (acc : Word) (b : Byte),
    (acc.toNat >>> 8) ^^^ b.toNat < 256 ∧
    (crcStep acc b).toNat =
      ((acc.toNat <<< 8) ^^^ (crcTab (BitVec.ofNat 8 ((acc.toNat >>> 8) ^^^ b.toNat))).toNat) &&& 0xFFFF

/-- R132: the fold, by its first value and its last step. -/
def Obligations.CrcOfASequenceIsTheFold : Prop :=
  crc16 [] = 0xFFFF ∧ ∀ (bs : List Byte) (b : Byte), crc16 (bs ++ [b]) = crcStep (crc16 bs) b

/-- The printed table is the generator's, and the table-driven step is eight turns of the bitwise one (R134, R138). The
polynomial and the table are PRESUMED by the spec itself, from general knowledge (the model's log 15). -/
def Obligations.CrcTableIsBitwiseDivision : Prop :=
  (∀ i : Byte, crcTab i = crcByteShift (i.setWidth 16 <<< 8)) ∧
  (∀ c : Word, crcBit c = if c.getLsbD 15 then (c <<< 1) ^^^ 0x1021 else c <<< 1) ∧
  crcTab 0x00 = 0x0000 ∧ crcTab 0x01 = 0x1021 ∧ crcTab 0x80 = 0x9188 ∧ crcTab 0xFF = 0x1EF0 ∧
  (∀ (acc : Word) (b : Byte), crcStep acc b = crcByteShift (acc ^^^ (b.setWidth 16 <<< 8))) ∧
  crc16 [0x31, 0x32, 0x33, 0x34, 0x35, 0x36, 0x37, 0x38, 0x39] = 0x29B1

/-- Sequences of equal length that differ in one byte have different checksums, by the step and the table (R131, R134).
R139 (d) is the case of one flipped bit. -/
def Obligations.OneChangedByteChangesTheCrc : Prop :=
  ∀ (p q : List Byte) (b b' : Byte), b ≠ b' → crc16 (p ++ b :: q) ≠ crc16 (p ++ b' :: q)

/-! ### The Frame Codec -/

/-- R100, R101, R102. -/
def Obligations.HexDigitsRoundTrip : Prop :=
  (∀ n : BitVec 4, n.toNat ≤ 9 → (digit n).toNat = 0x30 + n.toNat) ∧
  (∀ n : BitVec 4, 10 ≤ n.toNat → (digit n).toNat = 0x41 + (n.toNat - 10)) ∧
  (∀ b : Byte, hexU b = [digit (b.extractLsb' 4 4), digit (b.extractLsb' 0 4)]) ∧
  (∀ c : Byte, 0x30 ≤ c.toNat → c.toNat ≤ 0x39 → nib c = some (BitVec.ofNat 4 (c.toNat - 0x30))) ∧
  (∀ c : Byte, 0x41 ≤ c.toNat → c.toNat ≤ 0x46 → nib c = some (BitVec.ofNat 4 (c.toNat - 0x41 + 10))) ∧
  (∀ c : Byte, ¬ (0x30 ≤ c.toNat ∧ c.toNat ≤ 0x39) → ¬ (0x41 ≤ c.toNat ∧ c.toNat ≤ 0x46) → nib c = none) ∧
  (∀ (c1 c2 : Byte) (hi lo : BitVec 4), nib c1 = some hi → nib c2 = some lo → unhex c1 c2 = some (hi ++ lo)) ∧
  (∀ c1 c2 : Byte, nib c1 = none ∨ nib c2 = none → unhex c1 c2 = none) ∧
  (∀ b c1 c2 : Byte, hexU b = [c1, c2] → unhex c1 c2 = some b)

/-- R103: with `s[0..3]` the big-endian rendering the field is `s[2] s[3] s[0] s[1]`; reading it back gives the CRC,
and only that field reads as it. -/
def Obligations.CrcFieldSwapsItsBytes : Prop :=
  (∀ c : Word, crcField c = hexU (c.extractLsb' 0 8) ++ hexU (c.extractLsb' 8 8)) ∧
  (∀ c : Word, crcField c = [digit (c.extractLsb' 4 4), digit (c.extractLsb' 0 4), digit (c.extractLsb' 12 4),
    digit (c.extractLsb' 8 4)]) ∧
  crcField 0x8326 = [0x32, 0x36, 0x38, 0x33] ∧
  (∀ (f0 f1 f2 f3 hi lo : Byte), unhex f2 f3 = some hi → unhex f0 f1 = some lo →
    crcValue [f0, f1, f2, f3] = some (hi ++ lo)) ∧
  (∀ c : Word, crcValue (crcField c) = some c) ∧
  (∀ (f : List Byte) (c : Word), crcValue f = some c → f = crcField c)

/-- R96, R155: every byte of a built frame by its index. -/
def Obligations.EncodedFrameLayout : Prop :=
  (∀ n : BitVec 4, digit n ≠ 0x02 ∧ digit n ≠ 0x03) ∧
  ∀ (op : Byte) (args : List Byte),
    (encodeFrame op args).length = 2 * (op :: args).length + 6 ∧
    (encodeFrame op args)[0]? = some 0x02 ∧
    (∀ (i : Nat) (b : Byte), (op :: args)[i]? = some b → ((encodeFrame op args).drop (1 + 2 * i)).take 2 = hexU b) ∧
    ((encodeFrame op args).drop (2 * (op :: args).length + 1)).take 2 = hexU ((crc16 (op :: args)).extractLsb' 0 8) ∧
    ((encodeFrame op args).drop (2 * (op :: args).length + 3)).take 2 = hexU ((crc16 (op :: args)).extractLsb' 8 8) ∧
    (encodeFrame op args)[2 * (op :: args).length + 5]? = some 0x03 ∧
    (∀ k, 1 ≤ k → k < 2 * (op :: args).length + 5 → ∃ n : BitVec 4, (encodeFrame op args)[k]? = some (digit n))

/-- R212 (a): the round trip, and what becomes of the opcode `0xFF`. -/
def Obligations.EncodedFramesDecodeBack : Prop :=
  (∀ (op : Byte) (args : List Byte), op ≠ 0xFF → decodeFrame (encodeFrame op args) =
    { status := .loc .dataReceived, ansop := op, payload := args, malf := false }) ∧
  (∀ (lo hi : Byte) (rest : List Byte), decodeFrame (encodeFrame 0xFF (lo :: hi :: rest)) =
    { status := .terminal (hi ++ lo), ansop := 0xFF, payload := [], malf := false }) ∧
  (∀ args : List Byte, args.length < 2 → decodeFrame (encodeFrame 0xFF args) =
    { status := .loc .crcNotValid, ansop := 0x00, payload := [], malf := true })

/-- R212 (b): any of the eight bits of any of the four CRC characters flipped. -/
def Obligations.CrcFieldTamperingIsDetected : Prop :=
  ∀ (op : Byte) (args : List Byte) (k j : Nat), k < 4 → j < 8 →
    (decodeFrame ((encodeFrame op args).modify (2 * (op :: args).length + 1 + k) (fun c => c ^^^ (1#8 <<< j)))).status =
      .loc .crcNotValid

/-- R212 (c): all or nothing. -/
def Obligations.OnlyAnswersCarryPayload : Prop :=
  ∀ f : List Byte, (decodeFrame f).payload ≠ [] → (decodeFrame f).status = .loc .dataReceived

/-- R201: the seven steps in order, each for the sequences that reach it. Every sequence falls under exactly one
clause: it is not framed; or it is framed with an interior of odd length or with a character that is no digit; or it
is a body in hex with a CRC field. -/
def Obligations.DecodeTakesTheFirstOutcome : Prop :=
  (∀ f : List Byte, ¬ (6 ≤ f.length ∧ f.head? = some 0x02 ∧ f.getLast? = some 0x03) → decodeFrame f = malformed) ∧
  (∀ i : List Byte, 4 ≤ i.length → i.length % 2 = 1 ∨ (∃ c ∈ i, nib c = none) →
    decodeFrame ([0x02] ++ i ++ [0x03]) = malformed) ∧
  (∀ i : List Byte, 4 ≤ i.length → i.length % 2 = 0 → (∀ c ∈ i, nib c ≠ none) →
    ∃ body claimed, i = hexAll body ++ crcField claimed) ∧
  (∀ (body : List Byte) (claimed : Word), claimed ≠ crc16 body →
    decodeFrame ([0x02] ++ hexAll body ++ crcField claimed ++ [0x03]) =
      { status := .loc .crcNotValid, ansop := 0x00, payload := [], malf := false }) ∧
  (decodeFrame ([0x02] ++ crcField (crc16 []) ++ [0x03]) = malformed) ∧
  (∀ rest : List Byte, rest.length < 2 →
    decodeFrame ([0x02] ++ hexAll (0xFF :: rest) ++ crcField (crc16 (0xFF :: rest)) ++ [0x03]) = malformed) ∧
  (∀ (lo hi : Byte) (rest : List Byte),
    decodeFrame ([0x02] ++ hexAll (0xFF :: lo :: hi :: rest) ++ crcField (crc16 (0xFF :: lo :: hi :: rest)) ++ [0x03]) =
      { status := .terminal (lo.setWidth 16 ||| (hi.setWidth 16 <<< 8)), ansop := 0xFF, payload := [], malf := false }) ∧
  (∀ (op : Byte) (rest : List Byte), op ≠ 0xFF →
    decodeFrame ([0x02] ++ hexAll (op :: rest) ++ crcField (crc16 (op :: rest)) ++ [0x03]) =
      { status := .loc .dataReceived, ansop := op, payload := rest, malf := false }) ∧
  malformed = { status := .loc .crcNotValid, ansop := 0x00, payload := [], malf := true }

/-! ### The TX framer -/

/-- R152. -/
def Obligations.ArgClrEmptiesTheArguments : Prop :=
  (∀ w : CmdWord, w.extractLsb' 16 4 = 0x3 → decodeCmd w = .argClr) ∧
  (∀ s : State, s.phase = .idle → exec .argClr s = .next { s with arglen := 0 }) ∧
  (∀ s : State, s.phase ≠ .idle → exec .argClr s = .next (s.setFlag .busyerr)) ∧
  (∀ s t : State, s.phase = .idle → exec .argClr s = .next t → exec .argClr t = .next t)

/-- R153: with room the byte is appended and every other element reads as before; on a full buffer it is dropped. -/
def Obligations.ArgPushAppendsOrDrops : Prop :=
  (∀ w : CmdWord, w.extractLsb' 16 4 = 0x4 → decodeCmd w = .argPush (w.extractLsb' 8 8)) ∧
  (∀ (a : Byte) (s : State), s.phase = .idle → s.arglen = s.params.argMax →
    exec (.argPush a) s = .next (s.setFlag .argovf)) ∧
  (∀ (a : Byte) (s : State), s.phase = .idle → s.arglen < s.params.argMax →
    ∃ t, exec (.argPush a) s = .next t ∧
      t = { s with argbuf := s.argbuf.write s.arglen a, arglen := s.arglen + 1 } ∧
      t.elem .argbuf s.arglen = a ∧ (∀ i, i ≠ s.arglen → t.elem .argbuf i = s.elem .argbuf i) ∧
      t.args = s.args ++ [a]) ∧
  (∀ (a : Byte) (s : State), s.phase ≠ .idle → exec (.argPush a) s = .next (s.setFlag .busyerr))

/-- R156: `TXBUF` holds the frame of the opcode and the arguments; elements above it read as before; nothing else
changes and nothing is emitted. -/
def Obligations.EncBuildsTheFrame : Prop :=
  (∀ w : CmdWord, w.extractLsb' 16 4 = 0x5 → decodeCmd w = .enc (w.extractLsb' 8 8)) ∧
  (∀ (a : Byte) (s : State), s.phase = .idle → s.arglen ≤ s.params.argMax →
    ∃ t, exec (.enc a) s = .next t ∧
      t = { s with txbuf := s.txbuf.writeAll 0 (encodeFrame a s.args), txlen := (encodeFrame a s.args).length } ∧
      t.txlen = 2 * s.arglen + 8 ∧ t.txlen ≤ s.params.txMax ∧
      t.elems .txbuf 0 t.txlen = encodeFrame a s.args ∧
      (∀ i, t.txlen ≤ i → t.elem .txbuf i = s.elem .txbuf i)) ∧
  (∀ (a : Byte) (s : State), s.phase ≠ .idle → exec (.enc a) s = .next (s.setFlag .busyerr))

/-- R158, with what the wire then holds: the whole frame, or a prefix of it that the environment draws. -/
def Obligations.SendEmitsTheStoredFrame : Prop :=
  (∀ w : CmdWord, w.extractLsb' 16 4 = 0x6 → decodeCmd w = .send) ∧
  (∀ s : State, s.phase = .idle → s.txlen ≤ s.params.txMax →
    exec .send s = .next { s with
      sent := s.sent ++ [{ frame := s.elems .txbuf 0 s.txlen, draw := s.draw }],
      status := if s.draw.txok then .loc .dataSent else .loc .hwErr }) ∧
  (∀ s : State, s.phase ≠ .idle → exec .send s = .next (s.setFlag .busyerr)) ∧
  (∀ s : State, s.txlen = 0 → s.elems .txbuf 0 s.txlen = []) ∧
  (∀ e : Emission, e.onWire <+: e.frame ∧ (e.draw.txok = true → e.onWire = e.frame))

/-- R159: over every event. -/
def Obligations.OnlySendAndXactEmit : Prop :=
  ∀ (e : Event) (s t : State), handleEvent e s = .next t →
    t.sent = s.sent ∨
    ∃ w d, e = .cmd w d ∧ s.phase = .idle ∧ (decodeCmd w = .send ∨ ∃ a b, decodeCmd w = .xact a b) ∧
      t.sent = s.sent ++ [{ frame := t.elems .txbuf 0 t.txlen, draw := d }]

/-! ### The RX capture automaton -/

/-- R171. -/
def Obligations.TmoSetLoadsTimeout : Prop :=
  (∀ w : CmdWord, w.extractLsb' 16 4 = 0xB → decodeCmd w = .tmoSet (w.extractLsb' 8 8) (w.extractLsb' 0 8)) ∧
  (∀ (a b : Byte) (s : State), s.phase = .idle → exec (.tmoSet a b) s = .next { s with timeout := a ++ b }) ∧
  (∀ (a b : Byte) (s : State), s.phase ≠ .idle → exec (.tmoSet a b) s = .next (s.setFlag .busyerr))

/-- R172, R173, R174. -/
def Obligations.CaptArmsOrTimesOut : Prop :=
  (∀ w : CmdWord, w.extractLsb' 16 4 = 0x7 → decodeCmd w = .capt) ∧
  (∀ s : State, s.phase = .idle → s.timeout ≠ 0 → exec .capt s = .next { s with
    mode := .standalone, status := .loc .none, rxlen := 0, tmr := s.timeout, phase := .hunt }) ∧
  (∀ s : State, s.phase = .idle → s.timeout = 0 → exec .capt s = .next { s with
    mode := .standalone, status := .loc .timeout, rxlen := 0 }) ∧
  (∀ s : State, s.phase ≠ .idle → exec .capt s = .next (s.setFlag .busyerr))

/-- R177: in `HUNT` only `STX` does something. -/
def Obligations.HuntStartsOnStxOnly : Prop :=
  (∀ s : State, s.phase = .hunt → s.fits .rxbuf 1 = true →
    ∃ t, exec .rxByteStx s = .next t ∧
      t = { s with rxbuf := s.rxbuf.write 0 0x02, rxlen := 1, phase := .acc } ∧
      t.elem .rxbuf 0 = 0x02 ∧ ∀ i, i ≠ 0 → t.elem .rxbuf i = s.elem .rxbuf i) ∧
  (∀ s : State, s.phase = .hunt → exec .rxByteEtx s = .next s) ∧
  (∀ (b : Byte) (s : State), s.phase = .hunt → b ≠ 0x02 → b ≠ 0x03 → exec (.rxByteOther b) s = .next s)

/-- R178: whatever the byte is. -/
def Obligations.FullBufferDropsTheFrame : Prop :=
  ∀ (b : Byte) (s : State), s.phase = .acc → s.params.rxCap = some s.rxlen →
    exec (decodeRxByte b) s = .next { s with flags := s.flags ||| 0b00010, rxlen := 0, phase := .hunt }

/-- R179: every byte but `ETX` is stored as it is, a second `STX` included. -/
def Obligations.EveryOtherByteIsAccumulated : Prop :=
  ∀ (b : Byte) (s : State), b ≠ 0x03 → s.phase = .acc → s.room = true →
    ∃ t, exec (decodeRxByte b) s = .next t ∧
      t = { s with rxbuf := s.rxbuf.write s.rxlen b, rxlen := s.rxlen + 1 } ∧
      t.frame = s.frame ++ [b] ∧ ∀ i, i ≠ s.rxlen → t.elem .rxbuf i = s.elem .rxbuf i

/-- R180 with R181: the `ETX` is stored and the capture ends. A short frame is a `TIMEOUT` in either mode, a longer one of
a standalone capture reports `DATA_RECEIVED`, and one of a transaction is completed by R227. -/
def Obligations.EtxEndsTheCapture : Prop :=
  (∀ s : State, s.phase = .acc → s.room = true → s.rxlen + 1 < 6 →
    exec .rxByteEtx s = .next { s with
      rxbuf := s.rxbuf.write s.rxlen 0x03, rxlen := 0, phase := .idle, status := .loc .timeout }) ∧
  (∀ s : State, s.phase = .acc → s.room = true → 6 ≤ s.rxlen + 1 → s.mode = .standalone →
    ∃ t, exec .rxByteEtx s = .next t ∧
      t = { s with
        rxbuf := s.rxbuf.write s.rxlen 0x03, rxlen := s.rxlen + 1, phase := .idle, status := .loc .dataReceived } ∧
      t.frame = s.frame ++ [0x03] ∧ ∀ i, i ≠ s.rxlen → t.elem .rxbuf i = s.elem .rxbuf i) ∧
  (∀ s : State, s.phase = .acc → s.room = true → 6 ≤ s.rxlen + 1 → s.mode = .transaction →
    ∃ t, exec .rxByteEtx s = .next t ∧
      completeTransaction { s with
        rxbuf := s.rxbuf.write s.rxlen 0x03, rxlen := s.rxlen + 1, phase := .idle } = .ok t)

/-- R176: no step in `IDLE`, and the channel keeps its bytes. -/
def Obligations.ReceivedBytesWaitInIdle : Prop :=
  ∀ s : State, s.phase = .idle →
    exec .rxByteStx s = .fault .rxNotEnabled ∧ exec .rxByteEtx s = .fault .rxNotEnabled ∧
    (∀ b, exec (.rxByteOther b) s = .fault .rxNotEnabled) ∧ handleEvent .rxByte s = .next s

/-- R182, R183. -/
def Obligations.TickCountsDownToTheDeadline : Prop :=
  (∀ s : State, s.phase = .idle → handleEvent .tick s = .next s) ∧
  (∀ s : State, s.phase ≠ .idle → 2 ≤ s.tmr.toNat → handleEvent .tick s = .next { s with tmr := s.tmr - 1 }) ∧
  (∀ s : State, s.phase ≠ .idle → s.tmr.toNat = 1 → handleEvent .tick s = .next { s with
    tmr := 0, status := .loc .timeout, rxlen := 0, phase := .idle })

/-- R184: whatever bytes arrive and are taken between, an armed capture is over once as many ticks have passed as
`TMR` counted; where no `ETX` is taken in `ACC` it ends in `TIMEOUT`, and on no earlier tick. -/
def Obligations.ArmedCaptureEndsByItsDeadline : Prop :=
  ∀ (s : State) (es : List Event), s.Inv → s.phase ≠ .idle →
    (∀ e ∈ es, e = .tick ∨ e = .rxByte ∨ ∃ b, e = .arrive b) →
    ∃ t, handleAll es s = .next t ∧
      (s.tmr.toNat ≤ es.count .tick → t.phase = .idle) ∧
      ((∀ before later u, es = before ++ .rxByte :: later → handleAll before s = .next u → u.phase = .acc →
          u.rxq.head? ≠ some 0x03) →
        (s.tmr.toNat ≤ es.count .tick → t.status = .loc .timeout ∧ t.rxlen = 0 ∧ t.tmr = 0) ∧
        (es.count .tick < s.tmr.toNat → t.phase ≠ .idle ∧ t.status = .loc .none ∧
          t.tmr.toNat = s.tmr.toNat - es.count .tick))

/-- R185: bytes before the first `STX` are discarded, the frame runs from it through the first `ETX`, and what follows
stays in the channel. -/
def Obligations.CaptureReturnsTheFirstFrame : Prop :=
  ∀ (s : State) (noise mid rest : List Byte), s.phase = .hunt → s.mode = .standalone →
    0x02 ∉ noise → 0x03 ∉ mid → 4 ≤ mid.length → s.fits .rxbuf (mid.length + 2) = true →
    ∃ t, handleAll (List.replicate (noise.length + mid.length + 2) .rxByte)
        { s with rxq := noise ++ ([0x02] ++ mid ++ [0x03]) ++ rest } = .next t ∧
      t.phase = .idle ∧ t.status = .loc .dataReceived ∧ t.frame = [0x02] ++ mid ++ [0x03] ∧
      t.rxq = rest ∧ t.tmr = s.tmr ∧ t.flags = s.flags ∧ t.ansop = s.ansop ∧ t.plen = s.plen

/-! ### The deframer -/

/-- R200: the result registers receive what `decode` says of the frame in `RXBUF`. -/
def Obligations.DecWritesTheDecodedFrame : Prop :=
  (∀ w : CmdWord, w.extractLsb' 16 4 = 0x8 → decodeCmd w = .dec) ∧
  (∀ s : State, s.phase = .idle → s.fits .rxbuf s.rxlen = true →
    ∃ t, exec .dec s = .next t ∧
      t = { s with
        status := (decodeFrame s.frame).status, ansop := (decodeFrame s.frame).ansop,
        payload := s.payload.writeAll 0 (decodeFrame s.frame).payload, plen := (decodeFrame s.frame).payload.length,
        flags := if (decodeFrame s.frame).malf then s.flags ||| 0b00001 else s.flags } ∧
      t.result = (decodeFrame s.frame).payload ∧
      (∀ i, t.plen ≤ i → t.elem .payload i = s.elem .payload i) ∧
      (∃ u, exec .dec t = .next u ∧ u.status = t.status ∧ u.ansop = t.ansop ∧ u.plen = t.plen ∧
        u.result = t.result ∧ u.flags = t.flags)) ∧
  (∀ s : State, s.phase ≠ .idle → exec .dec s = .next (s.setFlag .busyerr))

/-- R106: `DEC` does what the row says that the frame's first body byte selects (the model's log 8: a row's effect is
`DEC`'s for the frames that select it). -/
def Obligations.DecRunsTheRowOfTheFirstBodyByte : Prop :=
  ∀ (s : State) (b : Byte) (args : List Byte) (i : Instr), s.phase = .idle → s.fits .rxbuf s.rxlen = true →
    s.frame = encodeFrame b args → decode .rxBody b.toNat = .ok i → exec .dec s = exec i s

/-- R208: an error frame in `RXBUF`; the code is little-endian, later bytes are ignored, a code not all there is
malformed. -/
def Obligations.ErrorAnswerReportsTheTerminalCode : Prop :=
  (∀ (s : State) (lo hi : Byte) (rest : List Byte), s.fits .rxbuf s.rxlen = true →
    s.frame = encodeFrame 0xFF (lo :: hi :: rest) →
    exec .wireErrorAnswer s = .next { s with status := .terminal (hi ++ lo), ansop := 0xFF, plen := 0 }) ∧
  (∀ (s : State) (args : List Byte), s.fits .rxbuf s.rxlen = true → args.length < 2 →
    s.frame = encodeFrame 0xFF args →
    exec .wireErrorAnswer s = .next { s with
      status := .loc .crcNotValid, ansop := 0x00, plen := 0, flags := s.flags ||| 0b00001 })

/-- R209: an answer frame in `RXBUF`, of any opcode but `0xFF`; and the RTC answer as one such. -/
def Obligations.AnswersDeliverOpcodeAndPayload : Prop :=
  (∀ (s : State) (op : Byte) (args : List Byte), op ≠ 0xFF → s.fits .rxbuf s.rxlen = true →
    s.frame = encodeFrame op args →
    ∃ t, exec (.wireAnswer op) s = .next t ∧
      t = { s with
        status := .loc .dataReceived, ansop := op, payload := s.payload.writeAll 0 args, plen := args.length } ∧
      t.result = args ∧ (∀ i, args.length ≤ i → t.elem .payload i = s.elem .payload i)) ∧
  (∀ (s : State) (args : List Byte), s.fits .rxbuf s.rxlen = true → s.frame = encodeFrame 0x97 args →
    exec .wireRtcReadAnswer s = .next { s with
      status := .loc .dataReceived, ansop := 0x97, payload := s.payload.writeAll 0 args, plen := args.length })

/-- R155, R156, R257: the RTC read request is the frame `02 31 37 32 36 38 33 03`, as `ENC 0x17` builds it with no
arguments (the model's log 9: the row is the framer's effect for that body). -/
def Obligations.RtcReadRequestIsBuilt : Prop :=
  (∀ s : State, ∃ t, exec .wireRtcReadRequest s = .next t ∧
    t = { s with txbuf := s.txbuf.writeAll 0 [0x02, 0x31, 0x37, 0x32, 0x36, 0x38, 0x33, 0x03], txlen := 8 } ∧
    t.elems .txbuf 0 t.txlen = [0x02, 0x31, 0x37, 0x32, 0x36, 0x38, 0x33, 0x03] ∧
    (∀ i, 8 ≤ i → t.elem .txbuf i = s.elem .txbuf i)) ∧
  (∀ s : State, s.phase = .idle → s.arglen = 0 → exec (.enc 0x17) s = exec .wireRtcReadRequest s)

/-- R250, R257, R261: the RTC entry used from an idle block, its answer arriving while the host waits, gives the time its
payload stands for. The check of an echoed correlation ID (R256) reads it at payload bytes 0 and 1, which is decision
D31, the model's log 14. -/
def Obligations.CatalogReadsTimeAndChecksEcho : Prop :=
  rtcRead.request = 0x17 ∧ rtcRead.encodeArgs () = .ok [] ∧ rtcRead.answer = 0x97 ∧
  (∀ b0 b1 b2 b3 : Byte, rtcRead.decodeResult [b0, b1, b2, b3] = some ((b3 ++ b2 ++ b1 ++ b0).toNat + 1514764800)) ∧
  (∀ (short : Status) (id : Word) (lo hi : Byte) (rest : List Byte), hi ++ lo = id →
    enqueueStatus short id (.loc .success) (lo :: hi :: rest) = .loc .success) ∧
  (∀ (short : Status) (id : Word) (lo hi : Byte) (rest : List Byte), hi ++ lo ≠ id →
    enqueueStatus short id (.loc .success) (lo :: hi :: rest) = .loc .payloadIdCheckFailed) ∧
  (∀ (s : State) (short : Status) (b0 b1 b2 b3 : Byte), s.phase = .idle → s.timeout ≠ 0 → s.rxq = [] →
    s.fits .rxbuf 16 = true →
    ∃ t, rtcRead.run short () (pseudoRxs (encodeFrame 0x97 [b0, b1, b2, b3])) s =
        some (t, .ok ((b3 ++ b2 ++ b1 ++ b0).toNat + 1514764800)) ∧
      t.sent.map (·.frame) = s.sent.map (·.frame) ++ [encodeFrame 0x17 []])

/-! ### The validator and the transaction engine -/

/-- R221, R222. Where the status is no `DATA_RECEIVED` only `EXP` changes: after a mismatch `PLEN` is 0 already, an
invariant of its own (`State.Inv.mismatch_clear`). That `VAL` after a mismatch writes `PLEN` 0 whatever it was is the
model's reading of R222's pseudocode (log 20), and only unreachable states show it. -/
def Obligations.ValPromotesOnlyAMatch : Prop :=
  (∀ w : CmdWord, w.extractLsb' 16 4 = 0x9 → decodeCmd w = .val (w.extractLsb' 8 8)) ∧
  (∀ op : Byte, validate (.loc .dataReceived) op op = .loc .success) ∧
  (∀ op e : Byte, op ≠ e → validate (.loc .dataReceived) op e = .loc .opcodeMismatch) ∧
  (∀ (st : Status) (op e : Byte), st ≠ .loc .dataReceived → validate st op e = st) ∧
  (∀ (a : Byte) (s : State), s.phase = .idle → s.status = .loc .dataReceived → s.ansop = a →
    exec (.val a) s = .next { s with exp := a, status := .loc .success }) ∧
  (∀ (a : Byte) (s : State), s.phase = .idle → s.status = .loc .dataReceived → s.ansop ≠ a →
    exec (.val a) s = .next { s with exp := a, status := .loc .opcodeMismatch, plen := 0 }) ∧
  (∀ (a : Byte) (s : State), s.phase = .idle → s.status ≠ .loc .dataReceived →
    (s.status = .loc .opcodeMismatch → s.plen = 0) → exec (.val a) s = .next { s with exp := a }) ∧
  (∀ (a : Byte) (s : State), s.phase = .idle → s.status = .loc .opcodeMismatch →
    exec (.val a) s = .next { s with exp := a, plen := 0 }) ∧
  (∀ (a : Byte) (s : State), s.phase ≠ .idle → exec (.val a) s = .next (s.setFlag .busyerr))

/-- R226: the three ways the command's own event ends. -/
def Obligations.XactSendsThenArms : Prop :=
  (∀ w : CmdWord, w.extractLsb' 16 4 = 0xA → decodeCmd w = .xact (w.extractLsb' 8 8) (w.extractLsb' 0 8)) ∧
  (∀ (a b : Byte) (s : State), s.phase = .idle → s.arglen ≤ s.params.argMax →
    ∃ t, exec (.xact a b) s = .next t ∧
      t.elems .txbuf 0 t.txlen = encodeFrame a s.args ∧ t.txlen = 2 * s.arglen + 8 ∧
      (∀ i, t.txlen ≤ i → t.elem .txbuf i = s.elem .txbuf i) ∧
      (s.draw.txok = false → t = { s with
        ansop := 0x00, plen := 0, exp := b, txbuf := s.txbuf.writeAll 0 (encodeFrame a s.args), txlen := t.txlen,
        sent := s.sent ++ [{ frame := encodeFrame a s.args, draw := s.draw }], status := .loc .hwErr }) ∧
      (s.draw.txok = true → s.timeout = 0 → t = { s with
        ansop := 0x00, plen := 0, exp := b, txbuf := s.txbuf.writeAll 0 (encodeFrame a s.args), txlen := t.txlen,
        sent := s.sent ++ [{ frame := encodeFrame a s.args, draw := s.draw }], status := .loc .timeout,
        mode := .transaction, rxlen := 0 }) ∧
      (s.draw.txok = true → s.timeout ≠ 0 → t = { s with
        ansop := 0x00, plen := 0, exp := b, txbuf := s.txbuf.writeAll 0 (encodeFrame a s.args), txlen := t.txlen,
        sent := s.sent ++ [{ frame := encodeFrame a s.args, draw := s.draw }], status := .loc .none,
        mode := .transaction, rxlen := 0, tmr := s.timeout, phase := .hunt })) ∧
  (∀ (a b : Byte) (s : State), s.phase ≠ .idle → exec (.xact a b) s = .next (s.setFlag .busyerr))

/-- R227: the `ETX` of a frame of at least six bytes in a transaction: decoded and validated at once, the payload
attached only on `SUCCESS`. -/
def Obligations.EtxCompletesTheTransaction : Prop :=
  ∀ (s : State) (r : Decoded) (v : Status), s.phase = .acc → s.room = true → 6 ≤ s.rxlen + 1 → s.mode = .transaction →
    r = decodeFrame (s.frame ++ [0x03]) → v = validate r.status r.ansop s.exp →
    ∃ t, exec .rxByteEtx s = .next t ∧
      t = { s with
        rxbuf := s.rxbuf.write s.rxlen 0x03, rxlen := s.rxlen + 1, phase := .idle, status := v, ansop := r.ansop,
        flags := if r.malf then s.flags ||| 0b00001 else s.flags,
        payload := if v = .loc .success then s.payload.writeAll 0 r.payload else s.payload,
        plen := if v = .loc .success then r.payload.length else 0 } ∧
      t.frame = s.frame ++ [0x03] ∧ (v = .loc .success → t.result = r.payload) ∧
      (∀ i, i ≠ s.rxlen → t.elem .rxbuf i = s.elem .rxbuf i) ∧
      (∀ i, t.plen ≤ i → t.elem .payload i = s.elem .payload i) ∧
      (v = .loc .success ∨ v = .loc .opcodeMismatch ∨ v = .loc .crcNotValid ∨ ∃ code, v = .terminal code)

/-- R224: a transaction that expects `0xFF` never ends in `SUCCESS`, whatever frame it captures. -/
def Obligations.ExpectedErrorOpcodeNeverSucceeds : Prop :=
  (∀ f : List Byte, (decodeFrame f).status = .loc .dataReceived → (decodeFrame f).ansop ≠ 0xFF) ∧
  ∀ s t : State, s.phase = .acc → s.mode = .transaction → s.exp = 0xFF → s.status = .loc .none →
    exec .rxByteEtx s = .next t → t.status ≠ .loc .success

/-- R235: over every event, `SUCCESS` is written only by `VAL` where `STATUS` is `DATA_RECEIVED` and `ANSOP` is the
expected opcode, and by the `ETX` of a transaction's frame that passed every check of `decode` and whose opcode equals
`EXP`. The first case asks for no `DEC`: a standalone `CAPT` leaves `DATA_RECEIVED` too, and `ANSOP` is then of an older
decode or still the reset's (R333), so the host has to issue `DEC` first. -/
def Obligations.SuccessNeedsAMatchingAnswer : Prop :=
  ∀ (e : Event) (s t : State), handleEvent e s = .next t → t.status = .loc .success → s.status ≠ .loc .success →
    (∃ w d a, e = .cmd w d ∧ decodeCmd w = .val a ∧ s.phase = .idle ∧ s.status = .loc .dataReceived ∧ s.ansop = a) ∨
    (e = .rxByte ∧ s.phase = .acc ∧ s.mode = .transaction ∧ s.rxq.head? = some 0x03 ∧
      decodeFrame t.frame =
        { status := .loc .dataReceived, ansop := s.exp, payload := t.result, malf := false } ∧
      t.ansop = s.exp)

/-- R236, the start: `XACT a, b` against `ENC a`; `SEND`; `CAPT` with the same successful draw. -/
def Obligations.XactStartIsEncSendCapt : Prop :=
  ∀ (a b : Byte) (s : State), s.phase = .idle → s.arglen ≤ s.params.argMax → s.draw.txok = true → s.timeout ≠ 0 →
    ∃ x p q r, exec (.xact a b) s = .next x ∧
      exec (.enc a) s = .next p ∧ exec .send p = .next q ∧ q.status = .loc .dataSent ∧ exec .capt q = .next r ∧
      x = { r with mode := .transaction, ansop := 0x00, plen := 0, exp := b }

/-- R236, the endings: a transaction against the command sequence with a standalone capture and the transaction's
expected opcode, at each of its ends. By an `ETX` as at least the sixth byte (then `DEC`, `VAL`), by a short frame, by
the deadline, with `TIMEOUT = 0`, by a failed send (then `VAL`, which changes only `EXP`). What R236 names as different
is the zeros that `XACT` writes to `ANSOP` and `PLEN` at its start. Until the end both modes act alike. -/
def Obligations.TransactionEndIsCaptureDecVal : Prop :=
  (∀ s : State, s.phase = .acc → s.room = true → 6 ≤ s.rxlen + 1 → s.mode = .transaction →
    ∃ x u v w, exec .rxByteEtx s = .next x ∧
      exec .rxByteEtx { s with mode := .standalone } = .next u ∧ u.status = .loc .dataReceived ∧
      exec .dec u = .next v ∧ exec (.val s.exp) v = .next w ∧
      x.status = w.status ∧ x.ansop = w.ansop ∧ x.plen = w.plen ∧ x.result = w.result ∧ x.exp = w.exp ∧
      x.txbuf = w.txbuf ∧ x.txlen = w.txlen ∧ x.rxbuf = w.rxbuf ∧ x.rxlen = w.rxlen ∧ x.flags = w.flags ∧
      x.phase = w.phase ∧ x.tmr = w.tmr ∧ x.sent = w.sent) ∧
  (∀ s : State, s.phase = .acc → s.room = true → s.rxlen + 1 < 6 → s.mode = .transaction →
    ∃ x u w, exec .rxByteEtx s = .next x ∧
      exec .rxByteEtx { s with mode := .standalone } = .next u ∧ u.status = .loc .timeout ∧
      exec (.val s.exp) u = .next w ∧ x = { w with mode := .transaction }) ∧
  (∀ s : State, s.phase ≠ .idle → s.tmr = 1 → s.mode = .transaction →
    ∃ x u w, handleEvent .tick s = .next x ∧
      handleEvent .tick { s with mode := .standalone } = .next u ∧ u.status = .loc .timeout ∧
      exec (.val s.exp) u = .next w ∧ x = { w with mode := .transaction }) ∧
  (∀ (a b : Byte) (s : State), s.phase = .idle → s.arglen ≤ s.params.argMax → s.draw.txok = true → s.timeout = 0 →
    ∃ x p q u w, exec (.xact a b) s = .next x ∧
      exec (.enc a) s = .next p ∧ exec .send p = .next q ∧ q.status = .loc .dataSent ∧
      exec .capt q = .next u ∧ u.status = .loc .timeout ∧ exec (.val b) u = .next w ∧
      x = { w with mode := .transaction, ansop := 0x00, plen := 0 }) ∧
  (∀ (a b : Byte) (s : State), s.phase = .idle → s.arglen ≤ s.params.argMax → s.draw.txok = false →
    ∃ x p q w, exec (.xact a b) s = .next x ∧
      exec (.enc a) s = .next p ∧ exec .send p = .next q ∧ q.status = .loc .hwErr ∧ exec (.val b) q = .next w ∧
      x = { w with ansop := 0x00, plen := 0 }) ∧
  (∀ (e : Event) (s t : State) (m : Mode) (op x : Byte) (n : Nat), e = .tick ∨ e = .rxByte ∨ (∃ b, e = .arrive b) →
    s.phase ≠ .idle → handleEvent e s = .next t → t.phase ≠ .idle →
      handleEvent e { s with mode := m, ansop := op, plen := n, exp := x } =
        .next { t with mode := m, ansop := op, plen := n, exp := x })

/-- R225 end to end: a request is sent, the channel delivers noise and then the frame of the expected answer, and the
transaction ends in `SUCCESS` with that answer's payload; what follows the frame stays in the channel. -/
def Obligations.TransactionDeliversThePayload : Prop :=
  ∀ (s : State) (taken : Nat) (q e : Byte) (payload noise rest : List Byte),
    s.phase = .idle → s.timeout ≠ 0 → s.arglen ≤ s.params.argMax → e ≠ 0xFF → 0x02 ∉ noise →
    s.fits .rxbuf (encodeFrame e payload).length = true →
    ∃ t, handleAll (.cmd (encodeCmd (.xact q e)) { txok := true, taken := taken } ::
          List.replicate (noise.length + (encodeFrame e payload).length) .rxByte)
        { s with rxq := noise ++ encodeFrame e payload ++ rest } = .next t ∧
      t.phase = .idle ∧ t.status = .loc .success ∧ t.ansop = e ∧ t.exp = e ∧ t.plen = payload.length ∧
      t.result = payload ∧ t.rxq = rest ∧ t.tmr = s.timeout ∧ t.flags = s.flags ∧ t.crc = s.crc ∧
      t.args = s.args ∧
      t.sent = s.sent ++ [{ frame := encodeFrame q s.args, draw := { txok := true, taken := taken } }]

/-! ### Housekeeping, reserved codes, commands while busy -/

/-- R230, R231, R233. -/
def Obligations.HousekeepingCommands : Prop :=
  (∀ w : CmdWord, w.extractLsb' 16 4 = 0x0 → decodeCmd w = .nop) ∧
  (∀ w : CmdWord, w.extractLsb' 16 4 = 0xC → decodeCmd w = .flgClr) ∧
  (∀ s : State, s.phase = .idle → exec .nop s = .next s) ∧
  (∀ s : State, s.phase ≠ .idle → exec .nop s = .next (s.setFlag .busyerr)) ∧
  (∀ s : State, s.phase = .idle → exec .flgClr s = .next { s with flags := 0 }) ∧
  (∀ s : State, s.phase ≠ .idle → exec .flgClr s = .next (s.setFlag .busyerr)) ∧
  (∀ s : State, s.phase = .idle →
    exec .reservedD s = .next { s with flags := s.flags ||| 0b10000 } ∧
    exec .reservedE s = .next { s with flags := s.flags ||| 0b10000 } ∧
    exec .reservedF s = .next { s with flags := s.flags ||| 0b10000 })

/-- R232: whatever the command, the reserved codes included. -/
def Obligations.BusyCommandsOnlySetBusyerr : Prop :=
  ∀ (i : Instr) (s : State), i.isCommand = true → s.phase ≠ .idle →
    exec i s = .next { s with flags := s.flags ||| 0b01000 }

/-! ### The machine as a whole -/

/-- R46: every step keeps the invariants, from every state that has them. -/
def Obligations.StepKeepsTheInvariants : Prop :=
  ∀ s t : State, s.Inv → step s = .next t → t.Inv

/-- R322, for the state after reset and for the `Reset` event in any state whose parameters are legal. -/
def Obligations.ResetStateMeetsTheInvariants : Prop :=
  State.reset.Inv ∧ (∀ p : Params, p.ok = true → (State.resetWith p).Inv) ∧
  (∀ s : State, s.params.ok = true → (onReset s).Inv)

/-- R280: no event puts the block in a state from which it does not go on. -/
def Obligations.StepAlwaysGoesOn : Prop :=
  ∀ s : State, s.Inv → ∃ t, step s = .next t

/-- R320, R321: every register at its reset value, no emission, the channel's queue as it was. -/
def Obligations.ResetEventRestoresEveryRegister : Prop :=
  ∀ s : State, ∃ t, handleEvent .reset s = .next t ∧
    t.crc = 0xFFFF ∧ t.arglen = 0 ∧ t.txlen = 0 ∧ t.rxlen = 0 ∧ t.plen = 0 ∧ t.tmr = 0 ∧
    t.timeout = s.params.defaultTimeout ∧ t.exp = 0x00 ∧ t.ansop = 0x00 ∧ t.phase = .idle ∧ t.busy = false ∧
    t.mode = .standalone ∧ t.status = .loc .none ∧ t.flags = 0 ∧ t.rxq = s.rxq ∧ t.sent = s.sent ∧
    t.params = s.params

/-- R234: the transition table of `PHASE`, row by row, with the statuses and flags it names; a pair that is not listed
leaves `PHASE` as it is (a byte that only joins the channel's queue, an offer with nothing queued). -/
def Obligations.PhaseFollowsTheTransitionTable : Prop :=
  ∀ (e : Event) (s t : State), s.Inv → handleEvent e s = .next t →
    (s.phase = .idle →
      (∀ w d, e = .cmd w d → decodeCmd w = .capt →
        (s.timeout ≠ 0 → t.phase = .hunt) ∧ (s.timeout = 0 → t.phase = .idle ∧ t.status = .loc .timeout)) ∧
      (∀ w d a b, e = .cmd w d → decodeCmd w = .xact a b →
        (d.txok = true → s.timeout ≠ 0 → t.phase = .hunt) ∧
        (d.txok = true → s.timeout = 0 → t.phase = .idle ∧ t.status = .loc .timeout) ∧
        (d.txok = false → t.phase = .idle ∧ t.status = .loc .hwErr)) ∧
      (∀ w d, e = .cmd w d → decodeCmd w ≠ .capt → (∀ a b, decodeCmd w ≠ .xact a b) → t.phase = .idle) ∧
      (e = .tick ∨ e = .rxByte → t = s)) ∧
    (s.phase = .hunt → ∀ b q, e = .rxByte → s.rxq = b :: q → t.phase = if b = 0x02 then .acc else .hunt) ∧
    (s.phase = .acc → ∀ b q, e = .rxByte → s.rxq = b :: q →
      (s.params.rxCap = some s.rxlen → t.phase = .hunt ∧ t.flag .rxovf = true) ∧
      (s.params.rxCap ≠ some s.rxlen → t.phase = if b = 0x03 then .idle else .acc)) ∧
    (s.phase ≠ .idle → e = .tick →
      (s.tmr = 1 → t.phase = .idle ∧ t.status = .loc .timeout) ∧ (s.tmr ≠ 1 → t.phase = s.phase)) ∧
    (s.phase ≠ .idle → ∀ w d, e = .cmd w d → t.phase = s.phase ∧ t.flag .busyerr = true) ∧
    (e = .reset → t.phase = .idle) ∧
    (∀ b, e = .arrive b → t.phase = s.phase) ∧
    (e = .rxByte → s.rxq = [] → t = s)

/-- R36: a set flag is cleared by `FLG.CLR` and `Reset` and by nothing else; a clear flag is set by the event its row
names and by nothing else. -/
def Obligations.FlagsAreStickyAndHaveTheirCauses : Prop :=
  ∀ (e : Event) (s t : State), handleEvent e s = .next t →
    (∀ f, s.flag f = true → (t.flag f = false ↔
      e = .reset ∨ ∃ w d, e = .cmd w d ∧ decodeCmd w = .flgClr ∧ s.phase = .idle)) ∧
    (s.flag .malf = false → (t.flag .malf = true ↔
      (∃ w d, e = .cmd w d ∧ decodeCmd w = .dec ∧ s.phase = .idle ∧ (decodeFrame s.frame).malf = true) ∨
      (e = .rxByte ∧ s.phase = .acc ∧ s.mode = .transaction ∧ s.rxq.head? = some 0x03 ∧ s.room = true ∧
        6 ≤ s.rxlen + 1 ∧ (decodeFrame (s.frame ++ [0x03])).malf = true))) ∧
    (s.flag .rxovf = false → (t.flag .rxovf = true ↔
      e = .rxByte ∧ s.phase = .acc ∧ s.rxq ≠ [] ∧ s.params.rxCap = some s.rxlen)) ∧
    (s.flag .argovf = false → (t.flag .argovf = true ↔
      ∃ w d a, e = .cmd w d ∧ decodeCmd w = .argPush a ∧ s.phase = .idle ∧ s.arglen = s.params.argMax)) ∧
    (s.flag .busyerr = false → (t.flag .busyerr = true ↔ (∃ w d, e = .cmd w d) ∧ s.phase ≠ .idle)) ∧
    (s.flag .illcmd = false → (t.flag .illcmd = true ↔
      ∃ w d, e = .cmd w d ∧ 0xD0000 ≤ w.toNat ∧ s.phase = .idle))

/-- R36, its second sentence: no rule reads a flag. Whatever the flags are, an event leaves everything else as it would
with other flags. -/
def Obligations.FlagsChangeNoBehaviour : Prop :=
  ∀ (e : Event) (s t : State) (x : BitVec 5), handleEvent e s = .next t →
    ∃ y, handleEvent e { s with flags := x } = .next { t with flags := y }

/-- The column 'written by' of the table of registers (`10_state.md` section 1), every row of it, over every event but
`Reset`. -/
def Obligations.RegistersChangeOnlyByTheirWriters : Prop :=
  ∀ (e : Event) (s t : State), e ≠ .reset → handleEvent e s = .next t →
    (t.crc ≠ s.crc → ∃ w d, e = .cmd w d ∧ (decodeCmd w = .crcClr ∨ ∃ a, decodeCmd w = .crcUpd a)) ∧
    (t.argbuf ≠ s.argbuf → ∃ w d a, e = .cmd w d ∧ decodeCmd w = .argPush a) ∧
    (t.arglen ≠ s.arglen → ∃ w d, e = .cmd w d ∧ (decodeCmd w = .argClr ∨ ∃ a, decodeCmd w = .argPush a)) ∧
    (t.txbuf ≠ s.txbuf ∨ t.txlen ≠ s.txlen →
      ∃ w d a, e = .cmd w d ∧ (decodeCmd w = .enc a ∨ ∃ b, decodeCmd w = .xact a b)) ∧
    (t.rxbuf ≠ s.rxbuf → e = .rxByte) ∧
    (t.rxlen ≠ s.rxlen → e = .rxByte ∨ e = .tick ∨
      ∃ w d, e = .cmd w d ∧ (decodeCmd w = .capt ∨ ∃ a b, decodeCmd w = .xact a b)) ∧
    (t.tmr ≠ s.tmr → e = .tick ∨ ∃ w d, e = .cmd w d ∧ (decodeCmd w = .capt ∨ ∃ a b, decodeCmd w = .xact a b)) ∧
    (t.timeout ≠ s.timeout → ∃ w d a b, e = .cmd w d ∧ decodeCmd w = .tmoSet a b) ∧
    (t.exp ≠ s.exp → ∃ w d a, e = .cmd w d ∧ (decodeCmd w = .val a ∨ ∃ b, decodeCmd w = .xact b a)) ∧
    (t.ansop ≠ s.ansop → e = .rxByte ∨
      ∃ w d, e = .cmd w d ∧ (decodeCmd w = .dec ∨ ∃ a b, decodeCmd w = .xact a b)) ∧
    (t.payload ≠ s.payload → e = .rxByte ∨ ∃ w d, e = .cmd w d ∧ decodeCmd w = .dec) ∧
    (t.plen ≠ s.plen → e = .rxByte ∨
      ∃ w d, e = .cmd w d ∧ (decodeCmd w = .dec ∨ (∃ a, decodeCmd w = .val a) ∨ ∃ a b, decodeCmd w = .xact a b)) ∧
    (t.phase ≠ s.phase → e = .rxByte ∨ e = .tick ∨
      ∃ w d, e = .cmd w d ∧ (decodeCmd w = .capt ∨ ∃ a b, decodeCmd w = .xact a b)) ∧
    (t.mode ≠ s.mode → ∃ w d, e = .cmd w d ∧ (decodeCmd w = .capt ∨ ∃ a b, decodeCmd w = .xact a b)) ∧
    (t.status ≠ s.status → e = .rxByte ∨ e = .tick ∨
      ∃ w d, e = .cmd w d ∧ (decodeCmd w = .send ∨ decodeCmd w = .capt ∨ decodeCmd w = .dec ∨
        (∃ a, decodeCmd w = .val a) ∨ ∃ a b, decodeCmd w = .xact a b)) ∧
    (t.flags ≠ s.flags → e = .rxByte ∨
      ∃ w d, e = .cmd w d ∧ (s.phase ≠ .idle ∨ decodeCmd w = .flgClr ∨ decodeCmd w = .dec ∨
        (∃ a, decodeCmd w = .argPush a) ∨ 0xD0000 ≤ w.toNat)) ∧
    t.params = s.params

/-- The model's own stop (log 12): a length beyond the buffer's capacity, which R46 rules out in every reachable
state, asks for an element that does not exist. -/
def Obligations.LengthsBeyondCapacityStop : Prop :=
  (∀ (a : Byte) (s : State), s.phase = .idle → s.params.argMax < s.arglen →
    exec (.argPush a) s = .fault (.noSuchElement .argbuf) ∧ exec (.enc a) s = .fault (.noSuchElement .argbuf) ∧
    ∀ b, exec (.xact a b) s = .fault (.noSuchElement .argbuf)) ∧
  (∀ s : State, s.phase = .idle → s.params.txMax < s.txlen → exec .send s = .fault (.noSuchElement .txbuf)) ∧
  (∀ s : State, s.phase = .idle → s.fits .rxbuf s.rxlen = false → exec .dec s = .fault (.noSuchElement .rxbuf)) ∧
  (∀ (b : Byte) (s : State), s.phase = .acc → s.fits .rxbuf s.rxlen = false →
    exec (decodeRxByte b) s = .fault (.noSuchElement .rxbuf))
end

