-- ==== Sys2Proof/Laws/Codec.lean ====
section
/-! SUPPORT. Lengths of what the codec builds and reads, and the inversion of `openFrame`. -/

namespace Sys2Proof.Machine

@[simp] theorem hexU_length (b : Byte) : (hexU b).length = 2 := rfl

@[simp] theorem hexAll_length (bs : List Byte) : (hexAll bs).length = 2 * bs.length := by
  induction bs with
  | nil => rfl
  | cons b bs ih => simp only [hexAll, List.length_append, hexU_length, ih, List.length_cons]; omega

theorem hexAll_append (as bs : List Byte) : hexAll (as ++ bs) = hexAll as ++ hexAll bs := by
  induction as with
  | nil => rfl
  | cons a as ih => simp [hexAll, ih]

@[simp] theorem crcField_length (c : Word) : (crcField c).length = 4 := rfl

@[simp] theorem encodeFrame_length (op : Byte) (args : List Byte) :
    (encodeFrame op args).length = 2 * args.length + 8 := by
  simp only [encodeFrame, List.length_append, hexAll_length, crcField_length, List.length_cons, List.length_nil]
  omega

/-- Paired characters are twice the bytes. -/
theorem unhexAll_length {cs bs : List Byte} (h : unhexAll cs = some bs) : cs.length = 2 * bs.length := by
  induction cs using unhexAll.induct generalizing bs with
  | case1 => simp only [unhexAll, Option.some.injEq] at h; subst h; rfl
  | case2 c => simp [unhexAll] at h
  | case3 c1 c2 cs b bs' hbs hb ih =>
    simp only [unhexAll, hb, hbs, Option.some.injEq] at h
    subst h
    have := ih hbs
    simp only [List.length_cons, this]
    omega
  | case4 c1 c2 cs hno ih =>
    simp only [unhexAll] at h
    exact absurd h (by simp)

/-- A frame that steps 1 to 5 let through: its body is not empty, and its length is that of a frame of the body. -/
theorem openFrame_length {f : List Byte} {b : Byte} {rest : List Byte} (h : openFrame f = .ok (b, rest)) :
    f.length = 2 * rest.length + 8 := by
  unfold openFrame at h
  split at h
  · rename_i hf
    have hlen : 6 ≤ f.length := by
      simp only [framed, Bool.and_eq_true] at hf
      exact of_decide_eq_true hf.1.1
    have hi : (interior f).length = f.length - 2 := by
      simp only [interior, List.length_dropLast, List.length_tail]
      omega
    simp only at h
    split at h
    · rename_i body claimed hb hc
      split at h
      · split at h
        · exact absurd h (by simp)
        · rename_i b' rest'
          have := unhexAll_length hb
          simp only [Except.ok.injEq, Prod.mk.injEq] at h
          obtain ⟨rfl, rfl⟩ := h
          simp only [List.length_take, List.length_cons, hi] at this
          omega
      · exact absurd h (by simp)
    · exact absurd h (by simp)
  · exact absurd h (by simp)

/-- What the outcomes of steps 1 to 5 can be. -/
theorem openFrame_error {f : List Byte} {r : Decoded} (h : openFrame f = .error r) : r = malformed ∨ r = crcFailed := by
  unfold openFrame at h
  split at h
  · simp only at h
    split at h
    · split at h
      · split at h
        · exact .inl (Except.error.inj h).symm
        · exact absurd h (by simp)
      · exact .inr (Except.error.inj h).symm
    · exact .inl (Except.error.inj h).symm
  · exact .inl (Except.error.inj h).symm

/-- The three shapes of a decoded frame: no payload with the status `CRC_NOT_VALID` or a terminal code, or an answer
whose payload is the body after its first byte. -/
theorem decodeFrame_cases (f : List Byte) :
    decodeFrame f = malformed ∨ decodeFrame f = crcFailed ∨
    (∃ code, decodeFrame f = { status := .terminal code, ansop := errOp, payload := [], malf := false }) ∨
    ∃ op rest, op ≠ errOp ∧ openFrame f = .ok (op, rest) ∧ decodeFrame f = answerFrame op rest := by
  unfold decodeFrame
  split
  · rename_i r hr
    rcases openFrame_error hr with rfl | rfl <;> simp
  · rename_i b rest hr
    split
    · cases rest with
      | nil => left; rfl
      | cons lo rest =>
        cases rest with
        | nil => left; rfl
        | cons hi rest => exact .inr (.inr (.inl ⟨errorCode lo hi, rfl⟩))
    · rename_i hb
      exact .inr (.inr (.inr ⟨b, rest, hb, hr, rfl⟩))

/-- A payload is that much shorter than its frame. -/
theorem decodeFrame_payload_length (f : List Byte) : (decodeFrame f).payload.length ≤ (f.length - 6) / 2 - 1 := by
  rcases decodeFrame_cases f with h | h | ⟨code, h⟩ | ⟨op, rest, -, ho, h⟩ <;> rw [h]
  · exact Nat.zero_le _
  · exact Nat.zero_le _
  · exact Nat.zero_le _
  · have := openFrame_length ho
    simp only [answerFrame]
    omega

/-- The status `SUCCESS` comes from an answer with the expected opcode, or was there. -/
theorem validate_success {st : Status} {op e : Byte} (h : validate st op e = .loc .success) :
    st = .loc .success ∨ (st = .loc .dataReceived ∧ op = e) := by
  unfold validate at h
  split at h
  · split at h
    · exact .inr ⟨‹_›, ‹_›⟩
    · exact absurd h (by simp)
  · exact .inl h

end Sys2Proof.Machine
end

