-- ==== Sys2Proof/Laws/State.lean ====
section
/-! SUPPORT. What each named update of the state does to each field: one lemma per field per update. -/

namespace Sys2Proof.Machine

section
variable (s : State) (f : Flag) (st : Status) (fr : List Byte) (b : Bool) (sp : Space) (m : Memory)

@[simp] theorem setFlag_crc : (s.setFlag f).crc = s.crc := rfl
@[simp] theorem setFlag_argbuf : (s.setFlag f).argbuf = s.argbuf := rfl
@[simp] theorem setFlag_arglen : (s.setFlag f).arglen = s.arglen := rfl
@[simp] theorem setFlag_txbuf : (s.setFlag f).txbuf = s.txbuf := rfl
@[simp] theorem setFlag_txlen : (s.setFlag f).txlen = s.txlen := rfl
@[simp] theorem setFlag_rxbuf : (s.setFlag f).rxbuf = s.rxbuf := rfl
@[simp] theorem setFlag_rxlen : (s.setFlag f).rxlen = s.rxlen := rfl
@[simp] theorem setFlag_tmr : (s.setFlag f).tmr = s.tmr := rfl
@[simp] theorem setFlag_timeout : (s.setFlag f).timeout = s.timeout := rfl
@[simp] theorem setFlag_exp : (s.setFlag f).exp = s.exp := rfl
@[simp] theorem setFlag_ansop : (s.setFlag f).ansop = s.ansop := rfl
@[simp] theorem setFlag_payload : (s.setFlag f).payload = s.payload := rfl
@[simp] theorem setFlag_plen : (s.setFlag f).plen = s.plen := rfl
@[simp] theorem setFlag_phase : (s.setFlag f).phase = s.phase := rfl
@[simp] theorem setFlag_mode : (s.setFlag f).mode = s.mode := rfl
@[simp] theorem setFlag_status : (s.setFlag f).status = s.status := rfl
@[simp] theorem setFlag_flags : (s.setFlag f).flags = withFlag s.flags f := rfl
@[simp] theorem setFlag_rxq : (s.setFlag f).rxq = s.rxq := rfl
@[simp] theorem setFlag_sent : (s.setFlag f).sent = s.sent := rfl
@[simp] theorem setFlag_params : (s.setFlag f).params = s.params := rfl
@[simp] theorem setFlag_epoch : (s.setFlag f).epoch = s.epoch := rfl
@[simp] theorem setFlag_pending : (s.setFlag f).pending = s.pending := rfl
@[simp] theorem setFlag_envIndex : (s.setFlag f).envIndex = s.envIndex := rfl
@[simp] theorem setFlag_draw : (s.setFlag f).draw = s.draw := rfl

@[simp] theorem emit_crc : (s.emit fr).crc = s.crc := rfl
@[simp] theorem emit_argbuf : (s.emit fr).argbuf = s.argbuf := rfl
@[simp] theorem emit_arglen : (s.emit fr).arglen = s.arglen := rfl
@[simp] theorem emit_txbuf : (s.emit fr).txbuf = s.txbuf := rfl
@[simp] theorem emit_txlen : (s.emit fr).txlen = s.txlen := rfl
@[simp] theorem emit_rxbuf : (s.emit fr).rxbuf = s.rxbuf := rfl
@[simp] theorem emit_rxlen : (s.emit fr).rxlen = s.rxlen := rfl
@[simp] theorem emit_tmr : (s.emit fr).tmr = s.tmr := rfl
@[simp] theorem emit_timeout : (s.emit fr).timeout = s.timeout := rfl
@[simp] theorem emit_exp : (s.emit fr).exp = s.exp := rfl
@[simp] theorem emit_ansop : (s.emit fr).ansop = s.ansop := rfl
@[simp] theorem emit_payload : (s.emit fr).payload = s.payload := rfl
@[simp] theorem emit_plen : (s.emit fr).plen = s.plen := rfl
@[simp] theorem emit_phase : (s.emit fr).phase = s.phase := rfl
@[simp] theorem emit_mode : (s.emit fr).mode = s.mode := rfl
@[simp] theorem emit_status : (s.emit fr).status = s.status := rfl
@[simp] theorem emit_flags : (s.emit fr).flags = s.flags := rfl
@[simp] theorem emit_rxq : (s.emit fr).rxq = s.rxq := rfl
@[simp] theorem emit_sent : (s.emit fr).sent = s.sent ++ [{ frame := fr, draw := s.draw }] := rfl
@[simp] theorem emit_params : (s.emit fr).params = s.params := rfl
@[simp] theorem emit_epoch : (s.emit fr).epoch = s.epoch := rfl
@[simp] theorem emit_pending : (s.emit fr).pending = s.pending := rfl
@[simp] theorem emit_envIndex : (s.emit fr).envIndex = s.envIndex := rfl
@[simp] theorem emit_draw : (s.emit fr).draw = s.draw := rfl

@[simp] theorem raise_crc : (s.raise st).crc = s.crc := rfl
@[simp] theorem raise_argbuf : (s.raise st).argbuf = s.argbuf := rfl
@[simp] theorem raise_arglen : (s.raise st).arglen = s.arglen := rfl
@[simp] theorem raise_txbuf : (s.raise st).txbuf = s.txbuf := rfl
@[simp] theorem raise_txlen : (s.raise st).txlen = s.txlen := rfl
@[simp] theorem raise_rxbuf : (s.raise st).rxbuf = s.rxbuf := rfl
@[simp] theorem raise_rxlen : (s.raise st).rxlen = s.rxlen := rfl
@[simp] theorem raise_tmr : (s.raise st).tmr = s.tmr := rfl
@[simp] theorem raise_timeout : (s.raise st).timeout = s.timeout := rfl
@[simp] theorem raise_exp : (s.raise st).exp = s.exp := rfl
@[simp] theorem raise_ansop : (s.raise st).ansop = s.ansop := rfl
@[simp] theorem raise_payload : (s.raise st).payload = s.payload := rfl
@[simp] theorem raise_plen : (s.raise st).plen = s.plen := rfl
@[simp] theorem raise_phase : (s.raise st).phase = .idle := rfl
@[simp] theorem raise_mode : (s.raise st).mode = s.mode := rfl
@[simp] theorem raise_status : (s.raise st).status = st := rfl
@[simp] theorem raise_flags : (s.raise st).flags = s.flags := rfl
@[simp] theorem raise_rxq : (s.raise st).rxq = s.rxq := rfl
@[simp] theorem raise_sent : (s.raise st).sent = s.sent := rfl
@[simp] theorem raise_params : (s.raise st).params = s.params := rfl
@[simp] theorem raise_epoch : (s.raise st).epoch = s.epoch := rfl
@[simp] theorem raise_pending : (s.raise st).pending = s.pending := rfl
@[simp] theorem raise_envIndex : (s.raise st).envIndex = s.envIndex := rfl
@[simp] theorem raise_draw : (s.raise st).draw = s.draw := rfl

@[simp] theorem timeOut_crc : (timeOut s).crc = s.crc := rfl
@[simp] theorem timeOut_argbuf : (timeOut s).argbuf = s.argbuf := rfl
@[simp] theorem timeOut_arglen : (timeOut s).arglen = s.arglen := rfl
@[simp] theorem timeOut_txbuf : (timeOut s).txbuf = s.txbuf := rfl
@[simp] theorem timeOut_txlen : (timeOut s).txlen = s.txlen := rfl
@[simp] theorem timeOut_rxbuf : (timeOut s).rxbuf = s.rxbuf := rfl
@[simp] theorem timeOut_rxlen : (timeOut s).rxlen = 0 := rfl
@[simp] theorem timeOut_tmr : (timeOut s).tmr = s.tmr := rfl
@[simp] theorem timeOut_timeout : (timeOut s).timeout = s.timeout := rfl
@[simp] theorem timeOut_exp : (timeOut s).exp = s.exp := rfl
@[simp] theorem timeOut_ansop : (timeOut s).ansop = s.ansop := rfl
@[simp] theorem timeOut_payload : (timeOut s).payload = s.payload := rfl
@[simp] theorem timeOut_plen : (timeOut s).plen = s.plen := rfl
@[simp] theorem timeOut_phase : (timeOut s).phase = .idle := rfl
@[simp] theorem timeOut_mode : (timeOut s).mode = s.mode := rfl
@[simp] theorem timeOut_status : (timeOut s).status = .loc .timeout := rfl
@[simp] theorem timeOut_flags : (timeOut s).flags = s.flags := rfl
@[simp] theorem timeOut_rxq : (timeOut s).rxq = s.rxq := rfl
@[simp] theorem timeOut_sent : (timeOut s).sent = s.sent := rfl
@[simp] theorem timeOut_params : (timeOut s).params = s.params := rfl
@[simp] theorem timeOut_epoch : (timeOut s).epoch = s.epoch := rfl
@[simp] theorem timeOut_pending : (timeOut s).pending = s.pending := rfl
@[simp] theorem timeOut_envIndex : (timeOut s).envIndex = s.envIndex := rfl
@[simp] theorem timeOut_draw : (timeOut s).draw = s.draw := rfl

@[simp] theorem dropFrame_crc : (dropFrame s).crc = s.crc := rfl
@[simp] theorem dropFrame_argbuf : (dropFrame s).argbuf = s.argbuf := rfl
@[simp] theorem dropFrame_arglen : (dropFrame s).arglen = s.arglen := rfl
@[simp] theorem dropFrame_txbuf : (dropFrame s).txbuf = s.txbuf := rfl
@[simp] theorem dropFrame_txlen : (dropFrame s).txlen = s.txlen := rfl
@[simp] theorem dropFrame_rxbuf : (dropFrame s).rxbuf = s.rxbuf := rfl
@[simp] theorem dropFrame_rxlen : (dropFrame s).rxlen = 0 := rfl
@[simp] theorem dropFrame_tmr : (dropFrame s).tmr = s.tmr := rfl
@[simp] theorem dropFrame_timeout : (dropFrame s).timeout = s.timeout := rfl
@[simp] theorem dropFrame_exp : (dropFrame s).exp = s.exp := rfl
@[simp] theorem dropFrame_ansop : (dropFrame s).ansop = s.ansop := rfl
@[simp] theorem dropFrame_payload : (dropFrame s).payload = s.payload := rfl
@[simp] theorem dropFrame_plen : (dropFrame s).plen = s.plen := rfl
@[simp] theorem dropFrame_phase : (dropFrame s).phase = .hunt := rfl
@[simp] theorem dropFrame_mode : (dropFrame s).mode = s.mode := rfl
@[simp] theorem dropFrame_status : (dropFrame s).status = s.status := rfl
@[simp] theorem dropFrame_flags : (dropFrame s).flags = withFlag s.flags .rxovf := rfl
@[simp] theorem dropFrame_rxq : (dropFrame s).rxq = s.rxq := rfl
@[simp] theorem dropFrame_sent : (dropFrame s).sent = s.sent := rfl
@[simp] theorem dropFrame_params : (dropFrame s).params = s.params := rfl
@[simp] theorem dropFrame_epoch : (dropFrame s).epoch = s.epoch := rfl
@[simp] theorem dropFrame_pending : (dropFrame s).pending = s.pending := rfl
@[simp] theorem dropFrame_envIndex : (dropFrame s).envIndex = s.envIndex := rfl
@[simp] theorem dropFrame_draw : (dropFrame s).draw = s.draw := rfl

@[simp] theorem noteMalf_crc : (s.noteMalf b).crc = s.crc := by cases b <;> rfl
@[simp] theorem noteMalf_argbuf : (s.noteMalf b).argbuf = s.argbuf := by cases b <;> rfl
@[simp] theorem noteMalf_arglen : (s.noteMalf b).arglen = s.arglen := by cases b <;> rfl
@[simp] theorem noteMalf_txbuf : (s.noteMalf b).txbuf = s.txbuf := by cases b <;> rfl
@[simp] theorem noteMalf_txlen : (s.noteMalf b).txlen = s.txlen := by cases b <;> rfl
@[simp] theorem noteMalf_rxbuf : (s.noteMalf b).rxbuf = s.rxbuf := by cases b <;> rfl
@[simp] theorem noteMalf_rxlen : (s.noteMalf b).rxlen = s.rxlen := by cases b <;> rfl
@[simp] theorem noteMalf_tmr : (s.noteMalf b).tmr = s.tmr := by cases b <;> rfl
@[simp] theorem noteMalf_timeout : (s.noteMalf b).timeout = s.timeout := by cases b <;> rfl
@[simp] theorem noteMalf_exp : (s.noteMalf b).exp = s.exp := by cases b <;> rfl
@[simp] theorem noteMalf_ansop : (s.noteMalf b).ansop = s.ansop := by cases b <;> rfl
@[simp] theorem noteMalf_payload : (s.noteMalf b).payload = s.payload := by cases b <;> rfl
@[simp] theorem noteMalf_plen : (s.noteMalf b).plen = s.plen := by cases b <;> rfl
@[simp] theorem noteMalf_phase : (s.noteMalf b).phase = s.phase := by cases b <;> rfl
@[simp] theorem noteMalf_mode : (s.noteMalf b).mode = s.mode := by cases b <;> rfl
@[simp] theorem noteMalf_status : (s.noteMalf b).status = s.status := by cases b <;> rfl
@[simp] theorem noteMalf_flags : (s.noteMalf b).flags = if b then withFlag s.flags .malf else s.flags := by cases b <;> rfl
@[simp] theorem noteMalf_rxq : (s.noteMalf b).rxq = s.rxq := by cases b <;> rfl
@[simp] theorem noteMalf_sent : (s.noteMalf b).sent = s.sent := by cases b <;> rfl
@[simp] theorem noteMalf_params : (s.noteMalf b).params = s.params := by cases b <;> rfl
@[simp] theorem noteMalf_epoch : (s.noteMalf b).epoch = s.epoch := by cases b <;> rfl
@[simp] theorem noteMalf_pending : (s.noteMalf b).pending = s.pending := by cases b <;> rfl
@[simp] theorem noteMalf_envIndex : (s.noteMalf b).envIndex = s.envIndex := by cases b <;> rfl
@[simp] theorem noteMalf_draw : (s.noteMalf b).draw = s.draw := by cases b <;> rfl

@[simp] theorem setMem_crc : (s.setMem sp m).crc = s.crc := by cases sp <;> rfl
@[simp] theorem setMem_arglen : (s.setMem sp m).arglen = s.arglen := by cases sp <;> rfl
@[simp] theorem setMem_txlen : (s.setMem sp m).txlen = s.txlen := by cases sp <;> rfl
@[simp] theorem setMem_rxlen : (s.setMem sp m).rxlen = s.rxlen := by cases sp <;> rfl
@[simp] theorem setMem_tmr : (s.setMem sp m).tmr = s.tmr := by cases sp <;> rfl
@[simp] theorem setMem_timeout : (s.setMem sp m).timeout = s.timeout := by cases sp <;> rfl
@[simp] theorem setMem_exp : (s.setMem sp m).exp = s.exp := by cases sp <;> rfl
@[simp] theorem setMem_ansop : (s.setMem sp m).ansop = s.ansop := by cases sp <;> rfl
@[simp] theorem setMem_plen : (s.setMem sp m).plen = s.plen := by cases sp <;> rfl
@[simp] theorem setMem_phase : (s.setMem sp m).phase = s.phase := by cases sp <;> rfl
@[simp] theorem setMem_mode : (s.setMem sp m).mode = s.mode := by cases sp <;> rfl
@[simp] theorem setMem_status : (s.setMem sp m).status = s.status := by cases sp <;> rfl
@[simp] theorem setMem_flags : (s.setMem sp m).flags = s.flags := by cases sp <;> rfl
@[simp] theorem setMem_rxq : (s.setMem sp m).rxq = s.rxq := by cases sp <;> rfl
@[simp] theorem setMem_sent : (s.setMem sp m).sent = s.sent := by cases sp <;> rfl
@[simp] theorem setMem_params : (s.setMem sp m).params = s.params := by cases sp <;> rfl
@[simp] theorem setMem_epoch : (s.setMem sp m).epoch = s.epoch := by cases sp <;> rfl
@[simp] theorem setMem_pending : (s.setMem sp m).pending = s.pending := by cases sp <;> rfl
@[simp] theorem setMem_envIndex : (s.setMem sp m).envIndex = s.envIndex := by cases sp <;> rfl
@[simp] theorem setMem_draw : (s.setMem sp m).draw = s.draw := by cases sp <;> rfl

@[simp] theorem setMem_argbuf : s.setMem .argbuf m = { s with argbuf := m } := rfl
@[simp] theorem setMem_txbuf : s.setMem .txbuf m = { s with txbuf := m } := rfl
@[simp] theorem setMem_rxbuf : s.setMem .rxbuf m = { s with rxbuf := m } := rfl
@[simp] theorem setMem_payload : s.setMem .payload m = { s with payload := m } := rfl

@[simp] theorem mem_argbuf : s.mem .argbuf = s.argbuf := rfl
@[simp] theorem mem_txbuf : s.mem .txbuf = s.txbuf := rfl
@[simp] theorem mem_rxbuf : s.mem .rxbuf = s.rxbuf := rfl
@[simp] theorem mem_payload : s.mem .payload = s.payload := rfl

@[simp] theorem mem_setMem_same : (s.setMem sp m).mem sp = m := by cases sp <;> rfl

theorem mem_setMem_other {sp sp' : Space} (h : sp' ≠ sp) : (s.setMem sp m).mem sp' = s.mem sp' := by
  cases sp <;> cases sp' <;> first | rfl | exact absurd rfl h

end

/-- What the buffers' bounds depend on. -/
theorem fits_congr {s t : State} (h : t.params = s.params) (sp : Space) (n : Nat) : t.fits sp n = s.fits sp n := by
  simp [State.fits, h]

/-- What reading an element depends on. -/
theorem elem_congr {s t : State} {sp : Space} (h : t.mem sp = s.mem sp) (he : t.epoch = s.epoch) (i : Nat) :
    t.elem sp i = s.elem sp i := by
  simp [State.elem, h, he]

theorem elems_congr {s t : State} {sp : Space} (h : t.mem sp = s.mem sp) (he : t.epoch = s.epoch) (n : Nat) :
    ∀ i, t.elems sp i n = s.elems sp i n := by
  induction n with
  | zero => intro i; rfl
  | succ n ih => intro i; simp [State.elems, elem_congr h he, ih]

/-- `fits` in the form of a comparison, buffer by buffer. -/
@[simp] theorem fits_argbuf (s : State) (n : Nat) : s.fits .argbuf n = decide (n ≤ s.params.argMax) := rfl
@[simp] theorem fits_txbuf (s : State) (n : Nat) : s.fits .txbuf n = decide (n ≤ s.params.txMax) := rfl
@[simp] theorem fits_rxbuf (s : State) (n : Nat) : s.fits .rxbuf n = s.params.rxCap.all fun c => decide (n ≤ c) := rfl
@[simp] theorem fits_payload (s : State) (n : Nat) :
    s.fits .payload n = s.params.payMax.all fun c => decide (n ≤ c) := rfl

/-- A smaller number of elements exists where a larger one does. -/
theorem fits_mono {s : State} {sp : Space} {m n : Nat} (h : m ≤ n) (hn : s.fits sp n = true) :
    s.fits sp m = true := by
  unfold State.fits Params.fits at *
  cases hc : s.params.capacity sp with
  | none => rfl
  | some c => rw [hc] at hn; simp at hn ⊢; omega

end Sys2Proof.Machine
end

