-- ==== Sys2Proof/Laws/Memory.lean ====
section
/-! SUPPORT. The buffers: read after write, and the canonical form that every operation keeps. -/

namespace Sys2Proof.Machine

/-- A cell of a canonical buffer lies below all that follow it. -/
theorem wf_cons_iff (i : Nat) (v : Byte) (m : Memory) :
    Memory.wf ((i, v) :: m) = true ↔ (∀ c ∈ m, i < c.1) ∧ Memory.wf m = true := by
  induction m generalizing i v with
  | nil => simp [Memory.wf]
  | cons c m ih =>
    obtain ⟨j, w⟩ := c
    simp only [Memory.wf, Bool.and_eq_true, decide_eq_true_eq, List.mem_cons, forall_eq_or_imp]
    constructor
    · rintro ⟨hij, hm⟩
      exact ⟨⟨hij, fun c hc => Nat.lt_trans hij (((ih j w).1 hm).1 c hc)⟩, hm⟩
    · rintro ⟨⟨hij, -⟩, hm⟩
      exact ⟨hij, hm⟩

/-- The cells after a write: the written one, and others that were there. -/
theorem mem_write {c : Host.Cell} {m : Memory} {i : Nat} {b : Byte} (h : c ∈ m.write i b) : c = (i, b) ∨ c ∈ m := by
  induction m with
  | nil => simpa [Memory.write] using h
  | cons d m ih =>
    obtain ⟨j, v⟩ := d
    simp only [Memory.write] at h
    split at h
    · simpa using h
    · split at h
      · simp only [List.mem_cons] at h ⊢
        tauto
      · simp only [List.mem_cons] at h ⊢
        rcases h with h | h
        · exact .inr (.inl h)
        · rcases ih h with h | h <;> tauto

/-- A write keeps the canonical form. -/
theorem write_wf {m : Memory} (h : m.wf = true) (i : Nat) (b : Byte) : (m.write i b).wf = true := by
  induction m with
  | nil => rfl
  | cons d m ih =>
    obtain ⟨j, v⟩ := d
    obtain ⟨hlow, hm⟩ := (wf_cons_iff j v m).1 h
    simp only [Memory.write]
    split
    · rename_i hij
      refine (wf_cons_iff _ _ _).2 ⟨?_, h⟩
      simp only [List.mem_cons, forall_eq_or_imp]
      exact ⟨hij, fun c hc => Nat.lt_trans hij (hlow c hc)⟩
    · split
      · rename_i hij
        exact (wf_cons_iff _ _ _).2 ⟨by rw [hij]; exact hlow, hm⟩
      · refine (wf_cons_iff _ _ _).2 ⟨fun c hc => ?_, ih hm⟩
        rcases mem_write hc with rfl | hc
        · simp only; omega
        · exact hlow c hc

/-- Consecutive writes keep the canonical form. -/
theorem writeAll_wf {m : Memory} (h : m.wf = true) (bs : List Byte) : ∀ i, (m.writeAll i bs).wf = true := by
  induction bs generalizing m with
  | nil => intro i; exact h
  | cons b bs ih => intro i; exact ih (write_wf h i b) (i + 1)

/-- The cells after consecutive writes lie in the written range or were there. -/
theorem mem_writeAll {c : Host.Cell} (bs : List Byte) :
    ∀ {m : Memory} {i : Nat}, c ∈ m.writeAll i bs → c.1 < i + bs.length ∨ c ∈ m := by
  induction bs with
  | nil => intro m i h; exact .inr h
  | cons b bs ih =>
    intro m i h
    rcases ih h with h | h
    · left; simp only [List.length_cons]; omega
    · rcases mem_write h with rfl | h
      · left; simp
      · exact .inr h

/-- The written element reads as what was written. -/
theorem lookup_write_same (m : Memory) (i : Nat) (b : Byte) : (m.write i b).lookup i = some b := by
  induction m with
  | nil => simp [Memory.write, Memory.lookup]
  | cons d m ih =>
    obtain ⟨j, v⟩ := d
    simp only [Memory.write]
    split
    · simp [Memory.lookup]
    · split
      · simp [Memory.lookup]
      · rename_i h
        simp [Memory.lookup, h, ih]

/-- Every other element reads as before. -/
theorem lookup_write_other (m : Memory) {i k : Nat} (b : Byte) (h : k ≠ i) :
    (m.write i b).lookup k = m.lookup k := by
  induction m with
  | nil => simp [Memory.write, Memory.lookup, h]
  | cons d m ih =>
    obtain ⟨j, v⟩ := d
    simp only [Memory.write]
    split
    · simp [Memory.lookup, h]
    · split
      · rename_i hij
        subst hij
        simp [Memory.lookup, h]
      · simp [Memory.lookup, ih]

/-- Elements below the written range read as before. -/
theorem lookup_writeAll_below (bs : List Byte) :
    ∀ (m : Memory) (i : Nat) {k : Nat}, k < i → (m.writeAll i bs).lookup k = m.lookup k := by
  induction bs with
  | nil => intro m i k _; rfl
  | cons b bs ih =>
    intro m i k h
    rw [Memory.writeAll, ih _ _ (by omega), lookup_write_other _ _ (by omega)]

/-- Elements above the written range read as before. -/
theorem lookup_writeAll_above (bs : List Byte) :
    ∀ (m : Memory) (i : Nat) {k : Nat}, i + bs.length ≤ k → (m.writeAll i bs).lookup k = m.lookup k := by
  induction bs with
  | nil => intro m i k _; rfl
  | cons b bs ih =>
    intro m i k h
    simp only [List.length_cons] at h
    rw [Memory.writeAll, ih _ _ (by omega), lookup_write_other _ _ (by omega)]

/-- Elements of the written range read as what was written. -/
theorem lookup_writeAll_inside (bs : List Byte) :
    ∀ (m : Memory) (i : Nat) {k : Nat} (h : k < bs.length), (m.writeAll i bs).lookup (i + k) = some bs[k] := by
  induction bs with
  | nil => intro m i k h; exact absurd h (Nat.not_lt_zero k)
  | cons b bs ih =>
    intro m i k h
    cases k with
    | zero =>
      rw [Memory.writeAll, lookup_writeAll_below _ _ _ (by omega), Nat.add_zero, lookup_write_same]
      rfl
    | succ k =>
      simp only [List.length_cons] at h
      rw [Memory.writeAll, show i + (k + 1) = i + 1 + k by omega, ih _ _ (by omega)]
      rfl

/-- `n` elements of a buffer are `n`. -/
@[simp] theorem elems_length (s : State) (sp : Space) (n : Nat) : ∀ i, (s.elems sp i n).length = n := by
  induction n with
  | zero => intro i; rfl
  | succ n ih => intro i; simp [State.elems, ih]

/-- The elements read are those at their indices. -/
theorem elems_getElem (s : State) (sp : Space) (n : Nat) :
    ∀ (i k : Nat) (h : k < (s.elems sp i n).length), (s.elems sp i n)[k] = s.elem sp (i + k) := by
  induction n with
  | zero => intro i k h; simp [State.elems] at h
  | succ n ih =>
    intro i k h
    cases k with
    | zero => simp [State.elems]
    | succ k =>
      simp only [State.elems, List.getElem_cons_succ]
      rw [ih]
      congr 1
      omega

/-- One element more is read at the end. -/
theorem elems_succ (s : State) (sp : Space) (n : Nat) :
    ∀ i, s.elems sp i (n + 1) = s.elems sp i n ++ [s.elem sp (i + n)] := by
  induction n with
  | zero => intro i; rfl
  | succ n ih =>
    intro i
    rw [State.elems, ih (i + 1), State.elems, List.cons_append, show i + 1 + n = i + (n + 1) by omega]

/-- A buffer holding a written sequence from index 0 reads as that sequence. -/
theorem elems_of_writeAll {t : State} {sp : Space} {m : Memory} {bs : List Byte} (h : t.mem sp = m.writeAll 0 bs) :
    t.elems sp 0 bs.length = bs := by
  apply List.ext_getElem
  · simp
  · intro k hk hk'
    rw [elems_getElem, State.elem, h]
    have := lookup_writeAll_inside bs m 0 hk'
    rw [this]
    rfl

/-- Writing one element leaves the reading of every other. -/
theorem elem_of_write_other {s t : State} {sp : Space} {i k : Nat} {b : Byte} (h : t.mem sp = (s.mem sp).write i b)
    (he : t.epoch = s.epoch) (hk : k ≠ i) : t.elem sp k = s.elem sp k := by
  simp [State.elem, h, he, lookup_write_other _ _ hk]

/-- Writing one element makes it read so. -/
theorem elem_of_write_same {s t : State} {sp : Space} {i : Nat} {b : Byte} (h : t.mem sp = (s.mem sp).write i b) :
    t.elem sp i = b := by
  simp [State.elem, h, lookup_write_same]

/-- Consecutive writes leave the reading of every element above them. -/
theorem elem_of_writeAll_above {s t : State} {sp : Space} {i k : Nat} {bs : List Byte}
    (h : t.mem sp = (s.mem sp).writeAll i bs) (he : t.epoch = s.epoch) (hk : i + bs.length ≤ k) :
    t.elem sp k = s.elem sp k := by
  simp [State.elem, h, he, lookup_writeAll_above _ _ _ hk]

/-- Elements that read the same in two states give the same sequence. -/
theorem elems_ext {s t : State} {sp : Space} {n : Nat} (h : ∀ k, k < n → t.elem sp k = s.elem sp k) :
    t.elems sp 0 n = s.elems sp 0 n := by
  apply List.ext_getElem
  · simp
  · intro k hk hk'
    rw [elems_getElem, elems_getElem]
    simpa using h k (by simpa using hk)

/-- The memory right after reset has the canonical form. -/
theorem reset_memory_wf (p : Params) (sp : Space) : ((State.resetWith p).mem sp).wf = true := by
  cases sp <;> rfl

end Sys2Proof.Machine
end

