-- ==== Sys2Proof/Laws/Ops.lean ====
section
/-! SUPPORT. For each shared operation, everything it can do, said once. -/

namespace Sys2Proof.Machine

@[simp] theorem finish_next_iff {r : Except Fault State} {t : State} : finish r = .next t ↔ r = .ok t := by
  cases r <;> simp [finish]

@[simp] theorem finish_ok (t : State) : finish (.ok t) = .next t := rfl
@[simp] theorem finish_error (e : Fault) : finish (.error e) = .fault e := rfl

/-- A command in `IDLE` is executed (R232). -/
theorem whenIdle_idle {s : State} (h : s.phase = .idle) (k : State → Result) : whenIdle s k = k s := by
  simp [whenIdle, h]

/-- A command in another phase only sets `BUSYERR` (R232). -/
theorem whenIdle_busy {s : State} (h : s.phase ≠ .idle) (k : State → Result) :
    whenIdle s k = .next (s.setFlag .busyerr) := by
  simp [whenIdle, h]

/-- Everything a gated command can do. -/
theorem whenIdle_next {s t : State} {k : State → Result} (h : whenIdle s k = .next t) :
    (s.phase = .idle ∧ k s = .next t) ∨ (s.phase ≠ .idle ∧ t = s.setFlag .busyerr) := by
  unfold whenIdle at h
  split at h
  · exact .inl ⟨‹_›, h⟩
  · exact .inr ⟨‹_›, by simpa using h.symm⟩

theorem readBuf_ok_iff {s : State} {sp : Space} {n : Nat} {bs : List Byte} :
    readBuf s sp n = .ok bs ↔ s.fits sp n = true ∧ bs = s.elems sp 0 n := by
  unfold readBuf
  constructor
  · intro h
    split at h
    · exact ⟨‹_›, (Except.ok.inj h).symm⟩
    · exact absurd h (by simp)
  · rintro ⟨hf, rfl⟩
    rw [if_pos hf]

theorem readBuf_fits {s : State} {sp : Space} {n : Nat} (h : s.fits sp n = true) :
    readBuf s sp n = .ok (s.elems sp 0 n) := readBuf_ok_iff.2 ⟨h, rfl⟩

theorem writeBuf_ok_iff {s t : State} {sp : Space} {i : Nat} {bs : List Byte} :
    writeBuf s sp i bs = .ok t ↔
      s.fits sp (i + bs.length) = true ∧ t = s.setMem sp ((s.mem sp).writeAll i bs) := by
  unfold writeBuf
  constructor
  · intro h
    split at h
    · exact ⟨‹_›, (Except.ok.inj h).symm⟩
    · exact absurd h (by simp)
  · rintro ⟨hf, rfl⟩
    rw [if_pos hf]

theorem writeBuf_fits {s : State} {sp : Space} {i : Nat} {bs : List Byte} (h : s.fits sp (i + bs.length) = true) :
    writeBuf s sp i bs = .ok (s.setMem sp ((s.mem sp).writeAll i bs)) := writeBuf_ok_iff.2 ⟨h, rfl⟩

/-- The frame built in `TXBUF` (R156). -/
theorem storeFrame_ok_iff {s t : State} {op : Byte} {args : List Byte} :
    storeFrame s op args = .ok t ↔ s.fits .txbuf (encodeFrame op args).length = true ∧
      t = { s with txbuf := s.txbuf.writeAll 0 (encodeFrame op args), txlen := (encodeFrame op args).length } := by
  unfold storeFrame
  constructor
  · intro h
    split at h
    · exact absurd h (by simp)
    · rename_i s' hs'
      obtain ⟨hf, rfl⟩ := writeBuf_ok_iff.1 hs'
      exact ⟨by simpa using hf, by simpa using h.symm⟩
  · rintro ⟨hf, rfl⟩
    rw [writeBuf_fits (by simpa using hf)]
    rfl

theorem buildFrame_ok_iff {s t : State} {op : Byte} :
    buildFrame s op = .ok t ↔ s.fits .argbuf s.arglen = true ∧
      storeFrame s op (s.elems .argbuf 0 s.arglen) = .ok t := by
  unfold buildFrame
  constructor
  · intro h
    split at h
    · exact absurd h (by simp)
    · rename_i args ha
      obtain ⟨hf, rfl⟩ := readBuf_ok_iff.1 ha
      exact ⟨hf, h⟩
  · rintro ⟨hf, h⟩
    rw [readBuf_fits hf]
    exact h

/-- A frame of arguments that exist fits `TXBUF` (R9, R156). -/
theorem frame_fits {s : State} {op : Byte} {args : List Byte} (h : s.fits .argbuf args.length = true) :
    s.fits .txbuf (encodeFrame op args).length = true := by
  simp only [fits_argbuf, decide_eq_true_eq] at h
  rw [fits_txbuf, encodeFrame_length]
  apply decide_eq_true
  unfold Params.txMax
  omega

/-- The two things arming does (R173, R174). -/
theorem arm_cases (s : State) :
    (s.timeout = 0 ∧ arm s = timeOut s) ∨
    (s.timeout ≠ 0 ∧ arm s = { s with rxlen := 0, tmr := s.timeout, phase := .hunt }) := by
  unfold arm
  split
  · exact .inl ⟨‹_›, rfl⟩
  · exact .inr ⟨‹_›, rfl⟩

/-- The result registers after `DEC` (R200). -/
theorem applyDecoded_ok_iff {s t : State} {r : Decoded} :
    applyDecoded s r = .ok t ↔ s.fits .payload r.payload.length = true ∧
      t = { s with status := r.status, ansop := r.ansop, payload := s.payload.writeAll 0 r.payload,
                   plen := r.payload.length, flags := if r.malf then withFlag s.flags .malf else s.flags } := by
  unfold applyDecoded
  constructor
  · intro h
    split at h
    · exact absurd h (by simp)
    · rename_i s' hs'
      obtain ⟨hf, rfl⟩ := writeBuf_ok_iff.1 hs'
      refine ⟨by simpa [State.fits] using hf, ?_⟩
      cases hm : r.malf <;> simp [hm, State.noteMalf, State.setFlag] at h ⊢ <;> exact h.symm
  · rintro ⟨hf, rfl⟩
    rw [writeBuf_fits (by simpa [State.fits] using hf)]
    cases hm : r.malf <;> simp [State.noteMalf, State.setFlag]

/-- The result registers after a transaction (R227). -/
theorem applyValidated_ok_iff {s t : State} {r : Decoded} :
    applyValidated s r = .ok t ↔
      (validate r.status r.ansop s.exp = .loc .success ∧ s.fits .payload r.payload.length = true ∧
        t = { s with status := .loc .success, ansop := r.ansop, payload := s.payload.writeAll 0 r.payload,
                     plen := r.payload.length, flags := if r.malf then withFlag s.flags .malf else s.flags }) ∨
      (validate r.status r.ansop s.exp ≠ .loc .success ∧
        t = { s with status := validate r.status r.ansop s.exp, ansop := r.ansop, plen := 0,
                     flags := if r.malf then withFlag s.flags .malf else s.flags }) := by
  unfold applyValidated
  by_cases hv : validate r.status r.ansop s.exp = .loc .success
  · simp only [hv, ↓reduceIte, true_and, ne_eq, not_true_eq_false, false_and, or_false]
    constructor
    · intro h
      split at h
      · exact absurd h (by simp)
      · rename_i s' hs'
        obtain ⟨hf, rfl⟩ := writeBuf_ok_iff.1 hs'
        refine ⟨by simpa [State.fits] using hf, ?_⟩
        cases hm : r.malf <;> simp [hm, State.noteMalf, State.setFlag] at h ⊢ <;> exact h.symm
    · rintro ⟨hf, rfl⟩
      rw [writeBuf_fits (by simpa [State.fits] using hf)]
      cases hm : r.malf <;> simp [State.noteMalf, State.setFlag]
  · simp only [hv, ↓reduceIte, false_and, false_or, ne_eq, not_false_eq_true, true_and]
    cases hm : r.malf <;> simp [State.noteMalf, State.setFlag, eq_comm]

/-- The bounds of `RXBUF` give those of `PAYLOAD` for a decoded frame (R9, R200). -/
theorem decoded_fits {s : State} {f : List Byte} (h : s.fits .rxbuf f.length = true) :
    s.fits .payload (decodeFrame f).payload.length = true := by
  have hl := decodeFrame_payload_length f
  simp only [fits_rxbuf, fits_payload, Params.payMax] at h ⊢
  cases hc : s.params.rxCap with
  | none => rfl
  | some c =>
    rw [hc] at h
    simp only [Option.all_some, decide_eq_true_eq, Option.map_some] at h ⊢
    have : (f.length - 6) / 2 - 1 ≤ (c - 6) / 2 - 1 := by omega
    omega

theorem completeTransaction_ok_iff {s t : State} :
    completeTransaction s = .ok t ↔ s.fits .rxbuf s.rxlen = true ∧
      applyValidated s (decodeFrame (s.elems .rxbuf 0 s.rxlen)) = .ok t := by
  unfold completeTransaction
  constructor
  · intro h
    split at h
    · exact absurd h (by simp)
    · rename_i f hf
      obtain ⟨hfit, rfl⟩ := readBuf_ok_iff.1 hf
      exact ⟨hfit, h⟩
  · rintro ⟨hf, h⟩
    rw [readBuf_fits hf]
    exact h

/-- What follows the `ETX` of a frame (R180, R181). -/
theorem completeCapture_ok {s t : State} (h : completeCapture s = .ok t) :
    (s.rxlen < minFrame ∧ t = timeOut s) ∨
    (minFrame ≤ s.rxlen ∧ s.mode = .standalone ∧ t = s.raise (.loc .dataReceived)) ∨
    (minFrame ≤ s.rxlen ∧ s.mode = .transaction ∧ completeTransaction s = .ok t) := by
  unfold completeCapture at h
  split at h
  · exact .inl ⟨‹_›, by simpa using h.symm⟩
  · rename_i hlen
    right
    cases hm : s.mode <;> simp only [hm] at h
    · exact .inl ⟨by omega, rfl, by simpa using h.symm⟩
    · exact .inr ⟨by omega, rfl, h⟩

/-- The byte appended to `RXBUF` (R179). -/
theorem appendRx_ok_iff {s t : State} {b : Byte} :
    appendRx s b = .ok t ↔ s.fits .rxbuf (s.rxlen + 1) = true ∧
      t = { s with rxbuf := s.rxbuf.write s.rxlen b, rxlen := s.rxlen + 1 } := by
  unfold appendRx
  constructor
  · intro h
    split at h
    · exact absurd h (by simp)
    · rename_i s' hs'
      obtain ⟨hf, rfl⟩ := writeBuf_ok_iff.1 hs'
      exact ⟨by simpa using hf, by simpa [Memory.writeAll] using h.symm⟩
  · rintro ⟨hf, rfl⟩
    rw [writeBuf_fits (by simpa using hf)]
    simp [Memory.writeAll]

/-- The two things a byte that does not end the frame can do in `ACC` (R178, R179). -/
theorem accumulate_ok {s t : State} {b : Byte} (h : accumulate s b = .ok t) :
    (s.params.rxCap = some s.rxlen ∧ t = dropFrame s) ∨ (s.params.rxCap ≠ some s.rxlen ∧ appendRx s b = .ok t) := by
  unfold accumulate at h
  split at h
  · exact .inl ⟨‹_›, by simpa using h.symm⟩
  · exact .inr ⟨‹_›, h⟩

end Sys2Proof.Machine
end

