-- ==== Sys2Proof/Laws/Exec.lean ====
section
/-! SUPPORT. For each meaning, everything it can do where it answers a next state: the case of the gate (R232) or the
cases of the instruction's own rule. -/

namespace Sys2Proof.Machine

/-- A gated command that always goes on in `IDLE`. -/
theorem whenIdle_next_of {s t : State} {g : State → State} (h : whenIdle s (fun s => .next (g s)) = .next t) :
    (s.phase = .idle ∧ t = g s) ∨ (s.phase ≠ .idle ∧ t = s.setFlag .busyerr) := by
  rcases whenIdle_next h with ⟨hi, h⟩ | h
  · exact .inl ⟨hi, by simpa using h.symm⟩
  · exact .inr h

theorem execNop_next {s t : State} (h : execNop s = .next t) :
    (s.phase = .idle ∧ t = s) ∨ (s.phase ≠ .idle ∧ t = s.setFlag .busyerr) := whenIdle_next_of h

theorem execCrcClr_next {s t : State} (h : execCrcClr s = .next t) :
    (s.phase = .idle ∧ t = { s with crc := crcInit }) ∨ (s.phase ≠ .idle ∧ t = s.setFlag .busyerr) :=
  whenIdle_next_of h

theorem execCrcUpd_next {a : Byte} {s t : State} (h : execCrcUpd a s = .next t) :
    (s.phase = .idle ∧ t = { s with crc := crcStep s.crc a }) ∨ (s.phase ≠ .idle ∧ t = s.setFlag .busyerr) :=
  whenIdle_next_of h

theorem execArgClr_next {s t : State} (h : execArgClr s = .next t) :
    (s.phase = .idle ∧ t = { s with arglen := 0 }) ∨ (s.phase ≠ .idle ∧ t = s.setFlag .busyerr) :=
  whenIdle_next_of h

theorem execTmoSet_next {a b : Byte} {s t : State} (h : execTmoSet a b s = .next t) :
    (s.phase = .idle ∧ t = { s with timeout := timeoutValue a b }) ∨ (s.phase ≠ .idle ∧ t = s.setFlag .busyerr) :=
  whenIdle_next_of h

theorem execCapt_next {s t : State} (h : execCapt s = .next t) :
    (s.phase = .idle ∧ t = arm { s with mode := .standalone, status := .loc .none }) ∨
    (s.phase ≠ .idle ∧ t = s.setFlag .busyerr) := whenIdle_next_of h

theorem execVal_next {a : Byte} {s t : State} (h : execVal a s = .next t) :
    (s.phase = .idle ∧ t = { s with
      exp := a, status := validate s.status s.ansop a,
      plen := if validate s.status s.ansop a = .loc .opcodeMismatch then 0 else s.plen }) ∨
    (s.phase ≠ .idle ∧ t = s.setFlag .busyerr) := whenIdle_next_of h

theorem execFlgClr_next {s t : State} (h : execFlgClr s = .next t) :
    (s.phase = .idle ∧ t = { s with flags := 0 }) ∨ (s.phase ≠ .idle ∧ t = s.setFlag .busyerr) :=
  whenIdle_next_of h

theorem execReservedD_next {s t : State} (h : execReservedD s = .next t) :
    (s.phase = .idle ∧ t = s.setFlag .illcmd) ∨ (s.phase ≠ .idle ∧ t = s.setFlag .busyerr) := whenIdle_next_of h

theorem execReservedE_next {s t : State} (h : execReservedE s = .next t) :
    (s.phase = .idle ∧ t = s.setFlag .illcmd) ∨ (s.phase ≠ .idle ∧ t = s.setFlag .busyerr) := whenIdle_next_of h

theorem execReservedF_next {s t : State} (h : execReservedF s = .next t) :
    (s.phase = .idle ∧ t = s.setFlag .illcmd) ∨ (s.phase ≠ .idle ∧ t = s.setFlag .busyerr) := whenIdle_next_of h

theorem execArgPush_next {a : Byte} {s t : State} (h : execArgPush a s = .next t) :
    (s.phase = .idle ∧ s.arglen = s.params.argMax ∧ t = s.setFlag .argovf) ∨
    (s.phase = .idle ∧ s.fits .argbuf (s.arglen + 1) = true ∧
      t = { s with argbuf := s.argbuf.write s.arglen a, arglen := s.arglen + 1 }) ∨
    (s.phase ≠ .idle ∧ t = s.setFlag .busyerr) := by
  rcases whenIdle_next h with ⟨hi, h⟩ | h
  · split at h
    · exact .inl ⟨hi, ‹_›, by simpa using h.symm⟩
    · split at h
      · exact absurd h (by simp)
      · rename_i s' hs'
        obtain ⟨hf, rfl⟩ := writeBuf_ok_iff.1 hs'
        exact .inr (.inl ⟨hi, by simpa using hf, by simpa [Memory.writeAll] using h.symm⟩)
  · exact .inr (.inr h)

theorem execEnc_next {a : Byte} {s t : State} (h : execEnc a s = .next t) :
    (s.phase = .idle ∧ s.fits .argbuf s.arglen = true ∧
      storeFrame s a (s.elems .argbuf 0 s.arglen) = .ok t) ∨
    (s.phase ≠ .idle ∧ t = s.setFlag .busyerr) := by
  rcases whenIdle_next h with ⟨hi, h⟩ | h
  · exact .inl ⟨hi, buildFrame_ok_iff.1 (finish_next_iff.1 h)⟩
  · exact .inr h

theorem execSend_next {s t : State} (h : execSend s = .next t) :
    (s.phase = .idle ∧ s.fits .txbuf s.txlen = true ∧
      t = State.raise (s.emit (s.elems .txbuf 0 s.txlen)) (if s.draw.txok then .loc .dataSent else .loc .hwErr)) ∨
    (s.phase ≠ .idle ∧ t = s.setFlag .busyerr) := by
  rcases whenIdle_next h with ⟨hi, h⟩ | h
  · split at h
    · exact absurd h (by simp)
    · rename_i f hf
      obtain ⟨hfit, rfl⟩ := readBuf_ok_iff.1 hf
      exact .inl ⟨hi, hfit, by simpa using h.symm⟩
  · exact .inr h

/-- The state of `XACT` when the frame has been handed to the channel (R226). -/
def xactSent (a b : Byte) (s : State) : State :=
  State.emit { s with
    status := .loc .none, ansop := 0x00, plen := 0, exp := b,
    txbuf := s.txbuf.writeAll 0 (encodeFrame a (s.elems .argbuf 0 s.arglen)),
    txlen := (encodeFrame a (s.elems .argbuf 0 s.arglen)).length } (encodeFrame a (s.elems .argbuf 0 s.arglen))

theorem execXact_next {a b : Byte} {s t : State} (h : execXact a b s = .next t) :
    (s.phase = .idle ∧ s.fits .argbuf s.arglen = true ∧
      s.fits .txbuf (encodeFrame a (s.elems .argbuf 0 s.arglen)).length = true ∧
      ((s.draw.txok = true ∧ t = arm { xactSent a b s with mode := .transaction }) ∨
       (s.draw.txok = false ∧ t = (xactSent a b s).raise (.loc .hwErr)))) ∨
    (s.phase ≠ .idle ∧ t = s.setFlag .busyerr) := by
  rcases whenIdle_next h with ⟨hi, h⟩ | h
  · split at h
    · exact absurd h (by simp)
    · rename_i args ha
      obtain ⟨hfit, rfl⟩ := readBuf_ok_iff.1 ha
      split at h
      · exact absurd h (by simp)
      · rename_i s' hs'
        obtain ⟨hfit', rfl⟩ := storeFrame_ok_iff.1 hs'
        refine .inl ⟨hi, hfit, hfit', ?_⟩
        simp only at h
        split at h
        · exact .inl ⟨‹_›, by simpa [xactSent] using h.symm⟩
        · rename_i hd
          exact .inr ⟨by simpa using hd, by simpa [xactSent] using h.symm⟩
  · exact .inr h

theorem execDec_next {s t : State} (h : execDec s = .next t) :
    (s.phase = .idle ∧ s.fits .rxbuf s.rxlen = true ∧
      applyDecoded s (decodeFrame (s.elems .rxbuf 0 s.rxlen)) = .ok t) ∨
    (s.phase ≠ .idle ∧ t = s.setFlag .busyerr) := by
  rcases whenIdle_next h with ⟨hi, h⟩ | h
  · split at h
    · exact absurd h (by simp)
    · rename_i f hf
      obtain ⟨hfit, rfl⟩ := readBuf_ok_iff.1 hf
      exact .inl ⟨hi, hfit, finish_next_iff.1 h⟩
  · exact .inr h

theorem execRxByteStx_next {s t : State} (h : execRxByteStx s = .next t) :
    (s.phase = .hunt ∧ s.fits .rxbuf 1 = true ∧
      t = { s with rxbuf := s.rxbuf.write 0 stx, rxlen := 1, phase := .acc }) ∨
    (s.phase = .acc ∧ accumulate s stx = .ok t) := by
  unfold execRxByteStx at h
  split at h
  · exact absurd h (by simp)
  · split at h
    · exact absurd h (by simp)
    · rename_i s' hs'
      obtain ⟨hf, rfl⟩ := writeBuf_ok_iff.1 hs'
      exact .inl ⟨‹_›, by simpa using hf, by simpa [Memory.writeAll] using h.symm⟩
  · exact .inr ⟨‹_›, finish_next_iff.1 h⟩

theorem execRxByteEtx_next {s t : State} (h : execRxByteEtx s = .next t) :
    (s.phase = .hunt ∧ t = s) ∨
    (s.phase = .acc ∧ s.params.rxCap = some s.rxlen ∧ t = dropFrame s) ∨
    (s.phase = .acc ∧ s.params.rxCap ≠ some s.rxlen ∧ s.fits .rxbuf (s.rxlen + 1) = true ∧
      completeCapture { s with rxbuf := s.rxbuf.write s.rxlen etx, rxlen := s.rxlen + 1, phase := .idle } = .ok t) := by
  unfold execRxByteEtx at h
  split at h
  · exact absurd h (by simp)
  · exact .inl ⟨‹_›, by simpa using h.symm⟩
  · split at h
    · exact .inr (.inl ⟨‹_›, ‹_›, by simpa using h.symm⟩)
    · split at h
      · exact absurd h (by simp)
      · rename_i s' hs'
        obtain ⟨hf, rfl⟩ := appendRx_ok_iff.1 hs'
        exact .inr (.inr ⟨‹_›, ‹_›, hf, finish_next_iff.1 h⟩)

theorem execRxByteOther_next {b : Byte} {s t : State} (h : execRxByteOther b s = .next t) :
    (s.phase = .hunt ∧ t = s) ∨ (s.phase = .acc ∧ accumulate s b = .ok t) := by
  unfold execRxByteOther at h
  split at h
  · exact absurd h (by simp)
  · exact .inl ⟨‹_›, by simpa using h.symm⟩
  · exact .inr ⟨‹_›, finish_next_iff.1 h⟩

end Sys2Proof.Machine
end

