-- ==== Sys2Proof/Laws/Events.lean ====
section
/-! SUPPORT. For the body rows and for each event, everything it can do. -/

namespace Sys2Proof.Machine

/-- A selected body row: the outcome that ended the decoding, or the row's own. -/
theorem deframeRow_ok {s t : State} {row : List Byte → Decoded} (h : deframeRow s row = .ok t) :
    s.fits .rxbuf s.rxlen = true ∧
    ((∃ r, openFrame (s.elems .rxbuf 0 s.rxlen) = .error r ∧ applyDecoded s r = .ok t) ∨
     (∃ b rest, openFrame (s.elems .rxbuf 0 s.rxlen) = .ok (b, rest) ∧ applyDecoded s (row rest) = .ok t)) := by
  unfold deframeRow at h
  split at h
  · exact absurd h (by simp)
  · rename_i f hf
    obtain ⟨hfit, rfl⟩ := readBuf_ok_iff.1 hf
    refine ⟨hfit, ?_⟩
    split at h
    · exact .inl ⟨_, ‹_›, h⟩
    · exact .inr ⟨_, _, ‹_›, h⟩

/-- A tick: nothing in `IDLE`, the deadline, or one less in `TMR`. -/
theorem onTick_cases (s : State) :
    (s.phase = .idle ∧ onTick s = s) ∨
    (s.phase ≠ .idle ∧ s.tmr.toNat ≤ 1 ∧ onTick s = timeOut { s with tmr := 0 }) ∨
    (s.phase ≠ .idle ∧ 2 ≤ s.tmr.toNat ∧ onTick s = { s with tmr := s.tmr - 1 }) := by
  have hlt := s.tmr.isLt
  have key : s.phase ≠ .idle →
      onTick s = if BitVec.ofNat 16 (s.tmr.toNat - 1) = 0 then timeOut { s with tmr := BitVec.ofNat 16 (s.tmr.toNat - 1) }
        else { s with tmr := BitVec.ofNat 16 (s.tmr.toNat - 1) } := by
    intro hp
    unfold onTick
    split
    · exact absurd ‹_› hp
    · rfl
    · rfl
  by_cases hp : s.phase = .idle
  · exact .inl ⟨hp, by simp [onTick, hp]⟩
  · right
    by_cases h1 : s.tmr.toNat ≤ 1
    · have hz : s.tmr.toNat - 1 = 0 := by omega
      exact .inl ⟨hp, h1, by rw [key hp, hz]; simp⟩
    · have hne : BitVec.ofNat 16 (s.tmr.toNat - 1) = s.tmr - 1 := by
        apply BitVec.eq_of_toNat_eq
        simp [BitVec.toNat_sub]
        omega
      have h0 : s.tmr - 1 ≠ 0 := by
        rw [← hne]
        intro h
        have := congrArg BitVec.toNat h
        simp at this
        omega
      exact .inr ⟨hp, by omega, by rw [key hp, hne, if_neg h0]⟩

/-- The channel's offer: nothing, or the oldest byte taken and its class run. -/
theorem onRxByte_cases (s : State) :
    (onRxByte s = .next s ∧ (s.phase = .idle ∨ s.rxq = [])) ∨
    (∃ b q, s.phase ≠ .idle ∧ s.rxq = b :: q ∧ onRxByte s = exec (decodeRxByte b) { s with rxq := q }) := by
  unfold onRxByte
  split
  · exact .inl ⟨rfl, .inl ‹_›⟩
  · exact .inl ⟨rfl, .inr ‹_›⟩
  · exact .inl ⟨rfl, .inr ‹_›⟩
  · exact .inr ⟨_, _, by simp [*], ‹_›, rfl⟩
  · exact .inr ⟨_, _, by simp [*], ‹_›, rfl⟩

/-- What the table of R93 says of a byte. -/
theorem decodeRxByte_cases (b : Byte) :
    (b = 0x02 ∧ decodeRxByte b = .rxByteStx) ∨ (b = 0x03 ∧ decodeRxByte b = .rxByteEtx) ∨
    (b ≠ 0x02 ∧ b ≠ 0x03 ∧ decodeRxByte b = .rxByteOther b) := by
  unfold decodeRxByte
  split
  · exact .inl ⟨‹_›, rfl⟩
  · split
    · exact .inr (.inl ⟨‹_›, rfl⟩)
    · exact .inr (.inr ⟨‹_›, ‹_›, rfl⟩)

@[simp] theorem handleAll_nil (s : State) : handleAll [] s = .next s := rfl

/-- A run goes on after an event that goes on. -/
theorem handleAll_cons {e : Event} {es : List Event} {s t : State} (h : handleEvent e s = .next t) :
    handleAll (e :: es) s = handleAll es t := by
  simp [handleAll, h]

/-- A run that goes on goes on after each of its parts. -/
theorem handleAll_append {es fs : List Event} {s t : State} (h : handleAll es s = .next t) :
    handleAll (es ++ fs) s = handleAll fs t := by
  induction es generalizing s with
  | nil =>
    cases h
    rfl
  | cons e es ih =>
    cases he : handleEvent e s with
    | next u =>
      rw [handleAll_cons he] at h
      rw [List.cons_append, handleAll_cons he, ih h]
    | fault f => simp [handleAll, he] at h
    | refused r => simp [handleAll, he] at h

end Sys2Proof.Machine
end

