-- ==== Sys2Proof/Laws/Catalog.lean ====
section
/-! SUPPORT. What the catalog's functions can do (`45_catalog.md`). -/

namespace Sys2Proof.Machine

theorem entryResult_some {β : Type} {dec : List Byte → Option β} {short : Status} {payload : List Byte} {v : β}
    (h : dec payload = some v) : entryResult dec short (.loc .success) payload = .ok v := by
  simp [entryResult, h]

theorem entryResult_none {β : Type} {dec : List Byte → Option β} {short : Status} {payload : List Byte}
    (h : dec payload = none) : entryResult dec short (.loc .success) payload = .error short := by
  simp [entryResult, h]

theorem entryResult_other {β : Type} {dec : List Byte → Option β} {short st : Status} {payload : List Byte}
    (h : st ≠ .loc .success) : entryResult dec short st payload = .error st := by
  simp [entryResult, h]

/-- A used entry: its argument was not encoded and nothing happened, or its command and the events after it ran and the
host read the result (R250). -/
theorem run_cases {α β : Type} {d : Descriptor α β} {short : Status} {x : α} {waiting : List Event} {s t : State}
    {r : Except Status β} (h : d.run short x waiting s = some (t, r)) :
    (∃ st, d.encodeArgs x = .error st ∧ t = s ∧ r = .error st) ∨
    (∃ args, d.encodeArgs x = .ok args ∧ t.busy = false ∧
      handleAll (pseudoExec d.request d.answer args ++ waiting) s = .next t ∧
      r = entryResult d.decodeResult short t.status (t.elems .payload 0 t.plen)) := by
  unfold Descriptor.run Descriptor.issue at h
  cases ha : d.encodeArgs x with
  | error st =>
    left
    simp only [ha, Option.some.injEq, Prod.mk.injEq] at h
    exact ⟨st, rfl, h.1.symm, h.2.symm⟩
  | ok args =>
    right
    simp only [ha] at h
    split at h
    · rename_i u hu
      cases hb : u.busy with
      | true => simp [Descriptor.outcome, hb] at h
      | false =>
        obtain ⟨rfl, rfl⟩ : u = t ∧ _ = r := by simpa [Descriptor.outcome, hb] using h
        exact ⟨args, rfl, hb, hu, rfl⟩
    · exact absurd h (by simp)
    · exact absurd h (by simp)

/-- Too long a payload is reported and no command is issued (R255). -/
theorem enqueue_too_long {q e : Byte} {short : Status} {id : Word} {payload : List Byte} {waiting : List Event}
    {s : State} (h : payloadUserMax < payload.length) :
    enqueue q e short id payload waiting s = some (s, .loc .payloadTooLong) := by
  have ha : enqueueArgs id payload = .error (.loc .payloadTooLong) := if_neg (by omega)
  simp [enqueue, Descriptor.run, Descriptor.issue, payloadEnqueue, ha, checkEcho]

/-- More records allowed than there are bytes changes nothing. -/
theorem walk_bound {β : Type} (t : RecordTable β) :
    ∀ (n : Nat) (payload : List Byte), payload.length ≤ n → t.walk n payload = t.records payload := by
  intro n
  induction n using Nat.strongRecOn with
  | _ n ih =>
    intro payload hn
    match n, payload, hn with
    | n, [], _ => cases n <;> simp [RecordTable.records, RecordTable.walk]
    | n + 1, tag :: rest, hn =>
      simp only [List.length_cons] at hn
      simp only [RecordTable.records, List.length_cons, RecordTable.walk]
      split
      · rw [ih n (by omega) _ (by simp; omega)]
        by_cases he : rest.length = n
        · rw [he, ih n (by omega) _ (by simp; omega)]
        · rw [ih rest.length (by omega) _ (by simp)]
      · rfl

@[simp] theorem records_nil {β : Type} (t : RecordTable β) : t.records [] = some [] := rfl

/-- A whole record is taken off the front (R258). -/
theorem records_record {β : Type} {t : RecordTable β} {tag : Byte} {value rest : List Byte}
    (h : t.width tag = value.length) :
    t.records (tag :: (value ++ rest)) = (t.records rest).map fun rs => (tag, value) :: rs := by
  have hb := walk_bound t (value ++ rest).length rest (by simp)
  simp [RecordTable.records, RecordTable.walk, h] at hb ⊢
  rw [hb]

/-- A record that is cut off leaves nothing (R251). -/
theorem records_cut {β : Type} {t : RecordTable β} {tag : Byte} {rest : List Byte} (h : rest.length < t.width tag) :
    t.records (tag :: rest) = none := by
  simp [RecordTable.records, RecordTable.walk]
  omega

/-- A field is empty exactly where no record has its tag. -/
theorem fieldValue_eq_none_iff {tag : Byte} {rs : List (Byte × List Byte)} :
    fieldValue tag rs = none ↔ ∀ r ∈ rs, r.1 ≠ tag := by
  induction rs with
  | nil => simp [fieldValue]
  | cons r rs ih =>
    rw [List.forall_mem_cons, ← ih]
    cases hv : fieldValue tag rs <;> simp [fieldValue, hv]

/-- There is a value for every field exactly where every field's tag came. -/
theorem fieldValues_ne_none_iff {rs : List (Byte × List Byte)} {tags : List Byte} :
    fieldValues rs tags ≠ none ↔ ∀ tag ∈ tags, ∃ r ∈ rs, r.1 = tag := by
  induction tags with
  | nil => simp [fieldValues]
  | cons tag tags ih =>
    rw [List.forall_mem_cons, ← ih]
    have hv := not_congr (fieldValue_eq_none_iff (tag := tag) (rs := rs))
    push Not at hv
    rw [← hv]
    cases hf : fieldValue tag rs <;> cases hs : fieldValues rs tags <;> simp [fieldValues, hf, hs]

/-- All or nothing (R251): a structure comes out exactly where the records are whole and every field's tag is among
them, and it is built of a value for every field. -/
theorem decode_eq_some_iff {β : Type} {t : RecordTable β} {payload : List Byte} {v : β} :
    t.decode payload = some v ↔
      ∃ rs vs, t.records payload = some rs ∧ fieldValues rs t.tags = some vs ∧ t.build vs = v := by
  unfold RecordTable.decode
  cases t.records payload <;> simp

/-- A field whose tag does not come leaves no structure (R251). -/
theorem decode_missing {β : Type} {t : RecordTable β} {payload : List Byte} {rs : List (Byte × List Byte)} {tag : Byte}
    (hr : t.records payload = some rs) (ht : tag ∈ t.tags) (hm : ∀ r ∈ rs, r.1 ≠ tag) : t.decode payload = none := by
  have hn : fieldValues rs t.tags = none := by
    by_contra h
    obtain ⟨r, hrs, rfl⟩ := fieldValues_ne_none_iff.1 h tag ht
    exact hm r hrs rfl
  simp [RecordTable.decode, hr, hn]

end Sys2Proof.Machine
end

