-- ==== Sys2Proof/Laws/PerInstr.lean ====
section
/-! SUPPORT. Statements about every instruction as syntax, one lemma per constructor. -/

namespace Sys2Proof.Laws

/-- The encoding of an instruction has the width of the format it stands in. -/
def EncodingFits.Statement (i : Instr) : Prop := (encode i).2 < 2 ^ (encode i).1.width

theorem EncodingFits.nop : EncodingFits.Statement .nop := (encodeCmd .nop).isLt
theorem EncodingFits.crcClr : EncodingFits.Statement .crcClr := (encodeCmd .crcClr).isLt
theorem EncodingFits.crcUpd (a : Byte) : EncodingFits.Statement (.crcUpd a) := (encodeCmd (.crcUpd a)).isLt
theorem EncodingFits.argClr : EncodingFits.Statement .argClr := (encodeCmd .argClr).isLt
theorem EncodingFits.argPush (a : Byte) : EncodingFits.Statement (.argPush a) := (encodeCmd (.argPush a)).isLt
theorem EncodingFits.enc (a : Byte) : EncodingFits.Statement (.enc a) := (encodeCmd (.enc a)).isLt
theorem EncodingFits.send : EncodingFits.Statement .send := (encodeCmd .send).isLt
theorem EncodingFits.capt : EncodingFits.Statement .capt := (encodeCmd .capt).isLt
theorem EncodingFits.dec : EncodingFits.Statement .dec := (encodeCmd .dec).isLt
theorem EncodingFits.val (a : Byte) : EncodingFits.Statement (.val a) := (encodeCmd (.val a)).isLt
theorem EncodingFits.xact (a b : Byte) : EncodingFits.Statement (.xact a b) := (encodeCmd (.xact a b)).isLt
theorem EncodingFits.tmoSet (a b : Byte) : EncodingFits.Statement (.tmoSet a b) := (encodeCmd (.tmoSet a b)).isLt
theorem EncodingFits.flgClr : EncodingFits.Statement .flgClr := (encodeCmd .flgClr).isLt
theorem EncodingFits.reservedD : EncodingFits.Statement .reservedD := (encodeCmd .reservedD).isLt
theorem EncodingFits.reservedE : EncodingFits.Statement .reservedE := (encodeCmd .reservedE).isLt
theorem EncodingFits.reservedF : EncodingFits.Statement .reservedF := (encodeCmd .reservedF).isLt
theorem EncodingFits.wireErrorAnswer : EncodingFits.Statement .wireErrorAnswer := by unfold EncodingFits.Statement; decide
theorem EncodingFits.wireAnswer (op : Byte) : EncodingFits.Statement (.wireAnswer op) := op.isLt
theorem EncodingFits.wireRtcReadRequest : EncodingFits.Statement .wireRtcReadRequest := by unfold EncodingFits.Statement; decide
theorem EncodingFits.wireRtcReadAnswer : EncodingFits.Statement .wireRtcReadAnswer := by unfold EncodingFits.Statement; decide
theorem EncodingFits.rxByteStx : EncodingFits.Statement .rxByteStx := by unfold EncodingFits.Statement; decide
theorem EncodingFits.rxByteEtx : EncodingFits.Statement .rxByteEtx := by unfold EncodingFits.Statement; decide
theorem EncodingFits.rxByteOther (b : Byte) : EncodingFits.Statement (.rxByteOther b) := b.isLt

end Sys2Proof.Laws
end

