-- ==== Sys2Proof/Tests/Slice0.lean ====
section
/-! SUPPORT. Tests with results from the spec (the words of `30_encoding.md` R91, the vectors of
`95_test_vectors.md`), and for every statement with hypotheses a witness that they can be met. -/

namespace Sys2Proof.Tests

open Sys2Proof.Machine

/-! ### Helpers -/

/-- The state that an outcome goes on with. -/
def nextState : Result → Option State
  | .next t => some t
  | .fault _ | .refused _ => none

/-- One field of the next state. -/
def after {α : Type} (r : Result) (g : State → α) : Option α := (nextState r).map g

/-- The characters of a frame between its markers. -/
def wire (s : String) : List Byte := [0x02] ++ s.toList.map (fun c => BitVec.ofNat 8 c.toNat) ++ [0x03]

/-- A draw that succeeds. -/
def sentOk : TxDraw := { txok := true, taken := 0 }

/-- A draw that fails after `n` bytes. -/
def sentPart (n : Nat) : TxDraw := { txok := false, taken := n }

/-- A capture in `HUNT`, `n` ticks before its deadline. -/
def hunting (n : Word) : State := { State.reset with phase := .hunt, tmr := n }

/-- A capture in `ACC` holding `f`, with `q` still in the channel, `n` ticks before its deadline. -/
def receiving (f q : List Byte) (n : Word) : State := { holdingFrame .reset f with phase := .acc, rxq := q, tmr := n }

/-- A transaction that expects `e`, in `ACC`. -/
def inTransaction (e : Byte) (f q : List Byte) : State := { receiving f q 5 with mode := .transaction, exp := e }

/-- A buffer of six bytes, all of them taken. -/
def fullBuffer : State :=
  { receiving [0x02, 0x39, 0x37, 0x30, 0x30, 0x30] [0x41] 5 with
    params := { Config.suggested with rxCap := some 6 } }

/-- A frame already captured. -/
def holding (f : List Byte) : State := holdingFrame .reset f

/-- Arguments already pushed. -/
def withArgs (bs : List Byte) : State := { State.reset with argbuf := State.reset.argbuf.writeAll 0 bs, arglen := bs.length }

/-- A decoded answer that waits for `VAL`. -/
def decoded (op : Byte) : State := { State.reset with status := .loc .dataReceived, ansop := op }

/-! ### Well-formed terms -/

theorem test_answer_ff_is_ill_formed : (Instr.wireAnswer 0xFF).wf = false := by decide
theorem test_answer_97_is_ill_formed : (Instr.wireAnswer 0x97).wf = false := by decide
theorem test_other_stx_is_ill_formed : (Instr.rxByteOther 0x02).wf = false := by decide
theorem test_other_etx_is_ill_formed : (Instr.rxByteOther 0x03).wf = false := by decide

/-! ### Decoding, every row: the words are written from R91, R93, R106, R108 -/

theorem test_decode_nop : decodeCmd 0b0000_1010_1011_1100_1101 = .nop := by decide
theorem test_decode_crcClr : decodeCmd 0b0001_0000_0000_0000_0000 = .crcClr := by decide
theorem test_decode_crcUpd : decodeCmd 0b0010_0011_0001_0000_0000 = .crcUpd 0x31 := by decide
theorem test_decode_argClr : decodeCmd 0b0011_0000_0000_0000_0000 = .argClr := by decide
theorem test_decode_argPush : decodeCmd 0b0100_0000_0011_0000_0000 = .argPush 0x03 := by decide
theorem test_decode_enc : decodeCmd 0b0101_0000_0101_0000_0000 = .enc 0x05 := by decide
theorem test_decode_send : decodeCmd 0b0110_0000_0000_0000_0000 = .send := by decide
theorem test_decode_capt : decodeCmd 0b0111_0000_0000_0000_0000 = .capt := by decide
theorem test_decode_dec : decodeCmd 0b1000_0000_0000_0000_0000 = .dec := by decide
theorem test_decode_val : decodeCmd 0b1001_1000_0101_0000_0000 = .val 0x85 := by decide
theorem test_decode_xact : decodeCmd 0b1010_0001_0111_1001_0111 = .xact 0x17 0x97 := by decide
theorem test_decode_tmoSet : decodeCmd 0b1011_0000_0011_1110_1000 = .tmoSet 0x03 0xE8 := by decide
theorem test_decode_flgClr : decodeCmd 0b1100_0000_0000_0000_0000 = .flgClr := by decide
theorem test_decode_reservedD : decodeCmd 0b1101_0001_0010_0011_0100 = .reservedD := by decide
theorem test_decode_reservedE : decodeCmd 0b1110_0000_0000_0000_0000 = .reservedE := by decide
theorem test_decode_reservedF : decodeCmd 0b1111_1111_1111_1111_1111 = .reservedF := by decide
theorem test_decode_wireErrorAnswer : decodeTableWord 8 0b1111_1111 = some .wireErrorAnswer := by decide
theorem test_decode_wireAnswer : decodeTableWord 8 0b1000_0101 = some (.wireAnswer 0x85) := by decide
theorem test_decode_wireRtcReadRequest : decodeTableWord 8 0b0001_0111 = some .wireRtcReadRequest := by decide
theorem test_decode_wireRtcReadAnswer : decodeTableWord 8 0b1001_0111 = some .wireRtcReadAnswer := by decide
theorem test_decode_rxByteStx : decodeTableWord 8 0b0000_0010 = some .rxByteStx := by decide
theorem test_decode_rxByteEtx : decodeTableWord 8 0b0000_0011 = some .rxByteEtx := by decide
theorem test_decode_rxByteOther : decodeTableWord 8 0b0100_0001 = some (.rxByteOther 0x41) := by decide
theorem test_decode_wide_words_rejected :
    decode .cmd20 0x100000 = .error .wordTooWide ∧ decode .rxStream 0x100 = .error .wordTooWide ∧
    decode .rxBody 0x100 = .error .wordTooWide ∧ decode .txBody 0x117 = .error .wordTooWide := by decide
theorem test_decode_other_requests_rejected : decode .txBody 0x25 = .error .noTransmitRow := by decide

/-! ### The codec: V1, V7, V10 to V13, V16 to V33 -/

theorem test_crc_check_value : crc16 [0x31, 0x32, 0x33, 0x34, 0x35, 0x36, 0x37, 0x38, 0x39] = 0x29B1 := by decide
theorem test_crc_single_byte : crc16 [0x17] = 0x8326 := by decide
theorem test_encode_v10 : encodeFrame 0x17 [] = wire "172683" := by decide
theorem test_encode_v11 : encodeFrame 0x97 [0, 0, 0, 0] = wire "97000000005250" := by decide
theorem test_encode_v12 : encodeFrame 0x05 [3, 0, 1] = wire "05030001F471" := by decide
theorem test_decode_v17 : decodeFrame (wire "97000000004250") = crcFailed := by decide
theorem test_decode_v18 : decodeFrame (wire "9700000000525u") = malformed := by decide
theorem test_decode_v19 : decodeFrame (wire "ff01250944") = malformed := by decide
theorem test_decode_v24 : decodeFrame (wire "FF012599D013") =
    { status := .terminal 0x2501, ansop := 0xFF, payload := [], malf := false } := by decide
theorem test_decode_v27 : decodeFrame (wire "FF00FF") = malformed := by decide
theorem test_decode_v28 : decodeFrame (wire "FFFF") = malformed := by decide
theorem test_decode_v29 : decodeFrame (wire "AB12") = crcFailed := by decide
theorem test_decode_v31 : decodeFrame (wire "970000000052500") = malformed := by decide
theorem test_decode_v33 : decodeFrame [] = malformed := by decide
theorem test_catalog_v4 : rtcRead.decodeResult [0, 0, 0, 0] = some 1514764800 := by decide
theorem test_catalog_v5 :
    enqueueStatus (.loc .none) 0x1234 (.loc .success) [0x35, 0x12] = .loc .payloadIdCheckFailed := by decide
theorem test_catalog_r252 : configWriteArgs
    { payloadAck := true, geolocation := true, ephemeris := false, deepSleep := false, ackPinMask := false,
      resetPinMask := true } = [0x03, 0x00, 0x02] := by decide
theorem test_catalog_r261 : (rtcRead.run (.loc .none) () (pseudoRxs (wire "97000000005250")) .reset).map
    (fun r => (r.1.sent.map (·.frame), r.2.toOption)) = some ([wire "172683"], some 1514764800) := by decide
theorem test_catalog_waits : (rtcRead.run (.loc .none) () (pseudoRxs (wire "97000000005250").dropLast) .reset).isNone =
    true := by decide
theorem test_catalog_p7 : (enqueue 0x25 0xA5 (.loc .none) 0x1234 [0x41] (pseudoRxs (wire "A53512E352")) .reset).map
    (·.2) = some (.loc .payloadIdCheckFailed) := by decide
theorem test_catalog_r255 : enqueue 0x25 0xA5 (.loc .none) 0 (List.replicate 161 0) [] .reset =
    some (.reset, .loc .payloadTooLong) := enqueue_too_long (by rw [List.length_replicate]; decide)

/-- Tags 1 and 2, of one and two bytes, have the two fields; every other tag is one byte and skipped. -/
def sampleRecords : RecordTable (List (List Byte)) where
  width tag := if tag = 2 then 2 else 1
  tags := [1, 2]
  build vs := vs

theorem test_records_r258 : sampleRecords.decode [9, 7, 2, 5, 6, 1, 4] = some [[4], [5, 6]] := by decide
theorem test_records_r251 : sampleRecords.decode [] = none ∧ sampleRecords.decode [2, 5, 6] = none ∧
    sampleRecords.decode [2, 5, 6, 1, 4, 2, 5] = none := by decide

/-! ### One step each -/

theorem test_nop_v45 : nextState (exec .nop .reset) = some .reset := by decide
theorem test_crcClr_v8 : after (exec .crcClr { State.reset with crc := 0x1234 }) (·.crc) = some 0xFFFF := by decide
theorem test_crcUpd_v8 : after (exec (.crcUpd 0x17) .reset) (·.crc) = some 0x8326 := by decide
theorem test_argClr_v14 : after (exec .argClr (withArgs [3, 0, 1])) (·.args) = some [] := by decide
theorem test_argPush_v14 : after (exec (.argPush 1) (withArgs [3, 0])) (·.args) = some [3, 0, 1] := by decide
theorem test_enc_v14 : after (exec (.enc 5) (withArgs [3, 0, 1])) (fun t => (t.elems .txbuf 0 t.txlen, t.arglen)) =
    some (wire "05030001F471", 3) := by decide
theorem test_send_fails_v15 : after (exec .send { State.reset with draw := sentPart 0 }) (·.status) =
    some (.loc .hwErr) := by decide
theorem test_capt_v37 : after (exec .capt { State.reset with timeout := 5 }) (fun t => (t.phase, t.tmr, t.status)) =
    some (.hunt, 5, .loc .none) := by decide
theorem test_capt_v42 : after (exec .capt { State.reset with timeout := 0 }) (fun t => (t.phase, t.status)) =
    some (.idle, .loc .timeout) := by decide
theorem test_dec_v23 : after (exec .dec (holding (wire "FF01250944"))) (fun t => (t.status, t.ansop, t.plen)) =
    some (.terminal 0x2501, 0xFF, 0) := by decide
theorem test_val_v36 : after (exec (.val 0xAA) { decoded 0xAB with plen := 2 }) (fun t => (t.status, t.plen)) =
    some (.loc .opcodeMismatch, 0) := by decide
theorem test_xact_p2 : after (exec (.xact 0x17 0x97) .reset)
    (fun t => (t.phase, t.mode, t.tmr, t.exp, t.sent.map (·.frame))) =
    some (.hunt, .transaction, 1000, 0x97, [wire "172683"]) := by decide
theorem test_tmoSet_v37 : after (exec (.tmoSet 0x03 0xE8) .reset) (·.timeout) = some 1000 := by decide
theorem test_flgClr : after (exec .flgClr { State.reset with flags := 0b10101 }) (·.flags) = some 0 := by decide
theorem test_reservedD_v45 : after (exec .reservedD .reset) (·.flags) = some 0b10000 := by decide
theorem test_reservedE : after (exec .reservedE .reset) (·.flags) = some 0b10000 := by decide
theorem test_reservedF_busy : after (exec .reservedF (hunting 5)) (·.flags) = some 0b01000 := by decide
theorem test_wireErrorAnswer_v25 : after (exec .wireErrorAnswer (holding (wire "FF0000FF03"))) (·.status) =
    some (.terminal 0) := by decide
theorem test_wireAnswer_v22 : after (exec (.wireAnswer 0xAB) (holding (wire "ABCDEF38ED")))
    (fun t => (t.status, t.ansop, t.result)) = some (.loc .dataReceived, 0xAB, [0xCD, 0xEF]) := by decide
theorem test_wireRtcReadRequest_v10 : after (exec .wireRtcReadRequest .reset) (fun t => t.elems .txbuf 0 t.txlen) =
    some (wire "172683") := by decide
theorem test_wireRtcReadAnswer_v21 : after (exec .wireRtcReadAnswer (holding (wire "9780510100A5D7")))
    (fun t => (t.status, t.ansop, t.result)) =
    some (.loc .dataReceived, 0x97, [0x80, 0x51, 0x01, 0x00]) := by decide
theorem test_rxByteStx_v38 : after (exec .rxByteStx (hunting 5)) (fun t => (t.phase, t.frame)) =
    some (.acc, [0x02]) := by decide
theorem test_rxByteStx_in_acc_is_data : after (exec .rxByteStx (receiving [0x02, 0x39] [] 5)) (·.frame) =
    some [0x02, 0x39, 0x02] := by decide
theorem test_rxByteEtx_v39 : after (exec .rxByteEtx (receiving (wire "85DD20").dropLast [] 5))
    (fun t => (t.phase, t.rxlen, t.status, t.ansop)) = some (.idle, 8, .loc .dataReceived, 0) := by decide
theorem test_rxByteEtx_v40 : after (exec .rxByteEtx (receiving [0x02] [] 5)) (fun t => (t.status, t.rxlen)) =
    some (.loc .timeout, 0) := by decide
theorem test_rxByteOther_v43 : after (exec (.rxByteOther 0x41) fullBuffer) (fun t => (t.phase, t.rxlen, t.flags)) =
    some (.hunt, 0, 0b00010) := by decide
theorem test_tick_v41 : after (handleEvent .tick (hunting 1)) (fun t => (t.phase, t.tmr, t.status)) =
    some (.idle, 0, .loc .timeout) := by decide
theorem test_reset_v46 : after (handleEvent .reset { receiving [0x02, 0x39, 0x37] [] 3 with flags := 0b01000 })
    (fun t => (t.phase, t.rxlen, t.flags, t.timeout)) = some (.idle, 0, 0, 1000) := by decide
theorem test_placed_command_runs : after (step (State.reset.withFetchWord 24 0xA1797)) (·.exp) = some 0x97 := by decide
theorem test_placed_answer_runs : after (step (State.reset.withFetchWord 8 0xFF)) (·.status) = some (.terminal 0) := by
  decide
theorem test_placed_byte_runs : after (step (State.reset.withFetchWord 8 0x02)) (·.frame) = some [0x02] := by decide
theorem test_placed_request_runs : after (step (State.reset.withFetchWord 8 0x17)) (·.txlen) = some 8 := by decide

/-! ### Witnesses: for each statement with hypotheses, states and operands that meet them -/

theorem hunting_inv : (hunting 2).Inv where
  params_ok := by decide
  arglen_fits := by decide
  txlen_fits := by decide
  txlen_shape := by decide
  rxlen_fits := by decide
  plen_fits := by decide
  buffers_wf := by intro sp; cases sp <;> decide
  cells_exist := by intro sp; cases sp <;> decide
  hunt_empty := by decide
  acc_frame := by decide
  armed := by decide
  mismatch_clear := by decide
  transaction_clear := by decide

/-- The last byte of an answer is still to come, and so is a later one. -/
def lastByte : State := inTransaction 0x97 (wire "97000000005250").dropLast [0x03, 0x41]

theorem lastByte_inv : lastByte.Inv where
  params_ok := by decide
  arglen_fits := by decide
  txlen_fits := by decide
  txlen_shape := by decide
  rxlen_fits := by decide
  plen_fits := by decide
  buffers_wf := by intro sp; cases sp <;> decide
  cells_exist := by intro sp; cases sp <;> decide
  hunt_empty := by decide
  acc_frame := by decide
  armed := by decide
  mismatch_clear := by decide
  transaction_clear := by decide

theorem fullBuffer_inv : fullBuffer.Inv where
  params_ok := by decide
  arglen_fits := by decide
  txlen_fits := by decide
  txlen_shape := by decide
  rxlen_fits := by decide
  plen_fits := by decide
  buffers_wf := by intro sp; cases sp <;> decide
  cells_exist := by intro sp; cases sp <;> decide
  hunt_empty := by decide
  acc_frame := by decide
  armed := by decide
  mismatch_clear := by decide
  transaction_clear := by decide

theorem reset_inv : State.reset.Inv where
  params_ok := by decide
  arglen_fits := by decide
  txlen_fits := by decide
  txlen_shape := by decide
  rxlen_fits := by decide
  plen_fits := by decide
  buffers_wf := by intro sp; cases sp <;> decide
  cells_exist := by intro sp; cases sp <;> decide
  hunt_empty := by decide
  acc_frame := by decide
  armed := by decide
  mismatch_clear := by decide
  transaction_clear := by decide

/-- EncodedInstructionsDecodeBack: at both ends of the catch-all rows' operands. -/
theorem witness_encoding : (Instr.wireAnswer 0x00).wf = true ∧ (Instr.wireAnswer 0xFE).wf = true ∧
    (Instr.wireAnswer 0x96).wf = true ∧ (Instr.rxByteOther 0x04).wf = true ∧ (Instr.rxByteOther 0xFF).wf = true ∧
    (Instr.xact 0xFF 0xFF).wf = true := by decide

/-- EveryCommandWordSelectsExactlyOneRow, last clause: the least and the greatest reserved word. -/
theorem witness_reserved : 0xD0000 ≤ (0xD0000 : CmdWord).toNat ∧ 0xD0000 ≤ (0xFFFFF : CmdWord).toNat ∧
    State.reset.phase = .idle := by decide

/-- UnusedOperandFieldsAreIgnored: a command that uses neither field, one field, both. -/
theorem witness_ignored_fields :
    ((0x1 : BitVec 4) ∉ [0x2, 0x4, 0x5, 0x9, 0xA, 0xB] ∧ (0x1 : BitVec 4) ∉ [0xA, 0xB]) ∧
    ((0x9 : BitVec 4) ∈ [0x2, 0x4, 0x5, 0x9, 0xA, 0xB] ∧ (0x9 : BitVec 4) ∉ [0xA, 0xB]) ∧
    (0xA : BitVec 4) ∈ [0xA, 0xB] := by decide

/-- StepRunsThePendingCommand. -/
theorem witness_pending_command :
    (State.reset.withFetchWord 24 0xA1797).pending = [.cmd 0xA1797 sentOk] ∧
    decode .cmd20 (0xA1797 : CmdWord).toNat = .ok (.xact 0x17 0x97) := ⟨by decide, by rfl⟩

/-- StepRunsTheOfferedByte: in `HUNT`, in `ACC`; then in `IDLE`, and with nothing queued. -/
theorem witness_offered_byte :
    ((State.reset.withFetchWord 8 0x02).pending = [.rxByte] ∧ (State.reset.withFetchWord 8 0x02).phase ≠ .idle ∧
      (State.reset.withFetchWord 8 0x02).rxq = [0x02]) ∧
    (lastByte.phase ≠ .idle ∧ lastByte.rxq = 0x03 :: [0x41]) ∧
    ({ State.reset with pending := [.rxByte] }.phase = .idle ∧ State.reset.rxq = []) ∧
    decode .rxStream (0x02 : Byte).toNat = .ok .rxByteStx := ⟨by decide, by decide, by decide, by rfl⟩

/-- StepTakesTicksResetsAndFreeEvents. -/
theorem witness_other_events : State.reset.pending = [] ∧
    { State.reset with pending := [.tick] }.pending = .tick :: [] ∧
    { State.reset with pending := [.reset] }.pending = .reset :: [] ∧
    { State.reset with pending := [.arrive 7] }.pending = .arrive 7 :: [] := by decide

/-- Every statement with a clause for `IDLE` and one for the other phases, and the words with their code. -/
theorem witness_phases : State.reset.phase = .idle ∧ (hunting 2).phase ≠ .idle ∧ lastByte.phase ≠ .idle ∧
    (∀ c : Fin 16, (cmdWord (BitVec.ofNat 4 c.val) 0xFF 0x00).extractLsb' 16 4 = BitVec.ofNat 4 c.val) := by decide

/-- CrcClrSetsTheInitialValue and ArgClrEmptiesTheArguments: their clause over two states. -/
theorem witness_clears : exec .crcClr .reset = .next { State.reset with crc := 0xFFFF } ∧
    exec .argClr .reset = .next { State.reset with arglen := 0 } := ⟨by rfl, by rfl⟩

/-- OneChangedByteChangesTheCrc. -/
theorem witness_changed_byte : (0x00 : Byte) ≠ 0x80 := by decide

/-- HexDigitsRoundTrip: the ends of both ranges, and characters just outside them. -/
theorem witness_hex : (9#4).toNat ≤ 9 ∧ 10 ≤ (10#4).toNat ∧ nib 0x30 = some 0 ∧ nib 0x39 = some 9 ∧
    nib 0x41 = some 10 ∧ nib 0x46 = some 15 ∧ nib 0x2F = none ∧ nib 0x3A = none ∧ nib 0x40 = none ∧
    nib 0x47 = none ∧ nib 0x61 = none ∧ hexU 0x1F = [0x31, 0x46] := by decide

/-- CrcFieldSwapsItsBytes. -/
theorem witness_crc_field : unhex 0x38 0x33 = some 0x83 ∧ unhex 0x32 0x36 = some 0x26 ∧
    crcValue [0x32, 0x36, 0x38, 0x33] = some 0x8326 := by decide

/-- EncodedFrameLayout: the first and the last body byte, the first and the last interior byte. -/
theorem witness_layout : ((5 : Byte) :: [3, 0, 1])[0]? = some 5 ∧ ((5 : Byte) :: [3, 0, 1])[3]? = some 1 ∧
    1 < 2 * ((5 : Byte) :: [3, 0, 1]).length + 5 ∧ 12 < 2 * ((5 : Byte) :: [3, 0, 1]).length + 5 := by decide

/-- EncodedFramesDecodeBack, CrcFieldTamperingIsDetected, OnlyAnswersCarryPayload. -/
theorem witness_round_trip : (0xFE : Byte) ≠ 0xFF ∧ ([] : List Byte).length < 2 ∧ ([7] : List Byte).length < 2 ∧
    0 < 4 ∧ 3 < 4 ∧ 0 < 8 ∧ 7 < 8 ∧ (decodeFrame (wire "ABCDEF38ED")).payload ≠ [] := by decide

/-- DecodeTakesTheFirstOutcome, clause by clause. -/
theorem witness_decode_order :
    ¬ (6 ≤ (wire "FFF").length ∧ (wire "FFF").head? = some 0x02 ∧ (wire "FFF").getLast? = some 0x03) ∧
    (4 ≤ [0x41, 0x41, 0x41, 0x41, (0x41 : Byte)].length ∧ [0x41, 0x41, 0x41, 0x41, (0x41 : Byte)].length % 2 = 1) ∧
    (∃ c ∈ [0x41, 0x41, 0x41, (0x47 : Byte)], nib c = none) ∧
    (∀ c ∈ [0x41, 0x41, 0x41, (0x46 : Byte)], nib c ≠ none) ∧ (0x12AB : Word) ≠ crc16 [] ∧
    ([9] : List Byte).length < 2 ∧ (0x97 : Byte) ≠ 0xFF := by decide

/-- ArgPushAppendsOrDrops, EncBuildsTheFrame, XactSendsThenArms: the last room for an argument, and none. -/
theorem witness_arguments :
    ({ withArgs [1, 2] with params := { Config.suggested with argMax := 2 } }.arglen = 2 ∧
      { withArgs [1, 2] with params := { Config.suggested with argMax := 2 } }.params.argMax = 2) ∧
    (withArgs [1, 2]).arglen < (withArgs [1, 2]).params.argMax ∧
    { State.reset with arglen := 254 }.arglen < State.reset.params.argMax ∧
    { State.reset with arglen := 255 }.arglen = State.reset.params.argMax ∧
    State.reset.arglen ≤ State.reset.params.argMax := by decide

/-- SendEmitsTheStoredFrame: an empty buffer and the longest frame; draws that succeed and that fail. -/
theorem witness_send : State.reset.txlen = 0 ∧ State.reset.txlen ≤ State.reset.params.txMax ∧
    { State.reset with txlen := 518 }.txlen ≤ State.reset.params.txMax ∧ State.reset.draw.txok = true ∧
    (sentPart 3).txok = false := by decide

/-- XactSendsThenArms, its three ways. -/
theorem witness_xact : { State.reset with draw := sentPart 3 }.draw.txok = false ∧
    (State.reset.draw.txok = true ∧ { State.reset with timeout := 0 }.timeout = 0) ∧
    (State.reset.timeout ≠ 0 ∧ { State.reset with timeout := 1 }.timeout ≠ 0) := by decide

/-- OnlySendAndXactEmit, RegistersChangeOnlyByTheirWriters: events that go on. -/
theorem witness_send_goes_on :
    after (handleEvent (.cmd 0x60000 sentOk) .reset) (·.sent.length) = some 1 ∧
    after (handleEvent (.cmd 0xA1797 sentOk) .reset) (·.sent.length) = some 1 ∧
    after (handleEvent .tick .reset) (·.sent.length) = some 0 := by decide

/-- HuntStartsOnStxOnly, FullBufferDropsTheFrame, EveryOtherByteIsAccumulated, EtxEndsTheCapture. -/
theorem witness_capture :
    ((hunting 2).phase = .hunt ∧ (hunting 2).fits .rxbuf 1 = true ∧ (0x41 : Byte) ≠ 0x02 ∧ (0x41 : Byte) ≠ 0x03) ∧
    (fullBuffer.phase = .acc ∧ fullBuffer.params.rxCap = some fullBuffer.rxlen) ∧
    (lastByte.phase = .acc ∧ lastByte.room = true ∧ 6 ≤ lastByte.rxlen + 1 ∧ lastByte.mode = .transaction) ∧
    ((receiving [2, 0x30, 0x30, 0x30] [] 1).room = true ∧ (receiving [2, 0x30, 0x30, 0x30] [] 1).rxlen + 1 < 6) ∧
    ((receiving [2, 0x30, 0x30, 0x30, 0x30] [] 1).room = true ∧
      6 ≤ (receiving [2, 0x30, 0x30, 0x30, 0x30] [] 1).rxlen + 1 ∧
      (receiving [2, 0x30, 0x30, 0x30, 0x30] [] 1).mode = .standalone) ∧
    { State.reset with rxlen := 1023 }.room = true := by decide

/-- TickCountsDownToTheDeadline. -/
theorem witness_tick : 2 ≤ (hunting 2).tmr.toNat ∧ 2 ≤ (hunting 0xFFFF).tmr.toNat ∧ (hunting 1).tmr.toNat = 1 := by
  decide

/-- ArmedCaptureEndsByItsDeadline: with and without an `ETX` among the bytes, at the deadline and one tick before. -/
theorem witness_deadline :
    (hunting 2).Inv ∧ (hunting 2).phase ≠ .idle ∧
    (∀ e ∈ [Event.tick, .arrive 2, .rxByte, .tick], e = .tick ∨ e = .rxByte ∨ ∃ b, e = .arrive b) ∧
    (after (handleAll [.tick, .arrive 2] (hunting 2)) (·.rxq.head?) = some (some 0x02)) ∧
    (hunting 2).tmr.toNat ≤ [Event.tick, .arrive 2, .rxByte, .tick].count .tick ∧
    [Event.tick, .arrive 2, .rxByte].count .tick < (hunting 2).tmr.toNat ∧
    lastByte.Inv ∧ lastByte.phase ≠ .idle ∧ lastByte.rxq.head? = some 0x03 :=
  ⟨hunting_inv, by decide, by simp, by decide, by decide, by decide, lastByte_inv, by decide, by decide⟩

theorem witness_no_etx_taken : ∀ before later u, [Event.tick, .arrive 2, .rxByte, .tick] = before ++ .rxByte :: later →
    handleAll before (hunting 2) = .next u → u.phase = .acc → u.rxq.head? ≠ some 0x03 := by
  intro before later u h hu
  match before, h with
  | [], h => simp at h
  | [_], h => simp at h
  | [_, _], h =>
    obtain ⟨rfl, rfl, -⟩ := by simpa using h
    cases hu
    decide
  | [_, _, _], h => simp at h
  | _ :: _ :: _ :: _ :: _, h => simp at h

/-- CaptureReturnsTheFirstFrame: noise with an `ETX`, a second `STX` inside the frame. -/
theorem witness_first_frame : (hunting 2).phase = .hunt ∧ (hunting 2).mode = .standalone ∧
    (0x02 : Byte) ∉ [0x41, 0x03] ∧ (0x03 : Byte) ∉ [0x02, 0x41, 0x41, 0x41] ∧
    4 ≤ [0x02, 0x41, 0x41, (0x41 : Byte)].length ∧ (hunting 2).fits .rxbuf (4 + 2) = true := by decide

/-- DecWritesTheDecodedFrame, ErrorAnswerReportsTheTerminalCode, AnswersDeliverOpcodeAndPayload,
DecRunsTheRowOfTheFirstBodyByte: a captured frame of each class. -/
theorem witness_frames :
    ((holding (wire "FF012599D013")).phase = .idle ∧ (holding (wire "FF012599D013")).fits .rxbuf 14 = true ∧
      (holding (wire "FF012599D013")).rxlen = 14 ∧
      (holding (wire "FF012599D013")).frame = encodeFrame 0xFF [0x01, 0x25, 0x99]) ∧
    ((holding (wire "FF01D10E")).frame = encodeFrame 0xFF [0x01] ∧ ([0x01] : List Byte).length < 2) ∧
    ((holding (wire "ABCDEF38ED")).frame = encodeFrame 0xAB [0xCD, 0xEF] ∧ (0xAB : Byte) ≠ 0xFF) ∧
    (holding (wire "9780510100A5D7")).frame = encodeFrame 0x97 [0x80, 0x51, 0x01, 0x00] := by decide

theorem witness_row_words : decode .rxBody (0xFF : Byte).toNat = .ok .wireErrorAnswer ∧
    decode .rxBody (0xAB : Byte).toNat = .ok (.wireAnswer 0xAB) ∧
    decode .rxBody (0x97 : Byte).toNat = .ok .wireRtcReadAnswer := ⟨by rfl, by rfl, by rfl⟩

/-- RtcReadRequestIsBuilt, CaptArmsOrTimesOut, ReceivedBytesWaitInIdle, HousekeepingCommands, TmoSetLoadsTimeout. -/
theorem witness_idle : State.reset.phase = .idle ∧ State.reset.arglen = 0 ∧ State.reset.timeout ≠ 0 ∧
    ({ State.reset with timeout := 0 }.phase = .idle ∧ { State.reset with timeout := 0 }.timeout = 0) := by decide

/-- CatalogReadsTimeAndChecksEcho (`test_catalog_r261` is a run its last clause is about). -/
theorem witness_echo : (0x12 : Byte) ++ (0x34 : Byte) = (0x1234 : Word) ∧
    (0x12 : Byte) ++ (0x35 : Byte) ≠ (0x1234 : Word) ∧ State.reset.phase = .idle ∧ State.reset.timeout ≠ 0 ∧
    State.reset.rxq = [] ∧ State.reset.fits .rxbuf 16 = true := by decide

/-- ValPromotesOnlyAMatch: a match, a mismatch, another status, a mismatch already reported. -/
theorem witness_val : ((decoded 0xAB).status = .loc .dataReceived ∧ (decoded 0xAB).ansop = 0xAB) ∧
    (decoded 0xAB).ansop ≠ 0xAA ∧
    (State.reset.status ≠ .loc .dataReceived ∧ State.reset.status ≠ .loc .opcodeMismatch) ∧
    ({ State.reset with status := .loc .opcodeMismatch }.status = .loc .opcodeMismatch ∧
      { State.reset with status := .loc .opcodeMismatch }.plen = 0) := by decide

/-- TransactionEndIsCaptureDecVal, its other ends: a short frame, the deadline, `TIMEOUT = 0`, a failed send, and an event
that ends nothing. -/
theorem witness_other_ends :
    ((inTransaction 0x97 [2, 0x30, 0x30, 0x30] []).phase = .acc ∧
      (inTransaction 0x97 [2, 0x30, 0x30, 0x30] []).room = true ∧
      (inTransaction 0x97 [2, 0x30, 0x30, 0x30] []).rxlen + 1 < 6 ∧
      (inTransaction 0x97 [2, 0x30, 0x30, 0x30] []).mode = .transaction) ∧
    ({ lastByte with tmr := 1 }.phase ≠ .idle ∧ { lastByte with tmr := 1 }.tmr = 1 ∧
      { lastByte with tmr := 1 }.mode = .transaction) ∧
    ({ State.reset with timeout := 0 }.draw.txok = true ∧ { State.reset with timeout := 0 }.arglen ≤ 255) ∧
    { State.reset with draw := sentPart 3 }.draw.txok = false ∧
    after (handleEvent .tick lastByte) (·.phase) = some .acc := by decide

/-- EtxCompletesTheTransaction, TransactionEndIsCaptureDecVal, SuccessNeedsAMatchingAnswer: `SUCCESS` by the last byte
of an answer, and by `VAL`. -/
theorem witness_success :
    (lastByte.phase = .acc ∧ lastByte.room = true ∧ 6 ≤ lastByte.rxlen + 1 ∧ lastByte.mode = .transaction) ∧
    after (handleEvent .rxByte lastByte) (fun t => (t.status, t.result)) = some (.loc .success, [0, 0, 0, 0]) ∧
    lastByte.status ≠ .loc .success ∧
    after (handleEvent (.cmd 0x9AB00 sentOk) (decoded 0xAB)) (·.status) = some (.loc .success) ∧
    (decoded 0xAB).status ≠ .loc .success := by decide

/-- ExpectedErrorOpcodeNeverSucceeds: an error frame captured by a transaction that expects `0xFF`. -/
theorem witness_expected_error :
    ((decodeFrame (wire "85DD20")).status = .loc .dataReceived) ∧
    ((inTransaction 0xFF (wire "FF0000FF03").dropLast []).phase = .acc ∧
      (inTransaction 0xFF (wire "FF0000FF03").dropLast []).mode = .transaction ∧
      (inTransaction 0xFF (wire "FF0000FF03").dropLast []).exp = 0xFF ∧
      (inTransaction 0xFF (wire "FF0000FF03").dropLast []).status = .loc .none) ∧
    after (exec .rxByteEtx (inTransaction 0xFF (wire "FF0000FF03").dropLast [])) (·.status) = some (.terminal 0) := by
  decide

/-- XactStartIsEncSendCapt, TransactionDeliversThePayload. -/
theorem witness_transaction : State.reset.phase = .idle ∧ State.reset.arglen ≤ State.reset.params.argMax ∧
    State.reset.draw.txok = true ∧ State.reset.timeout ≠ 0 ∧ (0x97 : Byte) ≠ 0xFF ∧ (0x02 : Byte) ∉ [0x41, 0x03] ∧
    State.reset.fits .rxbuf (encodeFrame 0x97 [0, 0, 0, 0]).length = true := by decide

/-- BusyCommandsOnlySetBusyerr. -/
theorem witness_busy : Instr.reservedF.isCommand = true ∧ (Instr.xact 0 0).isCommand = true ∧
    (hunting 2).phase ≠ .idle := by decide

/-- StepKeepsTheInvariants, StepAlwaysGoesOn: a step from a state with the invariants in each phase. -/
theorem witness_step : State.reset.Inv ∧ (hunting 2).Inv ∧ lastByte.Inv ∧
    after (step { State.reset with pending := [.cmd 0x70000 sentOk] }) (·.phase) = some .hunt ∧
    after (step { lastByte with pending := [.rxByte] }) (·.phase) = some .idle :=
  ⟨reset_inv, hunting_inv, lastByte_inv, by decide, by decide⟩

/-- ResetStateMeetsTheInvariants: the least parameters R9 allows, and an unbounded buffer. -/
theorem witness_params : { argMax := 162, rxCap := some 6, defaultTimeout := 1 : Params }.ok = true ∧
    { argMax := 255, rxCap := none, defaultTimeout := 0xFFFF : Params }.ok = true := by decide

/-- PhaseFollowsTheTransitionTable: every kind of row of the table taken from a state with the invariants. -/
theorem witness_phase_changes : (State.reset.Inv ∧ (hunting 2).Inv ∧ lastByte.Inv ∧ fullBuffer.Inv) ∧
    after (handleEvent (.cmd 0x70000 sentOk) .reset) (·.phase) = some .hunt ∧
    after (handleEvent (.cmd 0xA1797 sentOk) .reset) (·.phase) = some .hunt ∧
    after (handleEvent .rxByte { hunting 2 with rxq := [0x02] }) (·.phase) = some .acc ∧
    after (handleEvent .rxByte fullBuffer) (·.phase) = some .hunt ∧
    after (handleEvent .rxByte lastByte) (·.phase) = some .idle ∧
    after (handleEvent .tick { lastByte with tmr := 1 }) (·.phase) = some .idle ∧
    after (handleEvent .reset lastByte) (·.phase) = some .idle :=
  ⟨⟨reset_inv, hunting_inv, lastByte_inv, fullBuffer_inv⟩, by decide, by decide, by decide, by decide, by decide,
    by decide, by decide⟩

/-- FlagsAreStickyAndHaveTheirCauses, FlagsChangeNoBehaviour: each flag set by its event, and cleared. -/
theorem witness_flags :
    after (handleEvent (.cmd 0xC0000 sentOk) { State.reset with flags := 0b00001 }) (·.flag .malf) = some false ∧
    after (handleEvent (.cmd 0x80000 sentOk) (holding (wire "FFFF"))) (·.flag .malf) = some true ∧
    after (handleEvent .rxByte (inTransaction 0x97 (wire "FFFF").dropLast [0x03])) (·.flag .malf) = some true ∧
    after (handleEvent .rxByte fullBuffer) (·.flag .rxovf) = some true ∧
    after (handleEvent (.cmd 0x40100 sentOk) { State.reset with arglen := 255 }) (·.flag .argovf) = some true ∧
    after (handleEvent (.cmd 0x00000 sentOk) (hunting 2)) (·.flag .busyerr) = some true ∧
    after (handleEvent (.cmd 0xD0000 sentOk) .reset) (·.flag .illcmd) = some true ∧ State.reset.flags = 0 := by decide

/-- RegistersChangeOnlyByTheirWriters: every register changed by one of its writers. -/
theorem witness_writers :
    after (handleEvent (.cmd 0x20000 sentOk) .reset) (·.crc) = some 0xE1F0 ∧
    after (handleEvent (.cmd 0x40100 sentOk) .reset) (fun t => (t.argbuf, t.arglen)) = some ([(0, 0x01)], 1) ∧
    after (handleEvent (.cmd 0x51700 sentOk) .reset) (fun t => (t.txbuf != [], t.txlen)) = some (true, 8) ∧
    after (handleEvent .rxByte { hunting 2 with rxq := [0x02] }) (fun t => (t.rxbuf, t.rxlen)) =
      some ([(0, 0x02)], 1) ∧
    after (handleEvent .tick (hunting 2)) (·.tmr) = some 1 ∧
    after (handleEvent (.cmd 0xB0001 sentOk) .reset) (·.timeout) = some 1 ∧
    after (handleEvent (.cmd 0x98500 sentOk) .reset) (·.exp) = some 0x85 ∧
    after (handleEvent (.cmd 0x80000 sentOk) (holding (wire "ABCDEF38ED"))) (fun t => (t.ansop, t.payload)) =
      some (0xAB, [(0, 0xCD), (1, 0xEF)]) ∧
    after (handleEvent (.cmd 0xA1797 sentOk) .reset) (fun t => (t.mode, t.phase)) = some (.transaction, .hunt) ∧
    after (handleEvent (.cmd 0x80000 sentOk) (holding (wire "ABCDEF38ED"))) (·.plen) = some 2 ∧
    after (handleEvent (.cmd 0x60000 sentOk) .reset) (·.status) = some (.loc .dataSent) ∧
    after (handleEvent (.cmd 0xD0000 sentOk) .reset) (·.flags) = some 0b10000 := by decide

/-- LengthsBeyondCapacityStop: one more than each capacity. -/
theorem witness_beyond :
    (State.reset.params.argMax < { State.reset with arglen := 256 }.arglen ∧
      { State.reset with arglen := 256 }.phase = .idle) ∧
    State.reset.params.txMax < { State.reset with txlen := 519 }.txlen ∧
    { State.reset with rxlen := 1025 }.fits .rxbuf 1025 = false ∧
    ({ hunting 2 with phase := .acc, rxlen := 1025 }.phase = .acc ∧
      { hunting 2 with phase := .acc, rxlen := 1025 }.fits .rxbuf 1025 = false) := by decide

end Sys2Proof.Tests
end

section
/-! PROOFS. Command words: the three fields of `30_encoding.md` R90, the mask that selects a row (R92), and what the
decoder reads of each field. -/

namespace Sys2Proof

@[simp] theorem cmdField_cmdWord (c : BitVec 4) (a b : Byte) : cmdField (cmdWord c a b) = c :=
  calc (c ++ a ++ b).extractLsb' 16 4
      = (c ++ a).extractLsb' 8 4 := BitVec.extractLsb'_append_eq_of_le (by decide)
    _ = c := BitVec.extractLsb'_append_eq_left

@[simp] theorem aField_cmdWord (c : BitVec 4) (a b : Byte) : aField (cmdWord c a b) = a :=
  calc (c ++ a ++ b).extractLsb' 8 8
      = (c ++ a).extractLsb' 0 8 := BitVec.extractLsb'_append_eq_of_le (by decide)
    _ = a := BitVec.extractLsb'_append_eq_right

@[simp] theorem bField_cmdWord (c : BitVec 4) (a b : Byte) : bField (cmdWord c a b) = b :=
  BitVec.extractLsb'_append_eq_right

/-- A word is its three fields (R90). -/
theorem cmdWord_fields (w : CmdWord) : cmdWord (cmdField w) (aField w) (bField w) = w := by
  have hab : cmdField w ++ aField w = w.extractLsb' 8 12 :=
    BitVec.extractLsb'_append_extractLsb'_eq_extractLsb' rfl
  calc cmdField w ++ aField w ++ bField w
      = w.extractLsb' 8 12 ++ w.extractLsb' 0 8 := by rw [hab]; rfl
    _ = w := BitVec.extractLsb'_append_extractLsb' (w := 12) (len := 8)

theorem cmdField_toNat (w : CmdWord) : (cmdField w).toNat = w.toNat / 2 ^ 16 := by
  have := w.isLt
  simp only [cmdField, BitVec.extractLsb'_toNat, Nat.shiftRight_eq_div_pow]
  omega

/-- A command code in the mask's place. -/
theorem setWidth_shiftLeft_eq_cmdWord (c : BitVec 4) : (c.setWidth 20 : CmdWord) <<< 16 = cmdWord c 0 0 := by
  revert c; decide

/-- The mask of R92 keeps the code and clears the operand bytes. -/
theorem cmdWord_and_mask (c : BitVec 4) (a b : Byte) : cmdWord c a b &&& 0xF0000 = cmdWord c 0 0 :=
  calc (c ++ a ++ b) &&& (BitVec.allOnes 4 ++ 0#8 ++ 0#8)
      = (c &&& BitVec.allOnes 4) ++ (a &&& 0#8) ++ (b &&& 0#8) := by rw [BitVec.and_append, BitVec.and_append]
    _ = c ++ 0#8 ++ 0#8 := by rw [BitVec.and_allOnes, BitVec.and_zero, BitVec.and_zero]

theorem and_mask_eq (w : CmdWord) : w &&& 0xF0000 = cmdWord (cmdField w) 0 0 := by
  rw [← cmdWord_and_mask (cmdField w) (aField w) (bField w), cmdWord_fields]

/-- The row that a word selects by R92's comparison is the row of its code field. -/
theorem selects_iff (w : CmdWord) (c : BitVec 4) : w &&& (0xF0000 : CmdWord) = c.setWidth 20 <<< 16 ↔ c = cmdField w := by
  rw [and_mask_eq, setWidth_shiftLeft_eq_cmdWord]
  constructor
  · intro h
    simpa using (congrArg cmdField h).symm
  · rintro rfl
    rfl

theorem decode_cmd20 (w : CmdWord) : decode .cmd20 w.toNat = .ok (decodeCmd w) := by
  simp [decode, Format.width, w.isLt]

/-- The decoder answers an instruction of the word's own row, code by code (R91). -/
theorem decodeCmd_cmdWord_row (c : BitVec 4) (a b : Byte) :
    (decodeCmd (cmdWord c a b)).isCommand = true ∧ cmdField (encodeCmd (decodeCmd (cmdWord c a b))) = c := by
  obtain ⟨n, hn⟩ := c
  interval_cases n <;> simp [decodeCmd, encodeCmd, Instr.isCommand]

theorem decodeCmd_row (w : CmdWord) :
    (decodeCmd w).isCommand = true ∧ cmdField (encodeCmd (decodeCmd w)) = cmdField w := by
  simpa only [cmdWord_fields] using decodeCmd_cmdWord_row (cmdField w) (aField w) (bField w)

/-- A code that uses neither operand byte ignores both (R90). -/
theorem decodeCmd_ignores_operands {c : BitVec 4} (h : c ∉ [0x2, 0x4, 0x5, 0x9, 0xA, 0xB]) (a b a' b' : Byte) :
    decodeCmd (cmdWord c a b) = decodeCmd (cmdWord c a' b') := by
  obtain ⟨n, hn⟩ := c
  interval_cases n <;> simp [decodeCmd] at h ⊢

/-- A code that does not use the second operand byte ignores it (R90). -/
theorem decodeCmd_ignores_b {c : BitVec 4} (h : c ∉ [0xA, 0xB]) (a b b' : Byte) :
    decodeCmd (cmdWord c a b) = decodeCmd (cmdWord c a b') := by
  obtain ⟨n, hn⟩ := c
  interval_cases n <;> simp [decodeCmd] at h ⊢

theorem decodeCmd_reserved {w : CmdWord} (h : 13 ≤ (cmdField w).toNat) :
    decodeCmd w = .reservedD ∨ decodeCmd w = .reservedE ∨ decodeCmd w = .reservedF := by
  unfold decodeCmd
  split
  case h_14 => exact .inl rfl
  case h_15 => exact .inr (.inl rfl)
  case h_16 => exact .inr (.inr rfl)
  all_goals omega

namespace Machine

/-- A reserved code in `IDLE` sets `ILLCMD` and nothing else (R233). -/
theorem exec_reserved_idle {i : Instr} {s : State} (hi : i = .reservedD ∨ i = .reservedE ∨ i = .reservedF)
    (hs : s.phase = .idle) : exec i s = .next (s.setFlag .illcmd) := by
  rcases hi with rfl | rfl | rfl <;> exact whenIdle_idle hs fun s => .next (s.setFlag .illcmd)

/-- Settles O2: the mask keeps exactly the code field, and the decoder reads the row from that field. -/
theorem everyCommandWordSelectsExactlyOneRow : Obligations.EveryCommandWordSelectsExactlyOneRow := by
  refine ⟨fun w => ?_, fun w => ?_, fun w s hw hs => ?_⟩
  · exact ⟨cmdField w, (selects_iff w _).2 rfl, fun c hc => (selects_iff w c).1 hc⟩
  · obtain ⟨hcmd, hrow⟩ := decodeCmd_row w
    exact ⟨decodeCmd w, decode_cmd20 w, hcmd, by rw [and_mask_eq, and_mask_eq, hrow]⟩
  · have hcode : 13 ≤ (cmdField w).toNat := by rw [cmdField_toNat]; omega
    exact exec_reserved_idle (decodeCmd_reserved hcode) hs

/-- Settles O3: the codes fall into those that use both operand bytes, the first only, and neither. -/
theorem unusedOperandFieldsAreIgnored : Obligations.UnusedOperandFieldsAreIgnored := by
  refine ⟨fun w => (cmdWord_fields w).symm, fun c a b a' b' ha hb => ?_⟩
  by_cases hc : c ∈ [0x2, 0x4, 0x5, 0x9, 0xA, 0xB]
  · rw [ha hc]
    by_cases hc' : c ∈ [0xA, 0xB]
    · rw [hb hc']
    · exact decodeCmd_ignores_b hc' a' b b'
  · exact decodeCmd_ignores_operands hc a b a' b'

end Machine
end Sys2Proof
end

section
/-! PROOFS. Hex characters and the CRC field (`30_encoding.md` R100 to R103): reading is the inverse of writing, and
only what is written reads. -/

namespace Sys2Proof.Machine

/-- Joining two parts by a shift and an OR is their concatenation. -/
theorem shiftLeft_or_eq_append {m n : Nat} (hi : BitVec m) (lo : BitVec n) :
    (hi.setWidth (m + n) <<< n) ||| lo.setWidth (m + n) = hi ++ lo := by
  rw [← BitVec.setWidth_append_eq_shiftLeft_setWidth_or, BitVec.setWidth_eq]

theorem digit_toNat (n : BitVec 4) :
    (digit n).toNat = if n.toNat < 10 then 0x30 + n.toNat else 0x41 + (n.toNat - 10) := by
  unfold digit
  split <;> bv_omega

/-- The characters `0`..`9` (R101). -/
theorem nib_decimal {c : Byte} (hlo : 0x30 ≤ c.toNat) (hhi : c.toNat ≤ 0x39) :
    nib c = some (BitVec.ofNat 4 (c.toNat - 0x30)) := by
  rw [nib, if_pos ⟨hlo, hhi⟩]
  congr 1
  bv_omega

/-- The characters `A`..`F` (R101). -/
theorem nib_letter {c : Byte} (hlo : 0x41 ≤ c.toNat) (hhi : c.toNat ≤ 0x46) :
    nib c = some (BitVec.ofNat 4 (c.toNat - 0x41 + 10)) := by
  rw [nib, if_neg (by omega), if_pos ⟨hlo, hhi⟩]
  congr 1
  bv_omega

/-- Every other byte (R101). -/
theorem nib_other {c : Byte} (h09 : ¬ (0x30 ≤ c.toNat ∧ c.toNat ≤ 0x39)) (hAF : ¬ (0x41 ≤ c.toNat ∧ c.toNat ≤ 0x46)) :
    nib c = none := by
  rw [nib, if_neg h09, if_neg hAF]

@[simp] theorem nib_digit (n : BitVec 4) : nib (digit n) = some n := by
  revert n; decide

/-- A nibble has one character. -/
theorem nib_eq_some_iff {c : Byte} {n : BitVec 4} : nib c = some n ↔ c = digit n := by
  constructor
  · intro h
    apply BitVec.eq_of_toNat_eq
    rw [digit_toNat]
    by_cases h09 : 0x30 ≤ c.toNat ∧ c.toNat ≤ 0x39
    · rw [nib_decimal h09.1 h09.2, Option.some.injEq] at h
      subst h
      rw [BitVec.toNat_ofNat, if_pos (by omega)]
      omega
    · by_cases hAF : 0x41 ≤ c.toNat ∧ c.toNat ≤ 0x46
      · rw [nib_letter hAF.1 hAF.2, Option.some.injEq] at h
        subst h
        rw [BitVec.toNat_ofNat, if_neg (by omega)]
        omega
      · rw [nib_other h09 hAF] at h
        exact absurd h (by simp)
  · rintro rfl
    exact nib_digit n

/-- The digits of two joined nibbles, high one first (R100). -/
theorem hexU_append (hi lo : BitVec 4) : hexU (hi ++ lo) = [digit hi, digit lo] := by
  rw [hexU, BitVec.extractLsb'_append_eq_right, BitVec.extractLsb'_append_eq_left]

/-- A byte is its two nibbles. -/
theorem nibbles_append (b : Byte) : b.extractLsb' 4 4 ++ b.extractLsb' 0 4 = b :=
  BitVec.extractLsb'_append_extractLsb' (w := 4) (len := 4)

theorem unhex_of_nibs {c1 c2 : Byte} {hi lo : BitVec 4} (h1 : nib c1 = some hi) (h2 : nib c2 = some lo) :
    unhex c1 c2 = some (hi ++ lo) := by
  simp only [unhex, h1, h2]
  exact congrArg some (shiftLeft_or_eq_append hi lo)

theorem unhex_of_no_nib {c1 c2 : Byte} (h : nib c1 = none ∨ nib c2 = none) : unhex c1 c2 = none := by
  unfold unhex
  split
  · rename_i h1 h2
    simp [h1, h2] at h
  · rfl

/-- Two characters read as a byte exactly where they are the byte's own (R100, R102). -/
theorem unhex_eq_some_iff {c1 c2 b : Byte} : unhex c1 c2 = some b ↔ hexU b = [c1, c2] := by
  constructor
  · intro h
    cases h1 : nib c1 with
    | none => simp [unhex_of_no_nib (.inl h1)] at h
    | some hi =>
      cases h2 : nib c2 with
      | none => simp [unhex_of_no_nib (.inr h2)] at h
      | some lo =>
        rw [unhex_of_nibs h1 h2, Option.some.injEq] at h
        rw [← h, hexU_append, ← nib_eq_some_iff.1 h1, ← nib_eq_some_iff.1 h2]
  · intro h
    simp only [hexU, List.cons.injEq, and_true] at h
    obtain ⟨rfl, rfl⟩ := h
    rw [unhex_of_nibs (nib_digit _) (nib_digit _), nibbles_append]

/-- Settles O14: `nib` by its three ranges, and `unhex` as the inverse of `hexU`. -/
theorem hexDigitsRoundTrip : Obligations.HexDigitsRoundTrip := by
  refine ⟨fun n hn => ?_, fun n hn => ?_, fun _ => rfl, fun _ => nib_decimal, fun _ => nib_letter, fun _ => nib_other,
    fun _ _ _ _ => unhex_of_nibs, fun _ _ => unhex_of_no_nib, fun _ _ _ => unhex_eq_some_iff.2⟩
  · rw [digit_toNat, if_pos (by omega)]
  · rw [digit_toNat, if_neg (by omega)]

/-- The characters of eight bits of a CRC, from its nibbles (R100). -/
theorem hexU_extractLsb' (c : Word) (start : Nat) :
    hexU (c.extractLsb' start 8) = [digit (c.extractLsb' (start + 4) 4), digit (c.extractLsb' start 4)] := by
  have hjoin : c.extractLsb' (start + 4) 4 ++ c.extractLsb' start 4 = c.extractLsb' start 8 :=
    BitVec.extractLsb'_append_extractLsb'_eq_extractLsb' rfl
  rw [← hjoin, hexU_append]

/-- The field's digits, from the CRC's nibbles (R103). -/
theorem crcField_eq_digits (c : Word) : crcField c =
    [digit (c.extractLsb' 4 4), digit (c.extractLsb' 0 4), digit (c.extractLsb' 12 4), digit (c.extractLsb' 8 4)] := by
  rw [crcField, hexU_extractLsb', hexU_extractLsb']
  rfl

theorem crcField_append (hi lo : Byte) : crcField (hi ++ lo) = hexU lo ++ hexU hi := by
  rw [crcField, BitVec.extractLsb'_append_eq_right, BitVec.extractLsb'_append_eq_left]

/-- A CRC is its two bytes. -/
theorem bytes_append (c : Word) : c.extractLsb' 8 8 ++ c.extractLsb' 0 8 = c :=
  BitVec.extractLsb'_append_extractLsb' (w := 8) (len := 8)

theorem crcValue_of_unhex {f0 f1 f2 f3 hi lo : Byte} (hhi : unhex f2 f3 = some hi) (hlo : unhex f0 f1 = some lo) :
    crcValue [f0, f1, f2, f3] = some (hi ++ lo) := by
  simp only [crcValue, hhi, hlo]
  exact congrArg some (shiftLeft_or_eq_append hi lo)

/-- What reads as a CRC is four characters, each pair of them a byte, low byte first (R103). -/
theorem crcValue_some {f : List Byte} {c : Word} (h : crcValue f = some c) :
    ∃ f0 f1 f2 f3 hi lo, f = [f0, f1, f2, f3] ∧ unhex f2 f3 = some hi ∧ unhex f0 f1 = some lo ∧ c = hi ++ lo := by
  unfold crcValue at h
  split at h
  · rename_i f0 f1 f2 f3
    split at h
    · rename_i hi lo hhi hlo
      exact ⟨f0, f1, f2, f3, hi, lo, rfl, hhi, hlo, by rw [← shiftLeft_or_eq_append]; exact (Option.some.inj h).symm⟩
    · exact absurd h (by simp)
  · exact absurd h (by simp)

/-- Exactly the field of a CRC reads as it (R103). -/
theorem crcValue_eq_some_iff {f : List Byte} {c : Word} : crcValue f = some c ↔ f = crcField c := by
  constructor
  · intro h
    obtain ⟨f0, f1, f2, f3, hi, lo, rfl, hhi, hlo, rfl⟩ := crcValue_some h
    rw [crcField_append, unhex_eq_some_iff.1 hhi, unhex_eq_some_iff.1 hlo]
    rfl
  · rintro rfl
    calc crcValue (crcField c)
        = some (c.extractLsb' 8 8 ++ c.extractLsb' 0 8) :=
          crcValue_of_unhex (unhex_eq_some_iff.2 rfl) (unhex_eq_some_iff.2 rfl)
      _ = some c := by rw [bytes_append]

/-- Settles O15: a CRC's field is the one sequence that reads as it. -/
theorem crcFieldSwapsItsBytes : Obligations.CrcFieldSwapsItsBytes :=
  ⟨fun _ => rfl, crcField_eq_digits, by decide, fun _ _ _ _ _ _ => crcValue_of_unhex,
    fun _ => crcValue_eq_some_iff.2 rfl, fun _ _ => crcValue_eq_some_iff.1⟩

end Sys2Proof.Machine
end

section
/-! PROOFS. The layout of an encoded frame (`41_tx_framer.md` R155, `30_encoding.md` R96). -/

namespace Sys2Proof.Machine

/-- A digit is no marker. -/
theorem digit_ne_marker (n : BitVec 4) : digit n ≠ stx ∧ digit n ≠ etx := by
  have hd : 0x30 ≤ (digit n).toNat := by
    rw [digit_toNat]
    split <;> omega
  constructor <;> intro h <;> simp [h, stx, etx] at hd

/-- Every character of a byte is a digit. -/
theorem mem_hexU {b c : Byte} (h : c ∈ hexU b) : ∃ n, c = digit n := by
  simp only [hexU, List.mem_cons, List.not_mem_nil, or_false] at h
  rcases h with rfl | rfl <;> exact ⟨_, rfl⟩

theorem mem_hexAll {bs : List Byte} {c : Byte} (h : c ∈ hexAll bs) : ∃ n, c = digit n := by
  induction bs with
  | nil => simp [hexAll] at h
  | cons b bs ih =>
    rcases List.mem_append.1 h with h | h
    · exact mem_hexU h
    · exact ih h

theorem mem_crcField {w : Word} {c : Byte} (h : c ∈ crcField w) : ∃ n, c = digit n := by
  rcases List.mem_append.1 h with h | h <;> exact mem_hexU h

/-- What stands between the markers of a frame of the body `bs` (R96). -/
def frameInterior (bs : List Byte) : List Byte := hexAll bs ++ crcField (crc16 bs)

@[simp] theorem frameInterior_length (bs : List Byte) : (frameInterior bs).length = 2 * bs.length + 4 := by
  simp [frameInterior]

theorem encodeFrame_eq (op : Byte) (args : List Byte) :
    encodeFrame op args = stx :: (frameInterior (op :: args) ++ [etx]) := by
  simp [encodeFrame, frameInterior]

theorem mem_frameInterior {bs : List Byte} {c : Byte} (h : c ∈ frameInterior bs) : ∃ n, c = digit n := by
  rcases List.mem_append.1 h with h | h
  · exact mem_hexAll h
  · exact mem_crcField h

/-- A byte's two characters, found at the place where they were put. -/
theorem take_drop_of_eq {f pre post : List Byte} {b : Byte} {k : Nat} (hf : f = pre ++ (hexU b ++ post))
    (hk : pre.length = k) : (f.drop k).take 2 = hexU b := by
  rw [hf, List.drop_left' hk, List.take_left' (hexU_length b)]

/-- Body byte `i` stands at `1 + 2i` (R96). -/
theorem encodeFrame_body {op : Byte} {args : List Byte} {i : Nat} {b : Byte} (h : (op :: args)[i]? = some b) :
    ((encodeFrame op args).drop (1 + 2 * i)).take 2 = hexU b := by
  obtain ⟨hi, hb⟩ := List.getElem?_eq_some_iff.1 h
  have hsplit : op :: args = (op :: args).take i ++ b :: (op :: args).drop (i + 1) := by
    rw [← hb, List.getElem_cons_drop, List.take_append_drop]
  apply take_drop_of_eq (pre := stx :: hexAll ((op :: args).take i))
    (post := hexAll ((op :: args).drop (i + 1)) ++ crcField (crc16 (op :: args)) ++ [etx])
  · calc encodeFrame op args
        = stx :: (hexAll ((op :: args).take i ++ b :: (op :: args).drop (i + 1)) ++ crcField (crc16 (op :: args))
            ++ [etx]) := by rw [← hsplit, encodeFrame_eq, frameInterior]
      _ = _ := by simp [hexAll_append, hexAll]
  · simp only [List.length_cons, hexAll_length, List.length_take] at hi ⊢
    omega

/-- The CRC's low byte stands right after the body (R96, R103). -/
theorem encodeFrame_crcLow (op : Byte) (args : List Byte) :
    ((encodeFrame op args).drop (2 * (op :: args).length + 1)).take 2 =
      hexU ((crc16 (op :: args)).extractLsb' 0 8) :=
  take_drop_of_eq (pre := stx :: hexAll (op :: args)) (post := hexU ((crc16 (op :: args)).extractLsb' 8 8) ++ [etx])
    (by simp [encodeFrame, crcField]) (by simp)

/-- The CRC's high byte stands after its low byte (R96, R103). -/
theorem encodeFrame_crcHigh (op : Byte) (args : List Byte) :
    ((encodeFrame op args).drop (2 * (op :: args).length + 3)).take 2 =
      hexU ((crc16 (op :: args)).extractLsb' 8 8) :=
  take_drop_of_eq (pre := stx :: (hexAll (op :: args) ++ hexU ((crc16 (op :: args)).extractLsb' 0 8))) (post := [etx])
    (by simp [encodeFrame, crcField]) (by simp)

/-- The last byte is the end marker. -/
theorem encodeFrame_last (op : Byte) (args : List Byte) :
    (encodeFrame op args)[2 * (op :: args).length + 5]? = some etx := by
  rw [encodeFrame_eq, List.getElem?_cons_succ, List.getElem?_append_right (by simp)]
  simp

/-- Every byte between the markers is a digit (R96). -/
theorem encodeFrame_interior {op : Byte} {args : List Byte} {k : Nat} (h1 : 1 ≤ k)
    (h2 : k < 2 * (op :: args).length + 5) : ∃ n, (encodeFrame op args)[k]? = some (digit n) := by
  obtain ⟨j, rfl⟩ : ∃ j, k = j + 1 := ⟨k - 1, by omega⟩
  have hj : j < (frameInterior (op :: args)).length := by
    rw [frameInterior_length]
    omega
  obtain ⟨n, hn⟩ := mem_frameInterior (List.getElem_mem hj)
  refine ⟨n, ?_⟩
  rw [encodeFrame_eq, List.getElem?_cons_succ, List.getElem?_append_left hj, List.getElem?_eq_getElem hj, hn]

/-- Settles O16: the frame is a marker, the interior, a marker, and the interior holds digits only. -/
theorem encodedFrameLayout : Obligations.EncodedFrameLayout := by
  refine ⟨digit_ne_marker, fun op args => ⟨?_, rfl, fun _ _ => encodeFrame_body, encodeFrame_crcLow op args,
    encodeFrame_crcHigh op args, encodeFrame_last op args, fun _ => encodeFrame_interior⟩⟩
  rw [encodeFrame_length, List.length_cons]
  omega

end Sys2Proof.Machine
end

section
/-! PROOFS. The Checksum Engine (`40_crc.md`): the step in unbounded arithmetic (R131), the fold (R132), the two
commands (R135, R136) and a run of them. -/

namespace Sys2Proof.Machine

/-- The index of the table fits a byte (R131). -/
theorem crcIndex_lt (acc : Word) (b : Byte) : (acc.toNat >>> 8) ^^^ b.toNat < 2 ^ 8 := by
  have hacc : acc.toNat >>> 8 < 2 ^ 8 := by
    have := acc.isLt
    omega
  exact Nat.xor_lt_two_pow hacc b.isLt

/-- The index of the table, computed in bytes and in unbounded arithmetic (R131). -/
theorem crcIndex_eq_ofNat (acc : Word) (b : Byte) :
    (acc >>> 8).setWidth 8 ^^^ b = BitVec.ofNat 8 ((acc.toNat >>> 8) ^^^ b.toNat) := by
  have hacc : (acc >>> 8).setWidth 8 = BitVec.ofNat 8 (acc.toNat >>> 8) := BitVec.eq_of_toNat_eq (by simp)
  rw [hacc, BitVec.ofNat_xor, BitVec.ofNat_toNat, BitVec.setWidth_eq]

/-- Shifting within a word, then XOR, is shifting without bound, XOR, and one mask (R133). -/
theorem shiftLeft_xor_toNat (acc t : Word) (n : Nat) :
    ((acc <<< n) ^^^ t).toNat = ((acc.toNat <<< n) ^^^ t.toNat) &&& 0xFFFF :=
  calc ((acc <<< n) ^^^ t).toNat
      = (acc.toNat <<< n % 2 ^ 16) ^^^ (t.toNat % 2 ^ 16) := by
        rw [BitVec.toNat_xor, BitVec.toNat_shiftLeft, Nat.mod_eq_of_lt t.isLt]
    _ = ((acc.toNat <<< n) ^^^ t.toNat) % 2 ^ 16 := Nat.xor_mod_two_pow.symm
    _ = ((acc.toNat <<< n) ^^^ t.toNat) &&& 0xFFFF := (Nat.and_two_pow_sub_one_eq_mod _ 16).symm

/-- Settles O10: the index is the same in both arithmetics, and one mask at the end is the word's own bound. -/
theorem crcStepIsTheMaskedTableStep : Obligations.CrcStepIsTheMaskedTableStep := by
  refine fun acc b => ⟨crcIndex_lt acc b, ?_⟩
  rw [← crcIndex_eq_ofNat, crcStep, shiftLeft_xor_toNat]

@[simp] theorem crc16_nil : crc16 [] = crcInit := rfl

theorem crc16_concat (bs : List Byte) (b : Byte) : crc16 (bs ++ [b]) = crcStep (crc16 bs) b :=
  List.foldl_concat ..

/-- Settles O11: a fold's value at the empty sequence and at a sequence with one more byte. -/
theorem crcOfASequenceIsTheFold : Obligations.CrcOfASequenceIsTheFold := ⟨crc16_nil, crc16_concat⟩

/-- The row of code 1 (R91). -/
theorem decodeCmd_crcClr {w : CmdWord} (h : cmdField w = 0x1) : decodeCmd w = .crcClr := by
  simp [decodeCmd, h]

/-- The row of code 2 (R91). -/
theorem decodeCmd_crcUpd {w : CmdWord} (h : cmdField w = 0x2) : decodeCmd w = .crcUpd (aField w) := by
  simp [decodeCmd, h]

theorem exec_crcClr_idle {s : State} (h : s.phase = .idle) : exec .crcClr s = .next { s with crc := crcInit } :=
  whenIdle_idle h fun s => .next { s with crc := crcInit }

theorem exec_crcClr_busy {s : State} (h : s.phase ≠ .idle) : exec .crcClr s = .next (s.setFlag .busyerr) :=
  whenIdle_busy h fun s => .next { s with crc := crcInit }

theorem exec_crcUpd_idle (a : Byte) {s : State} (h : s.phase = .idle) :
    exec (.crcUpd a) s = .next { s with crc := crcStep s.crc a } :=
  whenIdle_idle h fun s => .next { s with crc := crcStep s.crc a }

theorem exec_crcUpd_busy (a : Byte) {s : State} (h : s.phase ≠ .idle) :
    exec (.crcUpd a) s = .next (s.setFlag .busyerr) :=
  whenIdle_busy h fun s => .next { s with crc := crcStep s.crc a }

/-- Settles O8: the row, its two outcomes, and a second `CRC.CLR` after the first. -/
theorem crcClrSetsTheInitialValue : Obligations.CrcClrSetsTheInitialValue := by
  refine ⟨fun _ => decodeCmd_crcClr, fun _ => exec_crcClr_idle, fun _ => exec_crcClr_busy, fun s t hs h => ?_⟩
  rw [exec_crcClr_idle hs] at h
  cases h
  exact exec_crcClr_idle hs

/-- The event of a command that the decoder gives back runs that command, with a draw that sends. -/
theorem handleEvent_command {i : Instr} (h : decodeCmd (encodeCmd i) = i) (s : State) :
    handleEvent (command i) s = exec i { s with draw := { txok := true, taken := 0 } } := by
  rw [command, handleEvent, h]

theorem handleEvent_crcClr {s : State} (h : s.phase = .idle) :
    handleEvent (command .crcClr) s = .next { s with crc := crcInit, draw := { txok := true, taken := 0 } } := by
  have hdec : decodeCmd (encodeCmd .crcClr) = .crcClr := decodeCmd_crcClr (cmdField_cmdWord ..)
  exact (handleEvent_command hdec s).trans (exec_crcClr_idle h)

theorem handleEvent_crcUpd (a : Byte) {s : State} (h : s.phase = .idle) :
    handleEvent (command (.crcUpd a)) s =
      .next { s with crc := crcStep s.crc a, draw := { txok := true, taken := 0 } } := by
  have hdec : decodeCmd (encodeCmd (.crcUpd a)) = .crcUpd a := by
    rw [encodeCmd, decodeCmd_crcUpd (cmdField_cmdWord ..), aField_cmdWord]
  exact (handleEvent_command hdec s).trans (exec_crcUpd_idle a h)

/-- A run of `CRC.UPD` folds its bytes into the accumulator `c` (R136). -/
theorem handleAll_crcUpds (bs : List Byte) (c : Word) {s : State} (h : s.phase = .idle) :
    handleAll (bs.map fun b => command (.crcUpd b)) { s with crc := c, draw := { txok := true, taken := 0 } } =
      .next { s with crc := bs.foldl crcStep c, draw := { txok := true, taken := 0 } } := by
  induction bs generalizing c with
  | nil => rfl
  | cons b bs ih =>
    have hstep : handleEvent (command (.crcUpd b)) { s with crc := c, draw := { txok := true, taken := 0 } } =
        .next { s with crc := crcStep c b, draw := { txok := true, taken := 0 } } := handleEvent_crcUpd b h
    exact (handleAll_cons hstep).trans (ih (crcStep c b))

/-- Settles O9: the row, its two outcomes, and a run that starts at the initial value. -/
theorem crcUpdAdvancesTheAccumulator : Obligations.CrcUpdAdvancesTheAccumulator := by
  refine ⟨fun _ => decodeCmd_crcUpd, fun a _ => exec_crcUpd_idle a, fun a _ => exec_crcUpd_busy a,
    by decide, by decide, by decide, fun bs s hs => ?_⟩
  rw [pseudoCrc16, handleAll_cons (handleEvent_crcClr hs)]
  exact handleAll_crcUpds bs crcInit hs

end Sys2Proof.Machine
end

section
/-! PROOFS. The commands of the TX framer (`41_tx_framer.md`): the rows of `ARG.CLR`, `ARG.PUSH`, `ENC` and `SEND`
(`30_encoding.md` R91), what each does in `IDLE` (R152, R153, R156, R158), and a busy block (R232). -/

namespace Sys2Proof.Machine

theorem decodeCmd_argClr {w : CmdWord} (h : cmdField w = 0x3) : decodeCmd w = .argClr := by
  simp [decodeCmd, h]

theorem decodeCmd_argPush {w : CmdWord} (h : cmdField w = 0x4) : decodeCmd w = .argPush (aField w) := by
  simp [decodeCmd, h]

theorem decodeCmd_enc {w : CmdWord} (h : cmdField w = 0x5) : decodeCmd w = .enc (aField w) := by
  simp [decodeCmd, h]

theorem decodeCmd_send {w : CmdWord} (h : cmdField w = 0x6) : decodeCmd w = .send := by
  simp [decodeCmd, h]

/-- Every command stands behind the gate of R232: in another phase than `IDLE` it only sets `BUSYERR`. -/
theorem exec_command_busy {i : Instr} {s : State} (hi : i.isCommand = true) (h : s.phase ≠ .idle) :
    exec i s = .next (s.setFlag .busyerr) := by
  cases i
  case wireErrorAnswer | wireAnswer | wireRtcReadRequest | wireRtcReadAnswer | rxByteStx | rxByteEtx | rxByteOther =>
    exact absurd hi Bool.false_ne_true
  all_goals exact if_neg h

theorem exec_argClr_idle {s : State} (h : s.phase = .idle) : exec .argClr s = .next { s with arglen := 0 } :=
  whenIdle_idle h fun s => .next { s with arglen := 0 }

/-- Settles O21: the row, its two outcomes, and a second `ARG.CLR` after the first. -/
theorem argClrEmptiesTheArguments : Obligations.ArgClrEmptiesTheArguments := by
  refine ⟨fun _ => decodeCmd_argClr, fun _ => exec_argClr_idle, fun _ => exec_command_busy rfl, fun s t hs h => ?_⟩
  rw [exec_argClr_idle hs] at h
  cases h
  exact exec_argClr_idle hs

/-- A full argument buffer: the byte is dropped (R153). -/
theorem exec_argPush_full (a : Byte) {s : State} (h : s.phase = .idle) (hfull : s.arglen = s.params.argMax) :
    exec (.argPush a) s = .next (s.setFlag .argovf) := by
  change execArgPush a s = _
  rw [execArgPush, whenIdle_idle h, if_pos hfull]

/-- The state with a byte appended to the arguments (R153). -/
def pushArg (s : State) (a : Byte) : State :=
  { s with argbuf := s.argbuf.write s.arglen a, arglen := s.arglen + 1 }

/-- Room for one more argument: the byte is appended (R153). -/
theorem exec_argPush_room (a : Byte) {s : State} (h : s.phase = .idle) (hroom : s.arglen < s.params.argMax) :
    exec (.argPush a) s = .next (pushArg s a) := by
  have hfits : s.fits .argbuf (s.arglen + [a].length) = true := decide_eq_true hroom
  change execArgPush a s = _
  rw [execArgPush, whenIdle_idle h, if_neg (Nat.ne_of_lt hroom), writeBuf_fits hfits]
  rfl

/-- The pushed byte stands at the old `ARGLEN`. -/
theorem elem_pushArg_same (s : State) (a : Byte) : (pushArg s a).elem .argbuf s.arglen = a :=
  elem_of_write_same (s := s) rfl

theorem elem_pushArg_other (s : State) (a : Byte) {i : Nat} (h : i ≠ s.arglen) :
    (pushArg s a).elem .argbuf i = s.elem .argbuf i :=
  elem_of_write_other rfl rfl h

/-- The argument list grows at its end. -/
theorem args_pushArg (s : State) (a : Byte) : (pushArg s a).args = s.args ++ [a] := by
  have hbelow : (pushArg s a).elems .argbuf 0 s.arglen = s.args :=
    elems_ext fun _ hk => elem_pushArg_other s a (Nat.ne_of_lt hk)
  calc (pushArg s a).args
      = (pushArg s a).elems .argbuf 0 s.arglen ++ [(pushArg s a).elem .argbuf (0 + s.arglen)] := elems_succ ..
    _ = s.args ++ [a] := by rw [hbelow, Nat.zero_add, elem_pushArg_same]

/-- Settles O22: the row, the full buffer, the buffer with room, and the busy block. -/
theorem argPushAppendsOrDrops : Obligations.ArgPushAppendsOrDrops :=
  ⟨fun _ => decodeCmd_argPush, fun a _ => exec_argPush_full a,
    fun a s hs hroom => ⟨pushArg s a, exec_argPush_room a hs hroom, rfl, elem_pushArg_same s a,
      fun _ => elem_pushArg_other s a, args_pushArg s a⟩,
    fun _ _ => exec_command_busy rfl⟩

/-- The state with a frame in `TXBUF` (R156). -/
def holdingTx (s : State) (f : List Byte) : State := { s with txbuf := s.txbuf.writeAll 0 f, txlen := f.length }

/-- What `TXBUF[0..TXLEN-1]` reads as once a frame is stored there. -/
theorem elems_holdingTx (s : State) (f : List Byte) : (holdingTx s f).elems .txbuf 0 f.length = f :=
  elems_of_writeAll (m := s.txbuf) rfl

theorem elem_holdingTx_above (s : State) {f : List Byte} {i : Nat} (h : f.length ≤ i) :
    (holdingTx s f).elem .txbuf i = s.elem .txbuf i :=
  elem_of_writeAll_above (i := 0) rfl rfl (by omega)

theorem args_length (s : State) : s.args.length = s.arglen := elems_length ..

/-- The frame of arguments that exist has room in `TXBUF` (R9, R156). -/
theorem args_frame_fits (a : Byte) {s : State} (h : s.arglen ≤ s.params.argMax) :
    s.fits .txbuf (encodeFrame a s.args).length = true :=
  frame_fits (by rw [args_length]; exact decide_eq_true h)

theorem exec_enc_idle (a : Byte) {s : State} (h : s.phase = .idle) (hargs : s.arglen ≤ s.params.argMax) :
    exec (.enc a) s = .next (holdingTx s (encodeFrame a s.args)) := by
  have hstore : storeFrame s a s.args = .ok (holdingTx s (encodeFrame a s.args)) :=
    storeFrame_ok_iff.2 ⟨args_frame_fits a hargs, rfl⟩
  have hbuild : buildFrame s a = .ok (holdingTx s (encodeFrame a s.args)) :=
    buildFrame_ok_iff.2 ⟨decide_eq_true hargs, hstore⟩
  change execEnc a s = _
  rw [execEnc, whenIdle_idle h, hbuild, finish_ok]

/-- Settles O23: the row, the frame stored in `TXBUF`, and the busy block. -/
theorem encBuildsTheFrame : Obligations.EncBuildsTheFrame := by
  refine ⟨fun _ => decodeCmd_enc, fun a s hs hargs => ?_, fun _ _ => exec_command_busy rfl⟩
  have hlen : (encodeFrame a s.args).length = 2 * s.arglen + 8 := by rw [encodeFrame_length, args_length]
  exact ⟨holdingTx s (encodeFrame a s.args), exec_enc_idle a hs hargs, rfl, hlen,
    of_decide_eq_true (args_frame_fits a hargs), elems_holdingTx .., fun _ => elem_holdingTx_above s⟩

theorem exec_send_idle {s : State} (h : s.phase = .idle) (hfits : s.fits .txbuf s.txlen = true) :
    exec .send s =
      .next ((s.emit (s.elems .txbuf 0 s.txlen)).raise (if s.draw.txok then .loc .dataSent else .loc .hwErr)) := by
  change execSend s = _
  rw [execSend, whenIdle_idle h, readBuf_fits hfits]

/-- Raising a status in `IDLE` only writes it: there is no operation in progress to complete. -/
theorem raise_of_idle {s : State} (h : s.phase = .idle) (st : Status) : s.raise st = { s with status := st } := by
  rw [State.raise, ← h]

/-- The transport takes the frame's first bytes, or all of them (`20_memory.md` R67). -/
theorem onWire_isPrefix (e : Emission) : e.onWire <+: e.frame := by
  unfold Emission.onWire
  split
  · exact ⟨[], List.append_nil _⟩
  · exact ⟨e.frame.drop e.draw.taken, List.take_append_drop ..⟩

theorem onWire_of_txok {e : Emission} (h : e.draw.txok = true) : e.onWire = e.frame := if_pos h

/-- Settles O24: the row, the emission with its status, the busy block, the empty frame, and the wire. -/
theorem sendEmitsTheStoredFrame : Obligations.SendEmitsTheStoredFrame := by
  refine ⟨fun _ => decodeCmd_send, fun s hs hlen => ?_, fun _ => exec_command_busy rfl, fun s h => by rw [h]; rfl,
    fun e => ⟨onWire_isPrefix e, onWire_of_txok⟩⟩
  have hidle : (s.emit (s.elems .txbuf 0 s.txlen)).phase = .idle := hs
  rw [exec_send_idle hs (decide_eq_true hlen), raise_of_idle hidle]
  rfl

end Sys2Proof.Machine
end

section
/-! PROOFS. What the block emits (`41_tx_framer.md` R159): no operation but the emission of `SEND` and `XACT` adds to
`State.sent`. -/

namespace Sys2Proof.Machine

/-! ### The shared operations emit nothing -/

@[simp] theorem arm_sent (s : State) : (arm s).sent = s.sent := by
  rcases arm_cases s with ⟨-, h⟩ | ⟨-, h⟩ <;> simp [h]

@[simp] theorem arm_txbuf (s : State) : (arm s).txbuf = s.txbuf := by
  rcases arm_cases s with ⟨-, h⟩ | ⟨-, h⟩ <;> simp [h]

@[simp] theorem arm_txlen (s : State) : (arm s).txlen = s.txlen := by
  rcases arm_cases s with ⟨-, h⟩ | ⟨-, h⟩ <;> simp [h]

@[simp] theorem arm_epoch (s : State) : (arm s).epoch = s.epoch := by
  rcases arm_cases s with ⟨-, h⟩ | ⟨-, h⟩ <;> simp [h]

theorem storeFrame_sent {s t : State} {op : Byte} {args : List Byte} (h : storeFrame s op args = .ok t) :
    t.sent = s.sent := by
  obtain ⟨-, rfl⟩ := storeFrame_ok_iff.1 h
  rfl

theorem applyDecoded_sent {s t : State} {r : Decoded} (h : applyDecoded s r = .ok t) : t.sent = s.sent := by
  obtain ⟨-, rfl⟩ := applyDecoded_ok_iff.1 h
  rfl

theorem applyValidated_sent {s t : State} {r : Decoded} (h : applyValidated s r = .ok t) : t.sent = s.sent := by
  rcases applyValidated_ok_iff.1 h with ⟨-, -, rfl⟩ | ⟨-, rfl⟩ <;> rfl

theorem deframeRow_sent {s t : State} {row : List Byte → Decoded} (h : deframeRow s row = .ok t) :
    t.sent = s.sent := by
  obtain ⟨-, ⟨_, -, hr⟩ | ⟨_, _, -, hr⟩⟩ := deframeRow_ok h <;> exact applyDecoded_sent hr

theorem completeCapture_sent {s t : State} (h : completeCapture s = .ok t) : t.sent = s.sent := by
  rcases completeCapture_ok h with ⟨-, rfl⟩ | ⟨-, -, rfl⟩ | ⟨-, -, ht⟩
  · rfl
  · rfl
  · exact applyValidated_sent (completeTransaction_ok_iff.1 ht).2

theorem accumulate_sent {s t : State} {b : Byte} (h : accumulate s b = .ok t) : t.sent = s.sent := by
  rcases accumulate_ok h with ⟨-, rfl⟩ | ⟨-, ha⟩
  · rfl
  · obtain ⟨-, rfl⟩ := appendRx_ok_iff.1 ha
    rfl

theorem onTick_sent (s : State) : (onTick s).sent = s.sent := by
  rcases onTick_cases s with ⟨-, h⟩ | ⟨-, -, h⟩ | ⟨-, -, h⟩ <;> simp [h]

/-! ### The received bytes -/

theorem execRxByteStx_sent {s t : State} (h : execRxByteStx s = .next t) : t.sent = s.sent := by
  rcases execRxByteStx_next h with ⟨-, -, rfl⟩ | ⟨-, ha⟩
  · rfl
  · exact accumulate_sent ha

theorem execRxByteEtx_sent {s t : State} (h : execRxByteEtx s = .next t) : t.sent = s.sent := by
  rcases execRxByteEtx_next h with ⟨-, rfl⟩ | ⟨-, -, rfl⟩ | ⟨-, -, -, hc⟩
  · rfl
  · rfl
  · exact (completeCapture_sent hc :)

theorem execRxByteOther_sent {b : Byte} {s t : State} (h : execRxByteOther b s = .next t) : t.sent = s.sent := by
  rcases execRxByteOther_next h with ⟨-, rfl⟩ | ⟨-, ha⟩
  · rfl
  · exact accumulate_sent ha

/-! ### The commands -/

/-- A gated command emits nothing where its own rule emits nothing: setting `BUSYERR` is no emission. -/
theorem sent_of_gated {s t u : State} (h : (s.phase = .idle ∧ t = u) ∨ (s.phase ≠ .idle ∧ t = s.setFlag .busyerr))
    (hu : u.sent = s.sent) : t.sent = s.sent := by
  rcases h with ⟨-, rfl⟩ | ⟨-, rfl⟩
  · exact hu
  · rfl

theorem execArgPush_sent {a : Byte} {s t : State} (h : execArgPush a s = .next t) : t.sent = s.sent := by
  rcases execArgPush_next h with ⟨-, -, rfl⟩ | ⟨-, -, rfl⟩ | ⟨-, rfl⟩ <;> rfl

theorem execEnc_sent {a : Byte} {s t : State} (h : execEnc a s = .next t) : t.sent = s.sent := by
  rcases execEnc_next h with ⟨-, -, hs⟩ | ⟨-, rfl⟩
  · exact storeFrame_sent hs
  · rfl

theorem execDec_sent {s t : State} (h : execDec s = .next t) : t.sent = s.sent := by
  rcases execDec_next h with ⟨-, -, ha⟩ | ⟨-, rfl⟩
  · exact applyDecoded_sent ha
  · rfl

/-- One whole frame was emitted: the bytes that `TXBUF[0..TXLEN-1]` then holds, with the draw at hand (R159). -/
def EmitsTxbuf (s t : State) : Prop :=
  t.sent = s.sent ++ [{ frame := t.elems .txbuf 0 t.txlen, draw := s.draw }]

/-- What follows the emission keeps `TXBUF` and emits no more. -/
theorem EmitsTxbuf.congr {s t u : State} (h : EmitsTxbuf s t) (hsent : u.sent = t.sent) (hbuf : u.txbuf = t.txbuf)
    (hlen : u.txlen = t.txlen) (hepoch : u.epoch = t.epoch) : EmitsTxbuf s u := by
  rw [EmitsTxbuf, hsent, hlen, elems_congr (s := t) (sp := .txbuf) hbuf hepoch]
  exact h

/-- The frame that `SEND` hands to the channel is the one that stands in `TXBUF` (R158). -/
theorem emit_stored_emits (s : State) : EmitsTxbuf s (s.emit (s.elems .txbuf 0 s.txlen)) := by
  have hframe (f : List Byte) : (s.emit f).elems .txbuf 0 s.txlen = s.elems .txbuf 0 s.txlen :=
    elems_congr (sp := .txbuf) (emit_txbuf s f) (emit_epoch s f) ..
  rw [EmitsTxbuf, emit_txlen, hframe, emit_sent]

theorem execSend_emits {s t : State} (h : execSend s = .next t) :
    t.sent = s.sent ∨ (s.phase = .idle ∧ EmitsTxbuf s t) := by
  rcases execSend_next h with ⟨hs, -, rfl⟩ | ⟨-, rfl⟩
  · exact .inr ⟨hs, (emit_stored_emits s).congr rfl rfl rfl rfl⟩
  · exact .inl rfl

/-- The frame that `XACT` hands to the channel is the one it has stored in `TXBUF` (R226). -/
theorem xactSent_emits (a b : Byte) (s : State) : EmitsTxbuf s (xactSent a b s) := by
  have hframe : (xactSent a b s).elems .txbuf 0 (xactSent a b s).txlen = encodeFrame a s.args :=
    elems_of_writeAll (m := s.txbuf) rfl
  rw [EmitsTxbuf, hframe]
  rfl

theorem execXact_emits {a b : Byte} {s t : State} (h : execXact a b s = .next t) :
    t.sent = s.sent ∨ (s.phase = .idle ∧ EmitsTxbuf s t) := by
  rcases execXact_next h with ⟨hs, -, -, ⟨-, rfl⟩ | ⟨-, rfl⟩⟩ | ⟨-, rfl⟩
  · exact .inr ⟨hs, (xactSent_emits a b s).congr (arm_sent _) (arm_txbuf _) (arm_txlen _) (arm_epoch _)⟩
  · exact .inr ⟨hs, (xactSent_emits a b s).congr rfl rfl rfl rfl⟩
  · exact .inl rfl

/-! ### Every instruction, every event -/

/-- An instruction that is neither `SEND` nor `XACT` emits nothing. -/
theorem exec_sent {i : Instr} {s t : State} (hsend : i ≠ .send) (hxact : ∀ a b, i ≠ .xact a b)
    (h : exec i s = .next t) : t.sent = s.sent := by
  cases i with
  | nop => exact sent_of_gated (execNop_next h) rfl
  | crcClr => exact sent_of_gated (execCrcClr_next h) rfl
  | crcUpd a => exact sent_of_gated (execCrcUpd_next h) rfl
  | argClr => exact sent_of_gated (execArgClr_next h) rfl
  | argPush a => exact execArgPush_sent h
  | enc a => exact execEnc_sent h
  | send => exact absurd rfl hsend
  | capt => exact sent_of_gated (execCapt_next h) (arm_sent _)
  | dec => exact execDec_sent h
  | val a => exact sent_of_gated (execVal_next h) rfl
  | xact a b => exact absurd rfl (hxact a b)
  | tmoSet a b => exact sent_of_gated (execTmoSet_next h) rfl
  | flgClr => exact sent_of_gated (execFlgClr_next h) rfl
  | reservedD => exact sent_of_gated (execReservedD_next h) rfl
  | reservedE => exact sent_of_gated (execReservedE_next h) rfl
  | reservedF => exact sent_of_gated (execReservedF_next h) rfl
  | wireErrorAnswer => exact deframeRow_sent (finish_next_iff.1 h)
  | wireAnswer op => exact deframeRow_sent (finish_next_iff.1 h)
  | wireRtcReadRequest => exact storeFrame_sent (finish_next_iff.1 h)
  | wireRtcReadAnswer => exact deframeRow_sent (finish_next_iff.1 h)
  | rxByteStx => exact execRxByteStx_sent h
  | rxByteEtx => exact execRxByteEtx_sent h
  | rxByteOther b => exact execRxByteOther_sent h

/-- Everything an instruction can emit (R159). -/
theorem exec_emits {i : Instr} {s t : State} (h : exec i s = .next t) :
    t.sent = s.sent ∨ (s.phase = .idle ∧ (i = .send ∨ ∃ a b, i = .xact a b) ∧ EmitsTxbuf s t) := by
  by_cases hsend : i = .send
  · subst hsend
    exact (execSend_emits h).imp_right fun ⟨hs, he⟩ => ⟨hs, .inl rfl, he⟩
  · by_cases hxact : ∃ a b, i = .xact a b
    · obtain ⟨a, b, rfl⟩ := hxact
      exact (execXact_emits h).imp_right fun ⟨hs, he⟩ => ⟨hs, .inr ⟨a, b, rfl⟩, he⟩
    · exact .inl (exec_sent hsend (fun a b hi => hxact ⟨a, b, hi⟩) h)

/-- A received byte is no command, so its class emits nothing. -/
theorem exec_decodeRxByte_sent {b : Byte} {s t : State} (h : exec (decodeRxByte b) s = .next t) : t.sent = s.sent := by
  rcases decodeRxByte_cases b with ⟨-, hb⟩ | ⟨-, hb⟩ | ⟨-, -, hb⟩ <;> rw [hb] at h
  · exact execRxByteStx_sent h
  · exact execRxByteEtx_sent h
  · exact execRxByteOther_sent h

theorem onRxByte_sent {s t : State} (h : onRxByte s = .next t) : t.sent = s.sent := by
  rcases onRxByte_cases s with ⟨hn, -⟩ | ⟨b, q, -, -, hb⟩
  · rw [hn] at h
    cases h
    rfl
  · rw [hb] at h
    exact (exec_decodeRxByte_sent h :)

/-- Settles O25: event by event, a command by what its instruction can emit. -/
theorem onlySendAndXactEmit : Obligations.OnlySendAndXactEmit := by
  intro e s t h
  cases e with
  | cmd w d => exact (exec_emits h).imp_right fun ⟨hs, hi, he⟩ => ⟨w, d, rfl, hs, hi, he⟩
  | rxByte => exact .inl (onRxByte_sent h)
  | arrive b => cases h; exact .inl rfl
  | tick => cases h; exact .inl (onTick_sent s)
  | reset => cases h; exact .inl rfl

end Sys2Proof.Machine
end

section
/-! PROOFS. The RX capture automaton (`42_rx_capture.md`): the commands `TMO.SET` and `CAPT` (R171 to R174), what a
received byte does in `HUNT` (R177) and in `ACC` (R178 to R181), and the tick (R182, R183). -/

namespace Sys2Proof.Machine

/-! ### The commands -/

theorem decodeCmd_tmoSet {w : CmdWord} (h : cmdField w = 0xB) : decodeCmd w = .tmoSet (aField w) (bField w) := by
  simp [decodeCmd, h]

theorem decodeCmd_capt {w : CmdWord} (h : cmdField w = 0x7) : decodeCmd w = .capt := by
  simp [decodeCmd, h]

theorem timeoutValue_eq_append (a b : Byte) : timeoutValue a b = a ++ b := shiftLeft_or_eq_append a b

theorem exec_tmoSet_idle (a b : Byte) {s : State} (h : s.phase = .idle) :
    exec (.tmoSet a b) s = .next { s with timeout := a ++ b } := by
  rw [← timeoutValue_eq_append]
  exact whenIdle_idle h fun s => .next { s with timeout := timeoutValue a b }

/-- Settles O26: the row, the loaded value, and the busy block. -/
theorem tmoSetLoadsTimeout : Obligations.TmoSetLoadsTimeout :=
  ⟨fun _ => decodeCmd_tmoSet, fun a b _ => exec_tmoSet_idle a b, fun _ _ _ => exec_command_busy rfl⟩

/-- The state that `CAPT` arms: a standalone capture, nothing reported yet (R172). -/
def standaloneCapture (s : State) : State := { s with mode := .standalone, status := .loc .none }

theorem exec_capt_idle {s : State} (h : s.phase = .idle) : exec .capt s = .next (arm (standaloneCapture s)) :=
  whenIdle_idle h fun s => .next (arm (standaloneCapture s))

theorem arm_of_timeout_ne_zero {s : State} (h : s.timeout ≠ 0) :
    arm s = { s with rxlen := 0, tmr := s.timeout, phase := .hunt } := if_neg h

theorem arm_of_timeout_eq_zero {s : State} (h : s.timeout = 0) : arm s = timeOut s := if_pos h

/-- A timeout in `IDLE` only writes `STATUS` and `RXLEN`: there is no capture to end. -/
theorem timeOut_of_idle {s : State} (h : s.phase = .idle) :
    timeOut s = { s with rxlen := 0, status := .loc .timeout } :=
  raise_of_idle (s := { s with rxlen := 0 }) h _

/-- Settles O27: the row, the two ways of arming, and the busy block. -/
theorem captArmsOrTimesOut : Obligations.CaptArmsOrTimesOut := by
  refine ⟨fun _ => decodeCmd_capt, fun s hs ht => ?_, fun s hs ht => ?_, fun _ => exec_command_busy rfl⟩
  · rw [exec_capt_idle hs, arm_of_timeout_ne_zero (s := standaloneCapture s) ht]
    rfl
  · rw [exec_capt_idle hs, arm_of_timeout_eq_zero (s := standaloneCapture s) ht,
      timeOut_of_idle (s := standaloneCapture s) hs]
    rfl

/-! ### A byte in `HUNT` -/

/-- The state in which the `STX` has started a frame (R177). -/
def startedFrame (s : State) : State := { s with rxbuf := s.rxbuf.write 0 stx, rxlen := 1, phase := .acc }

theorem exec_rxByteStx_hunt {s : State} (h : s.phase = .hunt) (hfits : s.fits .rxbuf 1 = true) :
    exec .rxByteStx s = .next (startedFrame s) := by
  change execRxByteStx s = _
  rw [execRxByteStx, h, writeBuf_fits (bs := [stx]) hfits]
  rfl

theorem exec_rxByteEtx_hunt {s : State} (h : s.phase = .hunt) : exec .rxByteEtx s = .next s := by
  change execRxByteEtx s = _
  rw [execRxByteEtx, h]

theorem exec_rxByteOther_hunt (b : Byte) {s : State} (h : s.phase = .hunt) : exec (.rxByteOther b) s = .next s := by
  change execRxByteOther b s = _
  rw [execRxByteOther, h]

/-- Settles O28: the three classes of a byte. -/
theorem huntStartsOnStxOnly : Obligations.HuntStartsOnStxOnly :=
  ⟨fun s hs hfits => ⟨startedFrame s, exec_rxByteStx_hunt hs hfits, rfl, elem_of_write_same (s := s) rfl,
      fun _ => elem_of_write_other rfl rfl⟩,
    fun _ => exec_rxByteEtx_hunt, fun b _ hs _ _ => exec_rxByteOther_hunt b hs⟩

/-! ### A byte in `ACC` -/

/-- A byte that is no `ETX` is accumulated, a second `STX` like any other (R179). -/
theorem exec_decodeRxByte_acc {b : Byte} (hb : b ≠ etx) {s : State} (h : s.phase = .acc) :
    exec (decodeRxByte b) s = finish (accumulate s b) := by
  rcases decodeRxByte_cases b with ⟨rfl, hrow⟩ | ⟨rfl, -⟩ | ⟨-, -, hrow⟩
  · rw [hrow]
    change execRxByteStx s = _
    rw [execRxByteStx, h]
    rfl
  · exact absurd rfl hb
  · rw [hrow]
    change execRxByteOther b s = _
    rw [execRxByteOther, h]

theorem accumulate_full {s : State} (b : Byte) (hfull : s.params.rxCap = some s.rxlen) :
    accumulate s b = .ok (dropFrame s) := if_pos hfull

theorem exec_rxByteEtx_full {s : State} (h : s.phase = .acc) (hfull : s.params.rxCap = some s.rxlen) :
    exec .rxByteEtx s = .next (dropFrame s) := by
  change execRxByteEtx s = _
  rw [execRxByteEtx, h]
  exact if_pos hfull

/-- A full buffer drops the frame whatever the byte is (R178). -/
theorem exec_decodeRxByte_full (b : Byte) {s : State} (h : s.phase = .acc) (hfull : s.params.rxCap = some s.rxlen) :
    exec (decodeRxByte b) s = .next (dropFrame s) := by
  by_cases hb : b = etx
  · subst hb
    exact exec_rxByteEtx_full h hfull
  · rw [exec_decodeRxByte_acc hb h, accumulate_full b hfull, finish_ok]

/-- Settles O29: `dropFrame`, register by register. -/
theorem fullBufferDropsTheFrame : Obligations.FullBufferDropsTheFrame :=
  fun b _ hs hfull => exec_decodeRxByte_full b hs hfull

theorem not_full_of_room {s : State} (h : s.room = true) : s.params.rxCap ≠ some s.rxlen := by
  intro hfull
  simp [State.room, hfull] at h

/-- The state with a byte appended to the frame in `RXBUF` (R179). -/
def pushRx (s : State) (b : Byte) : State := { s with rxbuf := s.rxbuf.write s.rxlen b, rxlen := s.rxlen + 1 }

theorem appendRx_room {s : State} (b : Byte) (h : s.room = true) : appendRx s b = .ok (pushRx s b) :=
  appendRx_ok_iff.2 ⟨h, rfl⟩

theorem accumulate_room {s : State} (b : Byte) (h : s.room = true) : accumulate s b = .ok (pushRx s b) := by
  rw [accumulate, if_neg (not_full_of_room h), appendRx_room b h]

theorem elem_pushRx_same (s : State) (b : Byte) : (pushRx s b).elem .rxbuf s.rxlen = b :=
  elem_of_write_same (s := s) rfl

theorem elem_pushRx_other (s : State) (b : Byte) {i : Nat} (h : i ≠ s.rxlen) :
    (pushRx s b).elem .rxbuf i = s.elem .rxbuf i :=
  elem_of_write_other rfl rfl h

/-- The frame grows at its end. -/
theorem frame_pushRx (s : State) (b : Byte) : (pushRx s b).frame = s.frame ++ [b] := by
  have hbelow : (pushRx s b).elems .rxbuf 0 s.rxlen = s.frame :=
    elems_ext fun _ hk => elem_pushRx_other s b (Nat.ne_of_lt hk)
  calc (pushRx s b).frame
      = (pushRx s b).elems .rxbuf 0 s.rxlen ++ [(pushRx s b).elem .rxbuf (0 + s.rxlen)] := elems_succ ..
    _ = s.frame ++ [b] := by rw [hbelow, Nat.zero_add, elem_pushRx_same]

/-- What the frame in `RXBUF` depends on. -/
theorem frame_congr {s t : State} (hbuf : t.rxbuf = s.rxbuf) (hlen : t.rxlen = s.rxlen) (hepoch : t.epoch = s.epoch) :
    t.frame = s.frame := by
  rw [State.frame, hlen]
  exact elems_congr (sp := .rxbuf) hbuf hepoch ..

/-- Room for the byte: it is appended (R179). -/
theorem exec_decodeRxByte_room {b : Byte} (hb : b ≠ etx) {s : State} (h : s.phase = .acc) (hroom : s.room = true) :
    exec (decodeRxByte b) s = .next (pushRx s b) := by
  rw [exec_decodeRxByte_acc hb h, accumulate_room b hroom, finish_ok]

/-- Settles O30: the appended byte, the frame, and the other elements. -/
theorem everyOtherByteIsAccumulated : Obligations.EveryOtherByteIsAccumulated :=
  fun b s hb hs hroom => ⟨pushRx s b, exec_decodeRxByte_room hb hs hroom, rfl, frame_pushRx s b,
    fun _ => elem_pushRx_other s b⟩

/-! ### The `ETX` that ends the capture -/

/-- The state with the `ETX` stored and the capture over (R180). -/
def closedFrame (s : State) : State := { pushRx s etx with phase := .idle }

/-- Room for the `ETX`: it is stored, and the capture is completed from there (R180). -/
theorem exec_rxByteEtx_room {s : State} (h : s.phase = .acc) (hroom : s.room = true) :
    exec .rxByteEtx s = finish (completeCapture (closedFrame s)) := by
  change execRxByteEtx s = _
  rw [execRxByteEtx, h]
  change (if s.params.rxCap = some s.rxlen then _ else _) = _
  rw [if_neg (not_full_of_room hroom), appendRx_room etx hroom]
  rfl

theorem completeCapture_short {s : State} (h : s.rxlen < minFrame) : completeCapture s = .ok (timeOut s) := if_pos h

theorem completeCapture_standalone {s : State} (h : minFrame ≤ s.rxlen) (hmode : s.mode = .standalone) :
    completeCapture s = .ok (s.raise (.loc .dataReceived)) := by
  rw [completeCapture, if_neg (Nat.not_lt.2 h), hmode]

theorem completeCapture_transaction {s : State} (h : minFrame ≤ s.rxlen) (hmode : s.mode = .transaction) :
    completeCapture s = completeTransaction s := by
  rw [completeCapture, if_neg (Nat.not_lt.2 h), hmode]

/-- A decoded frame within its buffer's bounds completes the transaction whatever it holds (R227). -/
theorem completeTransaction_total {s : State} (h : s.fits .rxbuf s.rxlen = true) :
    ∃ t, completeTransaction s = .ok t := by
  have hpayload : s.fits .payload (decodeFrame s.frame).payload.length = true :=
    decoded_fits (by rwa [State.frame, elems_length])
  by_cases hv : validate (decodeFrame s.frame).status (decodeFrame s.frame).ansop s.exp = .loc .success
  · exact ⟨_, completeTransaction_ok_iff.2 ⟨h, applyValidated_ok_iff.2 (.inl ⟨hv, hpayload, rfl⟩)⟩⟩
  · exact ⟨_, completeTransaction_ok_iff.2 ⟨h, applyValidated_ok_iff.2 (.inr ⟨hv, rfl⟩)⟩⟩

/-- Settles O31: the short frame, the standalone capture, and the transaction. -/
theorem etxEndsTheCapture : Obligations.EtxEndsTheCapture := by
  refine ⟨fun s hs hroom hlen => ?_, fun s hs hroom hlen hmode => ?_, fun s hs hroom hlen hmode => ?_⟩
  · rw [exec_rxByteEtx_room hs hroom, completeCapture_short (s := closedFrame s) hlen]
    rfl
  · have hframe : ((closedFrame s).raise (.loc .dataReceived)).frame = s.frame ++ [etx] :=
      calc ((closedFrame s).raise (.loc .dataReceived)).frame
          = (pushRx s etx).frame := frame_congr rfl rfl rfl
        _ = s.frame ++ [etx] := frame_pushRx s etx
    refine ⟨(closedFrame s).raise (.loc .dataReceived), ?_, rfl, hframe, fun _ => elem_pushRx_other s etx⟩
    rw [exec_rxByteEtx_room hs hroom, completeCapture_standalone (s := closedFrame s) hlen hmode, finish_ok]
  · obtain ⟨t, ht⟩ := completeTransaction_total (s := closedFrame s) hroom
    refine ⟨t, ?_, ht⟩
    rw [exec_rxByteEtx_room hs hroom, completeCapture_transaction (s := closedFrame s) hlen hmode, ht, finish_ok]

/-! ### The tick -/

theorem onTick_idle {s : State} (h : s.phase = .idle) : onTick s = s := by
  rw [onTick, h]

theorem onTick_counts {s : State} (h : s.phase ≠ .idle) (htmr : 2 ≤ s.tmr.toNat) :
    onTick s = { s with tmr := s.tmr - 1 } := by
  rcases onTick_cases s with ⟨hidle, -⟩ | ⟨-, hle, -⟩ | ⟨-, -, ht⟩
  · exact absurd hidle h
  · omega
  · exact ht

theorem onTick_deadline {s : State} (h : s.phase ≠ .idle) (htmr : s.tmr.toNat = 1) :
    onTick s = timeOut { s with tmr := 0 } := by
  rcases onTick_cases s with ⟨hidle, -⟩ | ⟨-, -, ht⟩ | ⟨-, hge, -⟩
  · exact absurd hidle h
  · exact ht
  · omega

/-- Settles O33: the tick in `IDLE`, before the deadline, and at it. -/
theorem tickCountsDownToTheDeadline : Obligations.TickCountsDownToTheDeadline :=
  ⟨fun _ hs => congrArg Host.Outcome.next (onTick_idle hs),
    fun _ hs htmr => congrArg Host.Outcome.next (onTick_counts hs htmr),
    fun _ hs htmr => congrArg Host.Outcome.next (onTick_deadline hs htmr)⟩

end Sys2Proof.Machine
end

section
/-! PROOFS. The bounded end of an armed capture (`42_rx_capture.md` R184). `Capturing` is what the induction over a run
carries: it is kept by every event of the channel and every tick but the two that end the capture, the deadline and an
`ETX` taken in `ACC`. -/

namespace Sys2Proof.Machine

/-- What the channel and the clock can do: the events of R184. -/
def FromChannelOrClock (e : Event) : Prop := e = .tick ∨ e = .rxByte ∨ ∃ b, e = .arrive b

/-- A capture under way, the part of the invariants (`10_state.md` R46) that its end depends on. -/
structure Capturing (s : State) : Prop where
  params_ok : s.params.ok = true
  rxlen_fits : s.fits .rxbuf s.rxlen = true
  armed : s.phase ≠ .idle
  status_none : s.status = .loc .none
  tmr_pos : 1 ≤ s.tmr.toNat

/-- A capture that ended at its deadline (R183). -/
structure TimedOut (s : State) : Prop where
  idle : s.phase = .idle
  status_timeout : s.status = .loc .timeout
  rxlen_zero : s.rxlen = 0
  tmr_zero : s.tmr = 0

/-- The oldest byte of the channel is an `ETX` that would end the frame. -/
def EtxIsNext (s : State) : Prop := s.phase = .acc ∧ s.rxq.head? = some etx

/-- No `ETX` is taken in `ACC` along the run (R184). -/
def NoEtxTaken (es : List Event) (s : State) : Prop :=
  ∀ before later u, es = before ++ .rxByte :: later → handleAll before s = .next u → ¬ EtxIsNext u

theorem capturing_of_inv {s : State} (h : s.Inv) (hs : s.phase ≠ .idle) : Capturing s where
  params_ok := h.params_ok
  rxlen_fits := h.rxlen_fits
  armed := hs
  status_none := (h.armed hs).2
  tmr_pos := (h.armed hs).1

/-! ### Room in `RXBUF` -/

/-- Legal parameters leave room for a whole short frame (R9). -/
theorem fits_rxbuf_minFrame {s : State} (h : s.params.ok = true) : s.fits .rxbuf minFrame = true := by
  simp only [Params.ok, Bool.and_eq_true] at h
  exact h.1.2

/-- A buffer that is not full has room for one more byte. -/
theorem room_of_not_full {s : State} (hfits : s.fits .rxbuf s.rxlen = true) (h : s.params.rxCap ≠ some s.rxlen) :
    s.room = true := by
  rw [State.room, fits_rxbuf]
  rw [fits_rxbuf] at hfits
  cases hcap : s.params.rxCap with
  | none => rfl
  | some c =>
    rw [hcap] at hfits h
    have hle : s.rxlen ≤ c := by simpa using hfits
    have hne : c ≠ s.rxlen := by simpa using h
    simp only [Option.all_some, decide_eq_true_eq]
    omega

/-! ### A byte taken -/

/-- In `HUNT` no byte ends the capture or stops (R177). -/
theorem exec_decodeRxByte_hunt {s : State} (h : Capturing s) (hphase : s.phase = .hunt) (b : Byte) :
    ∃ t, exec (decodeRxByte b) s = .next t ∧ Capturing t ∧ t.tmr = s.tmr := by
  rcases decodeRxByte_cases b with ⟨-, hrow⟩ | ⟨-, hrow⟩ | ⟨-, -, hrow⟩ <;> rw [hrow]
  · have hone : s.fits .rxbuf 1 = true := fits_mono (by decide) (fits_rxbuf_minFrame h.params_ok)
    exact ⟨startedFrame s, exec_rxByteStx_hunt hphase hone, ⟨h.params_ok, hone, nofun, h.status_none, h.tmr_pos⟩, rfl⟩
  · exact ⟨s, exec_rxByteEtx_hunt hphase, h, rfl⟩
  · exact ⟨s, exec_rxByteOther_hunt b hphase, h, rfl⟩

/-- A dropped frame leaves the capture under way (R178). -/
theorem Capturing.dropFrame {s : State} (h : Capturing s) : Capturing (dropFrame s) where
  params_ok := h.params_ok
  rxlen_fits := fits_mono (Nat.zero_le minFrame) (fits_rxbuf_minFrame h.params_ok)
  armed := nofun
  status_none := h.status_none
  tmr_pos := h.tmr_pos

/-- An appended byte leaves the capture under way (R179). -/
theorem Capturing.pushRx {s : State} (h : Capturing s) (hroom : s.room = true) (b : Byte) : Capturing (pushRx s b) where
  params_ok := h.params_ok
  rxlen_fits := hroom
  armed := h.armed
  status_none := h.status_none
  tmr_pos := h.tmr_pos

/-- The completion of a capture within its buffer's bounds never stops. -/
theorem completeCapture_total {s : State} (h : s.fits .rxbuf s.rxlen = true) : ∃ t, completeCapture s = .ok t := by
  by_cases hlen : s.rxlen < minFrame
  · exact ⟨_, completeCapture_short hlen⟩
  · have hge : minFrame ≤ s.rxlen := Nat.not_lt.1 hlen
    cases hmode : s.mode with
    | standalone => exact ⟨_, completeCapture_standalone hge hmode⟩
    | transaction =>
      rw [completeCapture_transaction hge hmode]
      exact completeTransaction_total h

/-- A completion never leaves `IDLE`. -/
theorem completeCapture_phase {s t : State} (h : completeCapture s = .ok t) (hs : s.phase = .idle) :
    t.phase = .idle := by
  rcases completeCapture_ok h with ⟨-, rfl⟩ | ⟨-, -, rfl⟩ | ⟨-, -, ht⟩
  · rfl
  · rfl
  · rcases applyValidated_ok_iff.1 (completeTransaction_ok_iff.1 ht).2 with ⟨-, -, rfl⟩ | ⟨-, rfl⟩ <;> exact hs

/-- In `ACC` only an `ETX` that finds room ends the capture, and no byte stops (R178 to R180). -/
theorem exec_decodeRxByte_acc_capturing {s : State} (h : Capturing s) (hphase : s.phase = .acc) (b : Byte) :
    ∃ t, exec (decodeRxByte b) s = .next t ∧ ((Capturing t ∧ t.tmr = s.tmr) ∨ (b = etx ∧ t.phase = .idle)) := by
  by_cases hfull : s.params.rxCap = some s.rxlen
  · exact ⟨dropFrame s, exec_decodeRxByte_full b hphase hfull, .inl ⟨h.dropFrame, rfl⟩⟩
  · have hroom : s.room = true := room_of_not_full h.rxlen_fits hfull
    by_cases hb : b = etx
    · obtain ⟨t, ht⟩ := completeCapture_total (s := closedFrame s) hroom
      refine ⟨t, ?_, .inr ⟨hb, completeCapture_phase ht rfl⟩⟩
      rw [hb]
      exact (exec_rxByteEtx_room hphase hroom).trans (finish_next_iff.2 ht)
    · exact ⟨pushRx s b, exec_decodeRxByte_room hb hphase hroom, .inl ⟨h.pushRx hroom b, rfl⟩⟩

/-- Everything a received byte can do to a capture under way: none stops, and only an `ETX` in `ACC` ends it. -/
theorem exec_decodeRxByte_capturing {s : State} (h : Capturing s) (b : Byte) :
    ∃ t, exec (decodeRxByte b) s = .next t ∧
      ((Capturing t ∧ t.tmr = s.tmr) ∨ (s.phase = .acc ∧ b = etx ∧ t.phase = .idle)) := by
  cases hphase : s.phase with
  | idle => exact absurd hphase h.armed
  | hunt =>
    obtain ⟨t, ht, hkept⟩ := exec_decodeRxByte_hunt h hphase b
    exact ⟨t, ht, .inl hkept⟩
  | acc =>
    obtain ⟨t, ht, hcases⟩ := exec_decodeRxByte_acc_capturing h hphase b
    exact ⟨t, ht, hcases.imp_right fun hover => ⟨rfl, hover⟩⟩

/-- The bytes in the channel are no part of the capture. -/
theorem Capturing.with_rxq {s : State} (h : Capturing s) (q : List Byte) : Capturing { s with rxq := q } :=
  ⟨h.params_ok, h.rxlen_fits, h.armed, h.status_none, h.tmr_pos⟩

/-- The channel's offer leaves the capture under way unless it is an `ETX` in `ACC`. -/
theorem onRxByte_capturing {s : State} (h : Capturing s) :
    ∃ t, onRxByte s = .next t ∧ ((Capturing t ∧ t.tmr = s.tmr) ∨ (EtxIsNext s ∧ t.phase = .idle)) := by
  rcases onRxByte_cases s with ⟨hnext, -⟩ | ⟨b, q, -, hq, htaken⟩
  · exact ⟨s, hnext, .inl ⟨h, rfl⟩⟩
  · obtain ⟨t, ht, hkept | ⟨hacc, rfl, hidle⟩⟩ := exec_decodeRxByte_capturing (h.with_rxq q) b
    · exact ⟨t, htaken.trans ht, .inl hkept⟩
    · exact ⟨t, htaken.trans ht, .inr ⟨⟨hacc, congrArg List.head? hq⟩, hidle⟩⟩

/-! ### One event -/

/-- A tick counts down, or it is the deadline (R182, R183). -/
theorem onTick_capturing {s : State} (h : Capturing s) :
    (Capturing (onTick s) ∧ (onTick s).tmr.toNat + 1 = s.tmr.toNat) ∨ (s.tmr.toNat = 1 ∧ TimedOut (onTick s)) := by
  rcases Nat.eq_or_lt_of_le h.tmr_pos with hone | htwo
  · rw [onTick_deadline h.armed hone.symm]
    exact .inr ⟨hone.symm, rfl, rfl, rfl, rfl⟩
  · have hsub : (s.tmr - 1).toNat + 1 = s.tmr.toNat := by bv_omega
    have hpos : 1 ≤ (s.tmr - 1).toNat := by omega
    rw [onTick_counts h.armed htwo]
    exact .inl ⟨⟨h.params_ok, h.rxlen_fits, h.armed, h.status_none, hpos⟩, hsub⟩

/-- Everything an event of the channel or the clock can do to a capture under way: none of them stops. -/
theorem handleEvent_capturing {s : State} (h : Capturing s) {e : Event} (he : FromChannelOrClock e) :
    ∃ t, handleEvent e s = .next t ∧
      ((Capturing t ∧ t.tmr.toNat + [e].count .tick = s.tmr.toNat) ∨
       (e = .tick ∧ s.tmr.toNat = 1 ∧ TimedOut t) ∨
       (e = .rxByte ∧ EtxIsNext s ∧ t.phase = .idle)) := by
  rcases he with rfl | rfl | ⟨b, rfl⟩
  · rcases onTick_capturing h with hkept | hover
    · exact ⟨onTick s, rfl, .inl hkept⟩
    · exact ⟨onTick s, rfl, .inr (.inl ⟨rfl, hover⟩)⟩
  · obtain ⟨t, ht, ⟨hcap, htmr⟩ | hover⟩ := onRxByte_capturing h
    · exact ⟨t, ht, .inl ⟨hcap, congrArg BitVec.toNat htmr⟩⟩
    · exact ⟨t, ht, .inr (.inr ⟨rfl, hover⟩)⟩
  · exact ⟨{ s with rxq := s.rxq ++ [b] }, rfl, .inl ⟨h.with_rxq _, rfl⟩⟩

/-! ### A run -/

/-- In `IDLE` the channel and the clock change nothing but the channel's queue (R176, R182). -/
theorem handleEvent_of_idle {s : State} (h : s.phase = .idle) {e : Event} (he : FromChannelOrClock e) :
    ∃ q, handleEvent e s = .next { s with rxq := q } := by
  rcases he with rfl | rfl | ⟨b, rfl⟩
  · exact ⟨s.rxq, congrArg Host.Outcome.next (onTick_idle h)⟩
  · rcases onRxByte_cases s with ⟨hnext, -⟩ | ⟨_, _, hbusy, -⟩
    · exact ⟨s.rxq, hnext⟩
    · exact absurd h hbusy
  · exact ⟨s.rxq ++ [b], rfl⟩

theorem handleAll_of_idle {es : List Event} (hes : ∀ e ∈ es, FromChannelOrClock e) {s : State} (h : s.phase = .idle) :
    ∃ q, handleAll es s = .next { s with rxq := q } := by
  induction es generalizing s with
  | nil => exact ⟨s.rxq, rfl⟩
  | cons e es ih =>
    obtain ⟨he, hrest⟩ := List.forall_mem_cons.1 hes
    obtain ⟨q, hq⟩ := handleEvent_of_idle h he
    rw [handleAll_cons hq]
    exact ih hrest (s := { s with rxq := q }) h

theorem NoEtxTaken.tail {e : Event} {es : List Event} {s u : State} (h : NoEtxTaken (e :: es) s)
    (hstep : handleEvent e s = .next u) : NoEtxTaken es u :=
  fun before later v hes hv =>
    h (e :: before) later v (congrArg (List.cons e) hes) ((handleAll_cons hstep).trans hv)

/-- What R184 says of a run `es` from `s` that ends in `t`. -/
structure MeetsDeadline (es : List Event) (s t : State) : Prop where
  ended : s.tmr.toNat ≤ es.count .tick → t.phase = .idle
  timed_out : NoEtxTaken es s → s.tmr.toNat ≤ es.count .tick → TimedOut t
  counting : NoEtxTaken es s → es.count .tick < s.tmr.toNat →
    Capturing t ∧ t.tmr.toNat + es.count .tick = s.tmr.toNat

theorem meetsDeadline_nil {s : State} (h : Capturing s) : MeetsDeadline [] s s where
  ended hle := absurd (h.tmr_pos.trans hle) (Nat.not_succ_le_zero 0)
  timed_out _ hle := absurd (h.tmr_pos.trans hle) (Nat.not_succ_le_zero 0)
  counting _ _ := ⟨h, rfl⟩

/-- An event that takes its share of `TMR` passes the deadline on to the rest of the run. -/
theorem MeetsDeadline.cons {e : Event} {es : List Event} {s u t : State} (hstep : handleEvent e s = .next u)
    (htmr : u.tmr.toNat + [e].count .tick = s.tmr.toNat) (h : MeetsDeadline es u t) : MeetsDeadline (e :: es) s t := by
  have hcount : (e :: es).count .tick = [e].count .tick + es.count .tick := List.count_append (l₁ := [e])
  constructor
  · intro hle
    exact h.ended (by omega)
  · intro hnone hle
    exact h.timed_out (hnone.tail hstep) (by omega)
  · intro hnone hlt
    obtain ⟨hcap, hleft⟩ := h.counting (hnone.tail hstep) (by omega)
    exact ⟨hcap, by omega⟩

/-- The tick that is the deadline. -/
theorem meetsDeadline_of_timedOut {es : List Event} {s t : State} (hone : s.tmr.toNat = 1) (ht : TimedOut t) :
    MeetsDeadline (.tick :: es) s t := by
  have hcount : (Event.tick :: es).count .tick = es.count .tick + 1 := List.count_cons_self
  exact ⟨fun _ => ht.idle, fun _ _ => ht, fun _ hlt => by omega⟩

/-- An `ETX` that ended the capture before its deadline. -/
theorem meetsDeadline_of_etx {es : List Event} {s t : State} (hetx : EtxIsNext s) (ht : t.phase = .idle) :
    MeetsDeadline (.rxByte :: es) s t := by
  have hsome : ¬ NoEtxTaken (.rxByte :: es) s := fun hnone => hnone [] es s rfl rfl hetx
  exact ⟨fun _ => ht, fun hnone => absurd hnone hsome, fun hnone => absurd hnone hsome⟩

/-- Every run of the channel and the clock from a capture under way goes on and meets the deadline (R184). -/
theorem handleAll_meetsDeadline {es : List Event} (hes : ∀ e ∈ es, FromChannelOrClock e) {s : State}
    (h : Capturing s) : ∃ t, handleAll es s = .next t ∧ MeetsDeadline es s t := by
  induction es generalizing s with
  | nil => exact ⟨s, rfl, meetsDeadline_nil h⟩
  | cons e es ih =>
    obtain ⟨he, hrest⟩ := List.forall_mem_cons.1 hes
    obtain ⟨u, hstep, ⟨hcap, htmr⟩ | ⟨rfl, hone, hout⟩ | ⟨rfl, hetx, hidle⟩⟩ := handleEvent_capturing h he
    · obtain ⟨t, ht, hmeets⟩ := ih hrest hcap
      exact ⟨t, (handleAll_cons hstep).trans ht, hmeets.cons hstep htmr⟩
    · obtain ⟨q, hq⟩ := handleAll_of_idle hrest hout.idle
      have hkept : TimedOut { u with rxq := q } := ⟨hout.idle, hout.status_timeout, hout.rxlen_zero, hout.tmr_zero⟩
      exact ⟨_, (handleAll_cons hstep).trans hq, meetsDeadline_of_timedOut hone hkept⟩
    · obtain ⟨q, hq⟩ := handleAll_of_idle hrest hidle
      exact ⟨_, (handleAll_cons hstep).trans hq, meetsDeadline_of_etx hetx hidle⟩

/-- Settles O34, by induction on the run: a state with the invariants has a capture under way. -/
theorem armedCaptureEndsByItsDeadline : Obligations.ArmedCaptureEndsByItsDeadline := by
  intro s es hinv hs hes
  obtain ⟨t, ht, hmeets⟩ := handleAll_meetsDeadline hes (capturing_of_inv hinv hs)
  refine ⟨t, ht, hmeets.ended, fun hnoEtx => ?_⟩
  have hnone : NoEtxTaken es s := fun before later u heq hu hetx => hnoEtx before later u heq hu hetx.1 hetx.2
  constructor
  · intro hle
    have hout := hmeets.timed_out hnone hle
    exact ⟨hout.status_timeout, hout.rxlen_zero, hout.tmr_zero⟩
  · intro hlt
    obtain ⟨hcap, hleft⟩ := hmeets.counting hnone hlt
    exact ⟨hcap.armed, hcap.status_none, by omega⟩

end Sys2Proof.Machine
end

section
/-! PROOFS. The deframer (`43_deframer.md`): reading is the inverse of writing for whole sequences (R203 to R205), what
each kind of sequence decodes to (R201), and `DEC` (R200). -/

namespace Sys2Proof.Machine

/-! ### Sequences of digits -/

/-- Exactly the characters of a byte sequence read as it (R204). -/
theorem unhexAll_eq_some_iff {cs bs : List Byte} : unhexAll cs = some bs ↔ cs = hexAll bs := by
  constructor
  · intro h
    induction cs using unhexAll.induct generalizing bs with
    | case1 =>
      cases h
      rfl
    | case2 c => exact absurd h (by simp [unhexAll])
    | case3 c1 c2 cs b bs' hbs hb ih =>
      simp only [unhexAll, hb, hbs, Option.some.injEq] at h
      rw [← h, hexAll, unhex_eq_some_iff.1 hb, ← ih hbs]
      rfl
    | case4 c1 c2 cs hno ih =>
      simp only [unhexAll] at h
      exact absurd h (by simp)
  · rintro rfl
    induction bs with
    | nil => rfl
    | cons b bs ih =>
      have hb : unhex (digit (b.extractLsb' 4 4)) (digit (b.extractLsb' 0 4)) = some b := unhex_eq_some_iff.2 rfl
      simp [hexAll, hexU, unhexAll, hb, ih]

/-- Two digits are the characters of a byte (R100, R101). -/
theorem exists_hexU {c1 c2 : Byte} (h1 : nib c1 ≠ none) (h2 : nib c2 ≠ none) : ∃ b, hexU b = [c1, c2] := by
  obtain ⟨hi, hhi⟩ := Option.ne_none_iff_exists'.1 h1
  obtain ⟨lo, hlo⟩ := Option.ne_none_iff_exists'.1 h2
  exact ⟨hi ++ lo, unhex_eq_some_iff.1 (unhex_of_nibs hhi hlo)⟩

/-- An even number of digits are the characters of a byte sequence (R203, R204). -/
theorem exists_hexAll : ∀ {cs : List Byte}, cs.length % 2 = 0 → (∀ c ∈ cs, nib c ≠ none) → ∃ bs, cs = hexAll bs
  | [], _, _ => ⟨[], rfl⟩
  | [_], hlen, _ => absurd hlen (by simp)
  | c1 :: c2 :: cs, hlen, hdigits => by
    simp only [List.forall_mem_cons] at hdigits
    obtain ⟨h1, h2, hcs⟩ := hdigits
    obtain ⟨b, hb⟩ := exists_hexU h1 h2
    have heven : cs.length % 2 = 0 := by
      simp only [List.length_cons] at hlen
      omega
    obtain ⟨bs, hbs⟩ := exists_hexAll heven hcs
    exact ⟨b :: bs, by rw [hexAll, hb, hbs]; rfl⟩

/-- The characters of two bytes are the field of the CRC that has the first as its low byte (R103). -/
theorem hexAll_pair (lo hi : Byte) : hexAll [lo, hi] = crcField (hi ++ lo) := (crcField_append hi lo).symm

/-- Four digits or more, an even number of them, are a body and a CRC field (R204). -/
theorem exists_body_and_field {i : List Byte} (hlen : 4 ≤ i.length) (heven : i.length % 2 = 0)
    (hdigits : ∀ c ∈ i, nib c ≠ none) : ∃ body claimed, i = hexAll body ++ crcField claimed := by
  obtain ⟨bs, rfl⟩ := exists_hexAll heven hdigits
  rw [hexAll_length] at hlen
  have hlast : (bs.drop (bs.length - 2)).length = 2 := by
    rw [List.length_drop]
    omega
  obtain ⟨lo, hi, hpair⟩ := List.length_eq_two.1 hlast
  refine ⟨bs.take (bs.length - 2), hi ++ lo, ?_⟩
  rw [← hexAll_pair, ← hpair, ← hexAll_append, List.take_append_drop]

/-- A body and a CRC field hold digits only (R96). -/
theorem nib_ne_none_of_mem_body_and_field {body : List Byte} {claimed : Word} {c : Byte}
    (h : c ∈ hexAll body ++ crcField claimed) : nib c ≠ none := by
  obtain ⟨n, rfl⟩ : ∃ n, c = digit n := (List.mem_append.1 h).elim mem_hexAll mem_crcField
  simp

/-- A sequence of odd length, or with a character that is no digit, is no body and CRC field. -/
theorem ne_body_and_field {i : List Byte} (h : i.length % 2 = 1 ∨ ∃ c ∈ i, nib c = none) (body : List Byte)
    (claimed : Word) : i ≠ hexAll body ++ crcField claimed := by
  rintro rfl
  rcases h with hodd | ⟨c, hc, hnib⟩
  · simp only [List.length_append, hexAll_length, crcField_length] at hodd
    omega
  · exact nib_ne_none_of_mem_body_and_field hc hnib

/-! ### Steps 1 to 5 -/

theorem framed_iff (f : List Byte) :
    framed f = true ↔ 6 ≤ f.length ∧ f.head? = some 0x02 ∧ f.getLast? = some 0x03 := by
  simp only [framed, Bool.and_eq_true, decide_eq_true_eq, beq_iff_eq, and_assoc]
  rfl

theorem interior_between (a b : Byte) (i : List Byte) : interior ([a] ++ i ++ [b]) = i := by
  simp [interior]

/-- Step 1 (R202). -/
theorem openFrame_unframed {f : List Byte} (h : framed f ≠ true) : openFrame f = .error malformed := if_neg h

/-- Steps 2 and 3 (R203, R204). -/
theorem openFrame_unreadable {f : List Byte} (h : ∀ body claimed, interior f ≠ hexAll body ++ crcField claimed) :
    openFrame f = .error malformed := by
  unfold openFrame
  split
  · simp only
    split
    · rename_i body claimed hbody hfield
      have hsplit : interior f = hexAll body ++ crcField claimed := by
        rw [← unhexAll_eq_some_iff.1 hbody, ← crcValue_eq_some_iff.1 hfield, List.take_append_drop]
      exact absurd hsplit (h body claimed)
    · rfl
  · rfl

/-- The frame of a body with a CRC that need not be the body's. -/
def frameClaiming (body : List Byte) (claimed : Word) : List Byte :=
  [stx] ++ hexAll body ++ crcField claimed ++ [etx]

theorem encodeFrame_eq_frameClaiming (op : Byte) (args : List Byte) :
    encodeFrame op args = frameClaiming (op :: args) (crc16 (op :: args)) := rfl

@[simp] theorem framed_frameClaiming (body : List Byte) (claimed : Word) :
    framed (frameClaiming body claimed) = true := by
  rw [framed_iff]
  refine ⟨?_, rfl, List.getLast?_concat⟩
  simp only [frameClaiming, List.length_append, List.length_singleton, hexAll_length, crcField_length]
  omega

@[simp] theorem interior_frameClaiming (body : List Byte) (claimed : Word) :
    interior (frameClaiming body claimed) = hexAll body ++ crcField claimed := by
  rw [frameClaiming, List.append_assoc [stx], interior_between]

/-- The interior's last four characters are the field, those before it the body's (R204). -/
theorem body_frameClaiming (body : List Byte) (claimed : Word) :
    unhexAll ((hexAll body ++ crcField claimed).take ((hexAll body ++ crcField claimed).length - 4)) = some body := by
  rw [unhexAll_eq_some_iff]
  exact List.take_left' (by simp)

theorem field_frameClaiming (body : List Byte) (claimed : Word) :
    crcValue ((hexAll body ++ crcField claimed).drop ((hexAll body ++ crcField claimed).length - 4)) = some claimed := by
  rw [crcValue_eq_some_iff]
  exact List.drop_left' (by simp)

/-- Step 4 (R206). -/
theorem openFrame_wrong_crc {body : List Byte} {claimed : Word} (h : claimed ≠ crc16 body) :
    openFrame (frameClaiming body claimed) = .error crcFailed := by
  simp only [openFrame, framed_frameClaiming, interior_frameClaiming, body_frameClaiming, field_frameClaiming,
    if_neg h, if_true]

/-- Step 5 (R207). -/
theorem openFrame_empty_body : openFrame (frameClaiming [] (crc16 [])) = .error malformed := by
  simp only [openFrame, framed_frameClaiming, interior_frameClaiming, body_frameClaiming, field_frameClaiming, if_true]

/-- A body that passes steps 1 to 5. -/
theorem openFrame_cons (b : Byte) (rest : List Byte) :
    openFrame (frameClaiming (b :: rest) (crc16 (b :: rest))) = .ok (b, rest) := by
  simp only [openFrame, framed_frameClaiming, interior_frameClaiming, body_frameClaiming, field_frameClaiming, if_true]

/-! ### The outcome -/

theorem decodeFrame_of_error {f : List Byte} {r : Decoded} (h : openFrame f = .error r) : decodeFrame f = r := by
  simp only [decodeFrame, h]

/-- Step 6 (R208). -/
theorem decodeFrame_errorFrame (rest : List Byte) :
    decodeFrame (frameClaiming (errOp :: rest) (crc16 (errOp :: rest))) = errorFrame rest := by
  simp only [decodeFrame, openFrame_cons, if_true]

/-- Step 7 (R209). -/
theorem decodeFrame_answerFrame {op : Byte} (h : op ≠ errOp) (rest : List Byte) :
    decodeFrame (frameClaiming (op :: rest) (crc16 (op :: rest))) = answerFrame op rest := by
  simp only [decodeFrame, openFrame_cons, if_neg h]

/-- An error frame without two bytes of code is malformed (R208). -/
theorem errorFrame_short {rest : List Byte} (h : rest.length < 2) : errorFrame rest = malformed := by
  match rest, h with
  | [], _ => rfl
  | [_], _ => rfl

/-- Settles O20: each clause is one step of `decode`, or says which interiors are a body and a CRC field. -/
theorem decodeTakesTheFirstOutcome : Obligations.DecodeTakesTheFirstOutcome := by
  refine ⟨fun f hf => ?unframed, fun i _ hi => ?unreadable, fun _ => exists_body_and_field,
    fun _ _ hcrc => decodeFrame_of_error (openFrame_wrong_crc hcrc), decodeFrame_of_error openFrame_empty_body,
    fun rest hrest => ?shortCode, fun _ _ rest => decodeFrame_errorFrame (_ :: _ :: rest),
    fun _ rest hop => decodeFrame_answerFrame hop rest, rfl⟩
  case unframed => exact decodeFrame_of_error (openFrame_unframed (mt (framed_iff f).1 hf))
  case unreadable =>
    apply decodeFrame_of_error (openFrame_unreadable _)
    rw [interior_between]
    exact ne_body_and_field hi
  case shortCode => exact (decodeFrame_errorFrame rest).trans (errorFrame_short hrest)

/-! ### `DEC` -/

theorem decodeCmd_dec {w : CmdWord} (h : cmdField w = 0x8) : decodeCmd w = .dec := by
  simp [decodeCmd, h]

/-- The state with a decoded frame in its result registers (R200). -/
def withDecoded (s : State) (r : Decoded) : State :=
  { s with status := r.status, ansop := r.ansop, payload := s.payload.writeAll 0 r.payload,
           plen := r.payload.length, flags := if r.malf then withFlag s.flags .malf else s.flags }

theorem exec_dec_idle {s : State} (h : s.phase = .idle) (hfits : s.fits .rxbuf s.rxlen = true) :
    exec .dec s = .next (withDecoded s (decodeFrame s.frame)) := by
  have hroom : s.fits .payload (decodeFrame s.frame).payload.length = true :=
    decoded_fits (by rwa [State.frame, elems_length])
  have happly : applyDecoded s (decodeFrame s.frame) = .ok (withDecoded s (decodeFrame s.frame)) :=
    applyDecoded_ok_iff.2 ⟨hroom, rfl⟩
  change execDec s = _
  rw [execDec, whenIdle_idle h, readBuf_fits hfits]
  change finish (applyDecoded s (decodeFrame s.frame)) = _
  rw [happly, finish_ok]

theorem result_withDecoded (s : State) (r : Decoded) : (withDecoded s r).result = r.payload :=
  elems_of_writeAll (m := s.payload) rfl

theorem elem_withDecoded_above (s : State) {r : Decoded} {i : Nat} (h : r.payload.length ≤ i) :
    (withDecoded s r).elem .payload i = s.elem .payload i :=
  elem_of_writeAll_above (i := 0) rfl rfl (by omega)

/-- The result registers are none of those that the frame is read from. -/
theorem frame_withDecoded (s : State) (r : Decoded) : (withDecoded s r).frame = s.frame := frame_congr rfl rfl rfl

/-- A flag that is set stays so when it is set again: the bits are sticky (R36). -/
theorem withFlag_withFlag (flags : BitVec 5) (f : Flag) : withFlag (withFlag flags f) f = withFlag flags f := by
  rw [withFlag, withFlag, BitVec.or_assoc, BitVec.or_self]

theorem flags_withDecoded_twice (s : State) (r : Decoded) :
    (withDecoded (withDecoded s r) r).flags = (withDecoded s r).flags := by
  cases hm : r.malf <;> simp [withDecoded, hm, withFlag_withFlag]

/-- A second `DEC` decodes the same frame into the same registers (R200). -/
theorem exec_dec_again {s : State} (h : s.phase = .idle) (hfits : s.fits .rxbuf s.rxlen = true) :
    exec .dec (withDecoded s (decodeFrame s.frame)) =
      .next (withDecoded (withDecoded s (decodeFrame s.frame)) (decodeFrame s.frame)) := by
  have hsecond := exec_dec_idle (s := withDecoded s (decodeFrame s.frame)) h hfits
  rwa [frame_withDecoded] at hsecond

/-- Settles O36: the row, the result registers with what they leave alone, the repetition, and the busy block. -/
theorem decWritesTheDecodedFrame : Obligations.DecWritesTheDecodedFrame :=
  ⟨fun _ => decodeCmd_dec,
    fun s hs hfits => ⟨withDecoded s (decodeFrame s.frame), exec_dec_idle hs hfits, rfl, result_withDecoded ..,
      fun _ => elem_withDecoded_above s,
      ⟨_, exec_dec_again hs hfits, rfl, rfl, rfl, by rw [result_withDecoded, result_withDecoded],
        flags_withDecoded_twice ..⟩⟩,
    fun _ => exec_command_busy rfl⟩

end Sys2Proof.Machine
end

section
/-! PROOFS. The transaction engine (`44_validator_transaction.md`): housekeeping and reserved codes (R230, R231, R233),
commands while busy (R232), the start of a transaction (R226) and its completion by the `ETX` of a frame (R227). -/

namespace Sys2Proof.Machine

/-! ### Housekeeping, reserved codes, commands while busy -/

theorem decodeCmd_nop {w : CmdWord} (h : cmdField w = 0x0) : decodeCmd w = .nop := by
  simp [decodeCmd, h]

theorem decodeCmd_flgClr {w : CmdWord} (h : cmdField w = 0xC) : decodeCmd w = .flgClr := by
  simp [decodeCmd, h]

theorem exec_nop_idle {s : State} (h : s.phase = .idle) : exec .nop s = .next s := whenIdle_idle h .next

theorem exec_flgClr_idle {s : State} (h : s.phase = .idle) : exec .flgClr s = .next { s with flags := 0 } :=
  whenIdle_idle h fun s => .next { s with flags := 0 }

/-- Settles O50: the two rows, each in `IDLE` and busy, and the reserved codes. -/
theorem housekeepingCommands : Obligations.HousekeepingCommands :=
  ⟨fun _ => decodeCmd_nop, fun _ => decodeCmd_flgClr, fun _ => exec_nop_idle, fun _ => exec_command_busy rfl,
    fun _ => exec_flgClr_idle, fun _ => exec_command_busy rfl,
    fun _ hs => ⟨exec_reserved_idle (.inl rfl) hs, exec_reserved_idle (.inr (.inl rfl)) hs,
      exec_reserved_idle (.inr (.inr rfl)) hs⟩⟩

/-- Settles O51: the gate of R232, with `BUSYERR` as bit 3 of `FLAGS`. -/
theorem busyCommandsOnlySetBusyerr : Obligations.BusyCommandsOnlySetBusyerr := fun _ _ => exec_command_busy

/-! ### The start of a transaction -/

theorem decodeCmd_xact {w : CmdWord} (h : cmdField w = 0xA) : decodeCmd w = .xact (aField w) (bField w) := by
  simp [decodeCmd, h]

/-- The state that `XACT` arms once its frame has been sent (R226). -/
def transactionCapture (a b : Byte) (s : State) : State := { xactSent a b s with mode := .transaction }

/-- The state in which the event of `XACT` ends: armed or timed out where the frame was sent, else `HW_ERR` (R226). -/
def xactDone (a b : Byte) (s : State) : State :=
  if s.draw.txok then arm (transactionCapture a b s) else (xactSent a b s).raise (.loc .hwErr)

theorem xactDone_of_txok (a b : Byte) {s : State} (h : s.draw.txok = true) :
    xactDone a b s = arm (transactionCapture a b s) := if_pos h

theorem xactDone_of_not_txok (a b : Byte) {s : State} (h : s.draw.txok = false) :
    xactDone a b s = (xactSent a b s).raise (.loc .hwErr) := if_neg (ne_true_of_eq_false h)

theorem exec_xact_idle (a b : Byte) {s : State} (h : s.phase = .idle) (hargs : s.arglen ≤ s.params.argMax) :
    exec (.xact a b) s = .next (xactDone a b s) := by
  have hread : readBuf s .argbuf s.arglen = .ok s.args := readBuf_fits (decide_eq_true hargs)
  have hstore : storeFrame { s with status := .loc .none, ansop := 0x00, plen := 0, exp := b } a s.args = .ok _ :=
    storeFrame_ok_iff.2 ⟨args_frame_fits a hargs, rfl⟩
  change execXact a b s = _
  simp only [execXact, whenIdle_idle h, hread, hstore, xactDone, apply_ite Host.Outcome.next]
  rfl

/-- However `XACT` ends, `TXBUF` and `TXLEN` are those of the stored frame (R226). -/
theorem xactDone_tx (a b : Byte) (s : State) :
    (xactDone a b s).txbuf = (holdingTx s (encodeFrame a s.args)).txbuf ∧
    (xactDone a b s).txlen = (encodeFrame a s.args).length ∧ (xactDone a b s).epoch = s.epoch := by
  unfold xactDone
  split
  · exact ⟨arm_txbuf _, arm_txlen _, arm_epoch _⟩
  · exact ⟨rfl, rfl, rfl⟩

/-- Settles O43: the row, the stored frame, the three endings, and the busy block. -/
theorem xactSendsThenArms : Obligations.XactSendsThenArms := by
  refine ⟨fun _ => decodeCmd_xact, fun a b s hs hargs => ?_, fun _ _ _ => exec_command_busy rfl⟩
  obtain ⟨hbuf, hlen, hepoch⟩ := xactDone_tx a b s
  refine ⟨xactDone a b s, exec_xact_idle a b hs hargs, ?frame, ?length, fun i hi => ?above, fun hd => ?notSent,
    fun hd ht => ?timedOut, fun hd ht => ?armed⟩
  case frame =>
    rw [hlen, elems_congr (s := holdingTx s (encodeFrame a s.args)) (sp := .txbuf) hbuf hepoch]
    exact elems_holdingTx ..
  case length => rw [hlen, encodeFrame_length, args_length]
  case above =>
    rw [elem_congr (s := holdingTx s (encodeFrame a s.args)) (sp := .txbuf) hbuf hepoch]
    exact elem_holdingTx_above s (hlen ▸ hi)
  case notSent =>
    rw [xactDone_of_not_txok a b hd, raise_of_idle (s := xactSent a b s) hs]
    rfl
  case timedOut =>
    rw [xactDone_of_txok a b hd, arm_of_timeout_eq_zero (s := transactionCapture a b s) ht,
      timeOut_of_idle (s := transactionCapture a b s) hs]
    rfl
  case armed =>
    rw [xactDone_of_txok a b hd, arm_of_timeout_ne_zero (s := transactionCapture a b s) ht]
    rfl

/-! ### The completion of a transaction -/

/-- The state with a decoded frame and its validated status in the result registers of a transaction (R227). -/
def withValidated (s : State) (r : Decoded) : State :=
  { s with
    status := validate r.status r.ansop s.exp, ansop := r.ansop,
    flags := if r.malf then withFlag s.flags .malf else s.flags,
    payload := if validate r.status r.ansop s.exp = .loc .success then s.payload.writeAll 0 r.payload else s.payload,
    plen := if validate r.status r.ansop s.exp = .loc .success then r.payload.length else 0 }

theorem applyValidated_fits {s : State} {r : Decoded} (h : s.fits .payload r.payload.length = true) :
    applyValidated s r = .ok (withValidated s r) := by
  by_cases hv : validate r.status r.ansop s.exp = .loc .success
  · exact applyValidated_ok_iff.2 (.inl ⟨hv, h, by simp only [withValidated, hv, if_true]⟩)
  · exact applyValidated_ok_iff.2 (.inr ⟨hv, by simp only [withValidated, hv, if_false]⟩)

theorem completeTransaction_fits {s : State} (h : s.fits .rxbuf s.rxlen = true) :
    completeTransaction s = .ok (withValidated s (decodeFrame s.frame)) :=
  completeTransaction_ok_iff.2 ⟨h, applyValidated_fits (decoded_fits (by rwa [elems_length]))⟩

theorem frame_closedFrame (s : State) : (closedFrame s).frame = s.frame ++ [etx] :=
  calc (closedFrame s).frame
      = (pushRx s etx).frame := frame_congr rfl rfl rfl
    _ = s.frame ++ [etx] := frame_pushRx s etx

/-- The result registers are none of those that the frame is read from. -/
theorem frame_withValidated (s : State) (r : Decoded) : (withValidated s r).frame = s.frame := frame_congr rfl rfl rfl

/-- On `SUCCESS` the payload is the decoded one (R227). -/
theorem result_withValidated {s : State} {r : Decoded} (h : validate r.status r.ansop s.exp = .loc .success) :
    (withValidated s r).result = r.payload := by
  have hplen : (withValidated s r).plen = r.payload.length := if_pos h
  have hmem : (withValidated s r).payload = s.payload.writeAll 0 r.payload := if_pos h
  rw [State.result, hplen]
  exact elems_of_writeAll (sp := .payload) hmem

/-- The elements of `PAYLOAD` from `PLEN` on are untouched: all of them where the frame is no `SUCCESS` (R227). -/
theorem elem_withValidated_above (s : State) (r : Decoded) {i : Nat} (h : (withValidated s r).plen ≤ i) :
    (withValidated s r).elem .payload i = s.elem .payload i := by
  by_cases hv : validate r.status r.ansop s.exp = .loc .success
  · have hplen : (withValidated s r).plen = r.payload.length := if_pos hv
    exact elem_of_writeAll_above (sp := .payload) (if_pos hv) rfl (by omega : 0 + r.payload.length ≤ i)
  · have hmem : (withValidated s r).payload = s.payload := if_neg hv
    exact elem_congr (sp := .payload) hmem rfl i

/-- What the validation of a captured frame can give: no transaction ends in `DATA_RECEIVED` (R227). -/
theorem validate_decodeFrame_cases (f : List Byte) (e : Byte) {v : Status}
    (h : v = validate (decodeFrame f).status (decodeFrame f).ansop e) :
    v = .loc .success ∨ v = .loc .opcodeMismatch ∨ v = .loc .crcNotValid ∨ ∃ code, v = .terminal code := by
  rcases decodeFrame_cases f with hf | hf | ⟨code, hf⟩ | ⟨op, rest, -, -, hf⟩ <;> rw [hf] at h
  · exact .inr (.inr (.inl h))
  · exact .inr (.inr (.inl h))
  · exact .inr (.inr (.inr ⟨code, h⟩))
  · by_cases hop : op = e
    · exact .inl (h.trans (if_pos hop))
    · exact .inr (.inl (h.trans (if_neg hop)))

/-- The `ETX` of a transaction's frame decodes and validates it in the same event (R227). -/
theorem exec_rxByteEtx_transaction {s : State} (h : s.phase = .acc) (hroom : s.room = true)
    (hlen : minFrame ≤ s.rxlen + 1) (hmode : s.mode = .transaction) :
    exec .rxByteEtx s = .next (withValidated (closedFrame s) (decodeFrame (s.frame ++ [etx]))) := by
  rw [exec_rxByteEtx_room h hroom, completeCapture_transaction (s := closedFrame s) hlen hmode,
    completeTransaction_fits (s := closedFrame s) hroom, finish_ok, frame_closedFrame]

/-- Settles O44: the completed state, the captured frame, the payload, and the possible statuses. -/
theorem etxCompletesTheTransaction : Obligations.EtxCompletesTheTransaction := by
  intro s r v hs hroom hlen hmode hr hv
  subst hr hv
  refine ⟨_, exec_rxByteEtx_transaction hs hroom hlen hmode, rfl, ?frame, result_withValidated (s := closedFrame s),
    fun i hi => ?rxbuf, fun i hi => ?payload, validate_decodeFrame_cases _ s.exp rfl⟩
  case frame => exact (frame_withValidated ..).trans (frame_closedFrame s)
  case rxbuf => exact elem_pushRx_other s etx hi
  case payload => exact elem_withValidated_above (closedFrame s) _ hi

end Sys2Proof.Machine
end

section
/-! PROOFS. How `PHASE` moves (`44_validator_transaction.md` R234): the arming commands, every other command, a byte
taken in `HUNT` and in `ACC`, and the tick. -/

namespace Sys2Proof.Machine

/-! ### Commands -/

theorem flag_setFlag_same (s : State) (f : Flag) : (s.setFlag f).flag f = true := by
  cases f <;> simp [State.flag, State.setFlag, withFlag, Flag.bit]

/-- Arming leads to `HUNT`, or at once to a timeout (R173, R174). -/
theorem arm_phase (s : State) :
    (s.timeout ≠ 0 → (arm s).phase = .hunt) ∧
    (s.timeout = 0 → (arm s).phase = .idle ∧ (arm s).status = .loc .timeout) :=
  ⟨fun h => by rw [arm_of_timeout_ne_zero h], fun h => by rw [arm_of_timeout_eq_zero h]; exact ⟨rfl, rfl⟩⟩

theorem exec_capt_phase {s t : State} (hs : s.phase = .idle) (h : exec .capt s = .next t) :
    (s.timeout ≠ 0 → t.phase = .hunt) ∧ (s.timeout = 0 → t.phase = .idle ∧ t.status = .loc .timeout) := by
  rcases execCapt_next h with ⟨-, rfl⟩ | ⟨hbusy, -⟩
  · exact arm_phase (standaloneCapture s)
  · exact absurd hs hbusy

theorem exec_xact_phase {a b : Byte} {s t : State} (hs : s.phase = .idle) (h : exec (.xact a b) s = .next t) :
    (s.draw.txok = true → s.timeout ≠ 0 → t.phase = .hunt) ∧
    (s.draw.txok = true → s.timeout = 0 → t.phase = .idle ∧ t.status = .loc .timeout) ∧
    (s.draw.txok = false → t.phase = .idle ∧ t.status = .loc .hwErr) := by
  rcases execXact_next h with ⟨-, -, -, ⟨hd, rfl⟩ | ⟨hd, rfl⟩⟩ | ⟨hbusy, -⟩
  · obtain ⟨harmed, htimedOut⟩ := arm_phase (transactionCapture a b s)
    exact ⟨fun _ => harmed, fun _ => htimedOut, fun hnot => absurd (hd.symm.trans hnot) nofun⟩
  · exact ⟨fun hok => absurd (hd.symm.trans hok) nofun, fun hok => absurd (hd.symm.trans hok) nofun,
      fun _ => ⟨rfl, rfl⟩⟩
  · exact absurd hs hbusy

/-- A gated command keeps `PHASE` where its own rule does: a busy block stays in its phase. -/
theorem phase_of_gated {s t u : State} (h : (s.phase = .idle ∧ t = u) ∨ (s.phase ≠ .idle ∧ t = s.setFlag .busyerr))
    (hu : u.phase = s.phase) : t.phase = s.phase := by
  rcases h with ⟨-, rfl⟩ | ⟨-, rfl⟩
  · exact hu
  · rfl

theorem execArgPush_phase {a : Byte} {s t : State} (h : execArgPush a s = .next t) : t.phase = s.phase := by
  rcases execArgPush_next h with ⟨-, -, rfl⟩ | ⟨-, -, rfl⟩ | ⟨-, rfl⟩ <;> rfl

theorem execEnc_phase {a : Byte} {s t : State} (h : execEnc a s = .next t) : t.phase = s.phase := by
  rcases execEnc_next h with ⟨-, -, hstore⟩ | ⟨-, rfl⟩
  · obtain ⟨-, rfl⟩ := storeFrame_ok_iff.1 hstore
    rfl
  · rfl

theorem execSend_phase {s t : State} (h : execSend s = .next t) : t.phase = s.phase := by
  rcases execSend_next h with ⟨hidle, -, rfl⟩ | ⟨-, rfl⟩
  · exact hidle.symm
  · rfl

theorem execDec_phase {s t : State} (h : execDec s = .next t) : t.phase = s.phase := by
  rcases execDec_next h with ⟨-, -, happly⟩ | ⟨-, rfl⟩
  · obtain ⟨-, rfl⟩ := applyDecoded_ok_iff.1 happly
    rfl
  · rfl

/-- A command that arms no capture keeps `PHASE`. -/
theorem exec_command_phase {i : Instr} {s t : State} (hi : i.isCommand = true) (hcapt : i ≠ .capt)
    (hxact : ∀ a b, i ≠ .xact a b) (h : exec i s = .next t) : t.phase = s.phase := by
  cases i with
  | nop => exact phase_of_gated (execNop_next h) rfl
  | crcClr => exact phase_of_gated (execCrcClr_next h) rfl
  | crcUpd a => exact phase_of_gated (execCrcUpd_next h) rfl
  | argClr => exact phase_of_gated (execArgClr_next h) rfl
  | argPush a => exact execArgPush_phase h
  | enc a => exact execEnc_phase h
  | send => exact execSend_phase h
  | capt => exact absurd rfl hcapt
  | dec => exact execDec_phase h
  | val a => exact phase_of_gated (execVal_next h) rfl
  | xact a b => exact absurd rfl (hxact a b)
  | tmoSet a b => exact phase_of_gated (execTmoSet_next h) rfl
  | flgClr => exact phase_of_gated (execFlgClr_next h) rfl
  | reservedD => exact phase_of_gated (execReservedD_next h) rfl
  | reservedE => exact phase_of_gated (execReservedE_next h) rfl
  | reservedF => exact phase_of_gated (execReservedF_next h) rfl
  | wireErrorAnswer | wireAnswer | wireRtcReadRequest | wireRtcReadAnswer | rxByteStx | rxByteEtx | rxByteOther =>
    exact absurd hi Bool.false_ne_true

/-! ### A byte taken -/

/-- In `HUNT` only an `STX` moves the phase (R177). -/
theorem exec_decodeRxByte_hunt_phase {b : Byte} {s t : State} (hs : s.phase = .hunt)
    (h : exec (decodeRxByte b) s = .next t) : t.phase = if b = stx then .acc else .hunt := by
  rcases decodeRxByte_cases b with ⟨rfl, hrow⟩ | ⟨rfl, hrow⟩ | ⟨hstx, -, hrow⟩ <;> rw [hrow] at h
  · rcases execRxByteStx_next h with ⟨-, -, rfl⟩ | ⟨hacc, -⟩
    · rfl
    · exact absurd (hs.symm.trans hacc) nofun
  · cases (exec_rxByteEtx_hunt hs).symm.trans h
    exact hs
  · cases (exec_rxByteOther_hunt b hs).symm.trans h
    exact hs.trans (if_neg hstx).symm

/-- In `ACC` a full buffer leads back to `HUNT`, and where there is room only an `ETX` moves the phase (R178 to R180). -/
theorem exec_decodeRxByte_acc_phase {b : Byte} {s t : State} (hs : s.phase = .acc)
    (hfits : s.fits .rxbuf s.rxlen = true) (h : exec (decodeRxByte b) s = .next t) :
    (s.params.rxCap = some s.rxlen → t.phase = .hunt ∧ t.flag .rxovf = true) ∧
    (s.params.rxCap ≠ some s.rxlen → t.phase = if b = etx then .idle else .acc) := by
  constructor
  · intro hfull
    cases (exec_decodeRxByte_full b hs hfull).symm.trans h
    exact ⟨rfl, flag_setFlag_same s .rxovf⟩
  · intro hnotFull
    have hroom : s.room = true := room_of_not_full hfits hnotFull
    by_cases hb : b = etx
    · subst hb
      have hdone : completeCapture (closedFrame s) = .ok t :=
        finish_next_iff.1 ((exec_rxByteEtx_room hs hroom).symm.trans h)
      exact completeCapture_phase hdone rfl
    · cases (exec_decodeRxByte_room hb hs hroom).symm.trans h
      rw [if_neg hb]
      exact hs

theorem onRxByte_of_empty {s : State} (h : s.rxq = []) : onRxByte s = .next s := by
  rcases onRxByte_cases s with ⟨hnext, -⟩ | ⟨_, _, -, hq, -⟩
  · exact hnext
  · exact absurd (h.symm.trans hq) nofun

theorem onRxByte_of_idle {s : State} (h : s.phase = .idle) : onRxByte s = .next s := by
  rcases onRxByte_cases s with ⟨hnext, -⟩ | ⟨_, _, hbusy, -⟩
  · exact hnext
  · exact absurd h hbusy

/-- A capture under way takes the oldest byte of the channel (R68). -/
theorem onRxByte_of_armed {s : State} {b : Byte} {q : List Byte} (hs : s.phase ≠ .idle) (hq : s.rxq = b :: q) :
    onRxByte s = exec (decodeRxByte b) { s with rxq := q } := by
  rcases onRxByte_cases s with ⟨-, hidle | hempty⟩ | ⟨b', q', -, hq', htaken⟩
  · exact absurd hidle hs
  · exact absurd (hempty.symm.trans hq) nofun
  · cases hq.symm.trans hq'
    exact htaken

/-! ### The tick -/

/-- Only the tick at the deadline moves the phase (R182, R183). -/
theorem onTick_phase {s : State} (hs : s.phase ≠ .idle) (htmr : 1 ≤ s.tmr.toNat) :
    (s.tmr = 1 → (onTick s).phase = .idle ∧ (onTick s).status = .loc .timeout) ∧
    (s.tmr ≠ 1 → (onTick s).phase = s.phase) := by
  constructor
  · intro hone
    rw [onTick_deadline hs (congrArg BitVec.toNat hone)]
    exact ⟨rfl, rfl⟩
  · intro hne
    have htwo : 2 ≤ s.tmr.toNat := by bv_omega
    rw [onTick_counts hs htwo]

/-! ### The table -/

/-- Settles O56: the rows of the table in the statement's order, each from what its event can do. -/
theorem phaseFollowsTheTransitionTable : Obligations.PhaseFollowsTheTransitionTable := by
  intro e s t hinv h
  refine ⟨fun hs => ⟨?capt, ?xact, ?otherCommand, ?quiet⟩, ?hunt, ?acc, ?tick, ?busy, ?reset, ?arrive, ?nothingQueued⟩
  case capt =>
    rintro w d rfl hw
    rw [handleEvent, hw] at h
    exact exec_capt_phase (s := { s with draw := d }) hs h
  case xact =>
    rintro w d a b rfl hw
    rw [handleEvent, hw] at h
    exact exec_xact_phase (s := { s with draw := d }) hs h
  case otherCommand =>
    rintro w d rfl hcapt hxact
    exact (exec_command_phase (decodeCmd_row w).1 hcapt hxact h).trans hs
  case quiet =>
    rintro (rfl | rfl)
    · cases h
      exact onTick_idle hs
    · cases (onRxByte_of_idle hs).symm.trans h
      rfl
  case hunt =>
    rintro hs b q rfl hq
    have harmed : s.phase ≠ .idle := fun hidle => absurd (hs.symm.trans hidle) nofun
    exact exec_decodeRxByte_hunt_phase (s := { s with rxq := q }) hs ((onRxByte_of_armed harmed hq).symm.trans h)
  case acc =>
    rintro hs b q rfl hq
    have harmed : s.phase ≠ .idle := fun hidle => absurd (hs.symm.trans hidle) nofun
    exact exec_decodeRxByte_acc_phase (s := { s with rxq := q }) hs hinv.rxlen_fits
      ((onRxByte_of_armed harmed hq).symm.trans h)
  case tick =>
    rintro hs rfl
    cases h
    exact onTick_phase hs (hinv.armed hs).1
  case busy =>
    rintro hs w d rfl
    cases (exec_command_busy (s := { s with draw := d }) (decodeCmd_row w).1 hs).symm.trans h
    exact ⟨rfl, flag_setFlag_same { s with draw := d } .busyerr⟩
  case reset =>
    rintro rfl
    cases h
    rfl
  case arrive =>
    rintro b rfl
    cases h
    rfl
  case nothingQueued =>
    rintro rfl hq
    cases (onRxByte_of_empty hq).symm.trans h
    rfl

end Sys2Proof.Machine
end

section
/-! PROOFS. The state after `Reset` (`70_reset_and_hazards.md` R320 to R322). The invariants hold there for one reason,
whatever the parameters and the channel: nothing is armed and every buffer is empty (`inv_of_cleared`). -/

namespace Sys2Proof.Machine

/-- No elements fit in every buffer. -/
theorem fits_zero (s : State) (sp : Space) : s.fits sp 0 = true := by
  unfold State.fits Params.fits
  cases s.params.capacity sp <;> simp

/-- The invariants of R46 in a state with no capture under way and empty buffers. -/
theorem inv_of_cleared {s : State} (hparams : s.params.ok = true) (hphase : s.phase = .idle)
    (hlen : ∀ sp, s.len sp = 0) (hmem : ∀ sp, s.mem sp = []) : s.Inv :=
  have hfits (sp : Space) : s.fits sp (s.len sp) = true := by rw [hlen sp]; exact fits_zero s sp
  { params_ok := hparams
    arglen_fits := hfits .argbuf
    txlen_fits := hfits .txbuf
    txlen_shape := .inl (hlen .txbuf)
    rxlen_fits := hfits .rxbuf
    plen_fits := hfits .payload
    buffers_wf := fun sp => by rw [hmem sp]; rfl
    cells_exist := fun sp _ hcell => absurd (hmem sp ▸ hcell) List.not_mem_nil
    hunt_empty := fun _ => hlen .rxbuf
    acc_frame := fun hacc => absurd (hphase.symm.trans hacc) nofun
    armed := fun hbusy => absurd hphase hbusy
    mismatch_clear := fun _ => hlen .payload
    transaction_clear := fun hbusy => absurd hphase hbusy }

@[simp] theorem len_resetWith (p : Params) (sp : Space) : (State.resetWith p).len sp = 0 := by cases sp <;> rfl
@[simp] theorem mem_resetWith (p : Params) (sp : Space) : (State.resetWith p).mem sp = [] := by cases sp <;> rfl

theorem resetWith_inv {p : Params} (h : p.ok = true) : (State.resetWith p).Inv :=
  inv_of_cleared h rfl (len_resetWith p) (mem_resetWith p)

/-- What `Reset` keeps of the channel is in none of the invariants. -/
theorem onReset_inv {s : State} (h : s.params.ok = true) : (onReset s).Inv :=
  inv_of_cleared h rfl (len_resetWith s.params) (mem_resetWith s.params)

/-- Settles O53: the suggested parameters are one case of the legal ones. -/
theorem resetStateMeetsTheInvariants : Obligations.ResetStateMeetsTheInvariants :=
  ⟨resetWith_inv (p := Config.suggested) (by decide), fun _ => resetWith_inv, fun _ => onReset_inv⟩

theorem handleEvent_reset (s : State) : handleEvent .reset s = .next (onReset s) := rfl

/-- Settles O55: the next state is `onReset s`, which takes the registers from `State.resetWith` and the channel from
`s`. -/
theorem resetEventRestoresEveryRegister : Obligations.ResetEventRestoresEveryRegister := by
  intro s
  refine ⟨onReset s, handleEvent_reset s, ?_⟩
  and_intros <;> rfl

end Sys2Proof.Machine
end

section
/-! PROOFS. The decoder undoes the encoder on every row of the opcode table (`30_encoding.md` R90 to R93, R106, R108),
and the words that the spec prints. -/

namespace Sys2Proof

/-- The decoder gives back every command with its operands (R91). -/
theorem decodeCmd_encodeCmd {i : Instr} (h : i.isCommand = true) : decodeCmd (encodeCmd i) = i := by
  cases i
  case wireErrorAnswer | wireAnswer | wireRtcReadRequest | wireRtcReadAnswer | rxByteStx | rxByteEtx | rxByteOther =>
    exact absurd h Bool.false_ne_true
  all_goals simp [encodeCmd, decodeCmd]

/-- A command's word stands on the command port (R90). -/
theorem encode_command {i : Instr} (h : i.isCommand = true) : encode i = (.cmd20, (encodeCmd i).toNat) := by
  cases i
  case wireErrorAnswer | wireAnswer | wireRtcReadRequest | wireRtcReadAnswer | rxByteStx | rxByteEtx | rxByteOther =>
    exact absurd h Bool.false_ne_true
  all_goals rfl

/-- Every byte of the receive stream has a class (R93). -/
theorem decode_rxStream (b : Byte) : decode .rxStream b.toNat = .ok (decodeRxByte b) := by
  simp [decode, Format.width, b.isLt]

/-- Every first byte of a received body has a class (R106). -/
theorem decode_rxBody (b : Byte) : decode .rxBody b.toNat = .ok (decodeRxBody b) := by
  simp [decode, Format.width, b.isLt]

theorem decodeRxByte_other {b : Byte} (hstx : b ≠ 0x02) (hetx : b ≠ 0x03) : decodeRxByte b = .rxByteOther b := by
  rw [decodeRxByte, if_neg hstx, if_neg hetx]

theorem decodeRxBody_answer {b : Byte} (herr : b ≠ 0xFF) (hrtc : b ≠ 0x97) : decodeRxBody b = .wireAnswer b := by
  rw [decodeRxBody, if_neg herr, if_neg hrtc]

namespace Machine

/-- Settles O1: commands by their fields, and the rows of one byte by the order in which the decoder compares them. -/
theorem encodedInstructionsDecodeBack : Obligations.EncodedInstructionsDecodeBack := by
  intro i hwf
  by_cases hcmd : i.isCommand = true
  · rw [encode_command hcmd, decode_cmd20, decodeCmd_encodeCmd hcmd]
  · cases i with
    | wireErrorAnswer => exact decode_rxBody 0xFF
    | wireRtcReadAnswer => exact decode_rxBody 0x97
    | wireRtcReadRequest => decide
    | rxByteStx => exact decode_rxStream 0x02
    | rxByteEtx => exact decode_rxStream 0x03
    | wireAnswer op =>
      obtain ⟨herr, hrtc⟩ : op ≠ 0xFF ∧ op ≠ 0x97 := by simpa [Instr.wf] using hwf
      exact (decode_rxBody op).trans (congrArg Except.ok (decodeRxBody_answer herr hrtc))
    | rxByteOther b =>
      obtain ⟨hstx, hetx⟩ : b ≠ 0x02 ∧ b ≠ 0x03 := by simpa [Instr.wf] using hwf
      exact (decode_rxStream b).trans (congrArg Except.ok (decodeRxByte_other hstx hetx))
    | _ => exact absurd rfl hcmd

/-- Settles O4: twenty-one closed words, each computed. -/
theorem specExampleWordsDecode : Obligations.SpecExampleWordsDecode := by
  unfold Obligations.SpecExampleWordsDecode
  and_intros <;> decide

end Machine
end Sys2Proof
end

section
/-! PROOFS. One step is one event (`00_scope.md` R14): the oldest pending event, or the environment's choice. -/

namespace Sys2Proof.Machine

theorem step_of_pending {s : State} {e : Event} {rest : List Event} (h : s.pending = e :: rest) :
    step s = handleEvent e { s with pending := rest } := by
  simp only [step, nextEvent, h]

theorem step_of_none_pending {s : State} (h : s.pending = []) :
    step s = handleEvent (Config.environment s.envIndex) { s with envIndex := s.envIndex + 1 } := by
  simp only [step, nextEvent, h]

/-- Settles O5: every command word decodes, and the handler of a command runs its instruction. -/
theorem stepRunsThePendingCommand : Obligations.StepRunsThePendingCommand := by
  intro s w d rest i hpending hdecode
  cases (decode_cmd20 w).symm.trans hdecode
  exact step_of_pending hpending

/-- Settles O6: the oldest byte is taken where a capture is under way, and else nothing happens. -/
theorem stepRunsTheOfferedByte : Obligations.StepRunsTheOfferedByte := by
  refine ⟨fun s rest b q i hpending hs hq hdecode => ?_, fun s rest hpending hquiet => ?_⟩
  · cases (decode_rxStream b).symm.trans hdecode
    exact (step_of_pending hpending).trans (onRxByte_of_armed (s := { s with pending := rest }) hs hq)
  · rw [step_of_pending hpending, handleEvent]
    rcases hquiet with hidle | hempty
    · exact onRxByte_of_idle (s := { s with pending := rest }) hidle
    · exact onRxByte_of_empty (s := { s with pending := rest }) hempty

/-- Settles O7: the handlers of the other events, and the free event as one that is pending. -/
theorem stepTakesTicksResetsAndFreeEvents : Obligations.StepTakesTicksResetsAndFreeEvents := by
  refine ⟨fun s rest h => step_of_pending h, fun s rest h => step_of_pending h, fun s rest b h => step_of_pending h,
    fun s h => ?_⟩
  rw [step_of_none_pending h, step_of_pending rfl, ← h]

/-- Settles O32: each class of a byte faults in `IDLE`, and the channel's offer never asks for it. -/
theorem receivedBytesWaitInIdle : Obligations.ReceivedBytesWaitInIdle := by
  intro s hs
  refine ⟨?stx, ?etx, fun b => ?other, onRxByte_of_idle hs⟩
  case stx =>
    change execRxByteStx s = _
    rw [execRxByteStx, hs]
  case etx =>
    change execRxByteEtx s = _
    rw [execRxByteEtx, hs]
  case other =>
    change execRxByteOther b s = _
    rw [execRxByteOther, hs]

end Sys2Proof.Machine
end

section
/-! PROOFS. `decode` undoes `encode`, sees a changed CRC field, and gives a payload to answers only
(`43_deframer.md` R212). -/

namespace Sys2Proof.Machine

/-- The terminal's code is little-endian (R105). -/
theorem errorCode_eq_append (lo hi : Byte) : errorCode lo hi = hi ++ lo := by
  rw [errorCode, BitVec.or_comm]
  exact shiftLeft_or_eq_append hi lo

/-- The frame of an opcode other than `0xFF` is an answer frame (R209). -/
theorem decodeFrame_encodeFrame {op : Byte} (h : op ≠ errOp) (args : List Byte) :
    decodeFrame (encodeFrame op args) = answerFrame op args := decodeFrame_answerFrame h args

/-- The frame of the opcode `0xFF` is an error frame (R208). -/
theorem decodeFrame_encodeFrame_errOp (args : List Byte) :
    decodeFrame (encodeFrame errOp args) = errorFrame args := decodeFrame_errorFrame args

theorem errorFrame_code (lo hi : Byte) (rest : List Byte) : errorFrame (lo :: hi :: rest) =
    { status := .terminal (hi ++ lo), ansop := errOp, payload := [], malf := false } := by
  rw [errorFrame, errorCode_eq_append]

/-- Settles O17: a built frame claims its own body's CRC, so its decoding is the row of its opcode. -/
theorem encodedFramesDecodeBack : Obligations.EncodedFramesDecodeBack :=
  ⟨fun _ args hop => decodeFrame_encodeFrame hop args,
    fun lo hi rest => (decodeFrame_encodeFrame_errOp _).trans (errorFrame_code lo hi rest),
    fun args hargs => (decodeFrame_encodeFrame_errOp args).trans (errorFrame_short hargs)⟩

/-- A body, four characters in the place of its CRC field, and the markers. -/
def frameWithField (body field : List Byte) : List Byte := [stx] ++ (hexAll body ++ field) ++ [etx]

theorem frameClaiming_eq_frameWithField (body : List Byte) (claimed : Word) :
    frameClaiming body claimed = frameWithField body (crcField claimed) := by
  simp [frameClaiming, frameWithField]

/-- Four characters other than the body's own field are found out: they are no CRC, or another one (R203, R206). -/
theorem decodeFrame_wrong_field {body field : List Byte} (hlen : field.length = 4)
    (hne : field ≠ crcField (crc16 body)) : (decodeFrame (frameWithField body field)).status = .loc .crcNotValid := by
  cases hvalue : crcValue field with
  | some claimed =>
    have hfield : field = crcField claimed := crcValue_eq_some_iff.1 hvalue
    have hclaim : claimed ≠ crc16 body := fun h => hne (h ▸ hfield)
    rw [hfield, ← frameClaiming_eq_frameWithField, decodeFrame_of_error (openFrame_wrong_crc hclaim)]
    rfl
  | none =>
    have hunreadable : ∀ body' claimed, interior (frameWithField body field) ≠ hexAll body' ++ crcField claimed := by
      intro body' claimed heq
      rw [frameWithField, interior_between] at heq
      have hfield : field = crcField claimed := List.append_inj_right' heq hlen
      exact absurd (hvalue.symm.trans (crcValue_eq_some_iff.2 hfield)) nofun
    rw [decodeFrame_of_error (openFrame_unreadable hunreadable)]
    rfl

/-- A change within the four characters of a field leaves what follows them. -/
theorem modify_field_append (w : Word) (post : List Byte) {k : Nat} (hk : k < 4) (g : Byte → Byte) :
    (crcField w ++ post).modify k g = (crcField w).modify k g ++ post := by
  match k, hk with
  | 0, _ | 1, _ | 2, _ | 3, _ => rfl

/-- Changing a character of the CRC field changes the field and nothing else of the frame. -/
theorem modify_encodeFrame_field (op : Byte) (args : List Byte) {k : Nat} (hk : k < 4) (g : Byte → Byte) :
    (encodeFrame op args).modify (2 * (op :: args).length + 1 + k) g =
      frameWithField (op :: args) ((crcField (crc16 (op :: args))).modify k g) := by
  have hindex : 2 * (op :: args).length + 1 + k = ([stx] ++ hexAll (op :: args)).length + k := by
    rw [List.length_append, hexAll_length, List.length_singleton]
    omega
  calc (encodeFrame op args).modify (2 * (op :: args).length + 1 + k) g
      = (([stx] ++ hexAll (op :: args)) ++ (crcField (crc16 (op :: args)) ++ [etx])).modify
          (([stx] ++ hexAll (op :: args)).length + k) g := by rw [hindex, encodeFrame, List.append_assoc _ _ [etx]]
    _ = ([stx] ++ hexAll (op :: args)) ++ (crcField (crc16 (op :: args)) ++ [etx]).modify k g :=
        List.modifyTailIdx_add _ k _ _
    _ = frameWithField (op :: args) ((crcField (crc16 (op :: args))).modify k g) := by
        rw [modify_field_append _ _ hk, frameWithField, List.append_assoc, List.append_assoc, List.append_assoc]

/-- A changed character is a changed field. -/
theorem modify_ne_self {field : List Byte} {k : Nat} {g : Byte → Byte} (hk : k < field.length) (hg : ∀ c, g c ≠ c) :
    field.modify k g ≠ field := by
  intro heq
  have hsame : (field.modify k g)[k]? = field[k]? := by rw [heq]
  rw [List.getElem?_modify_eq, List.getElem?_eq_getElem hk] at hsame
  exact hg field[k] (Option.some.inj hsame)

/-- Flipping one bit of a byte changes it. -/
theorem xor_bit_ne {j : Nat} (hj : j < 8) (c : Byte) : c ^^^ (1#8 <<< j) ≠ c := by
  intro heq
  have hbit : (c ^^^ (1#8 <<< j)).getLsbD j = c.getLsbD j := by rw [heq]
  simp [hj] at hbit

/-- Settles O18: the field with one bit flipped is another field of four characters. -/
theorem crcFieldTamperingIsDetected : Obligations.CrcFieldTamperingIsDetected := by
  intro op args k j hk hj
  rw [modify_encodeFrame_field op args hk]
  exact decodeFrame_wrong_field (List.length_modify ..) (modify_ne_self hk (xor_bit_ne hj))

/-- Settles O19: the four shapes of what `decode` returns. -/
theorem onlyAnswersCarryPayload : Obligations.OnlyAnswersCarryPayload := by
  intro f hpayload
  rcases decodeFrame_cases f with h | h | ⟨code, h⟩ | ⟨op, rest, -, -, h⟩ <;> rw [h] at hpayload ⊢
  · exact absurd rfl hpayload
  · exact absurd rfl hpayload
  · exact absurd rfl hpayload
  · rfl

end Sys2Proof.Machine
end

section
/-! PROOFS. What a command does in `IDLE` and what a received byte does in `HUNT` and `ACC`, each said once and for all:
the later sections take an event apart by these and not by the meanings. -/

namespace Sys2Proof.Machine

/-! ### Commands -/

theorem exec_val_idle (a : Byte) {s : State} (h : s.phase = .idle) :
    exec (.val a) s = .next { s with
      exp := a, status := validate s.status s.ansop a,
      plen := if validate s.status s.ansop a = .loc .opcodeMismatch then 0 else s.plen } :=
  whenIdle_idle h fun s => .next { s with
    exp := a, status := validate s.status s.ansop a,
    plen := if validate s.status s.ansop a = .loc .opcodeMismatch then 0 else s.plen }

/-- The elements that a command reads or writes in `IDLE` exist (`20_memory.md` R60). -/
def Accessible : Instr → State → Prop
  | .argPush _, s | .enc _, s | .xact _ _, s => s.arglen ≤ s.params.argMax
  | .send, s => s.fits .txbuf s.txlen = true
  | .dec, s => s.fits .rxbuf s.rxlen = true
  | _, _ => True

/-- The state in which a command's event ends where it began in `IDLE`. -/
def idleEffect : Instr → State → State
  | .crcClr, s => { s with crc := crcInit }
  | .crcUpd a, s => { s with crc := crcStep s.crc a }
  | .argClr, s => { s with arglen := 0 }
  | .argPush a, s => if s.arglen = s.params.argMax then s.setFlag .argovf else pushArg s a
  | .enc a, s => holdingTx s (encodeFrame a s.args)
  | .send, s =>
    (s.emit (s.elems .txbuf 0 s.txlen)).raise (if s.draw.txok then .loc .dataSent else .loc .hwErr)
  | .capt, s => arm (standaloneCapture s)
  | .dec, s => withDecoded s (decodeFrame s.frame)
  | .val a, s => { s with
      exp := a, status := validate s.status s.ansop a,
      plen := if validate s.status s.ansop a = .loc .opcodeMismatch then 0 else s.plen }
  | .xact a b, s => xactDone a b s
  | .tmoSet a b, s => { s with timeout := a ++ b }
  | .flgClr, s => { s with flags := 0 }
  | .reservedD, s | .reservedE, s | .reservedF, s => s.setFlag .illcmd
  | _, s => s

/-- `ARG.PUSH` within its buffer's bounds: a full buffer drops the byte, one with room takes it (R153). -/
theorem exec_argPush_idle (a : Byte) {s : State} (hs : s.phase = .idle) (hargs : s.arglen ≤ s.params.argMax) :
    exec (.argPush a) s = .next (idleEffect (.argPush a) s) := by
  rcases Nat.eq_or_lt_of_le hargs with hfull | hroom
  · have heffect : idleEffect (.argPush a) s = s.setFlag .argovf := if_pos hfull
    rw [heffect, exec_argPush_full a hs hfull]
  · have heffect : idleEffect (.argPush a) s = pushArg s a := if_neg (Nat.ne_of_lt hroom)
    rw [heffect, exec_argPush_room a hs hroom]

theorem exec_command_idle {i : Instr} {s : State} (hi : i.isCommand = true) (hs : s.phase = .idle)
    (h : Accessible i s) : exec i s = .next (idleEffect i s) := by
  cases i with
  | nop => exact exec_nop_idle hs
  | crcClr => exact exec_crcClr_idle hs
  | crcUpd a => exact exec_crcUpd_idle a hs
  | argClr => exact exec_argClr_idle hs
  | argPush a => exact exec_argPush_idle a hs h
  | enc a => exact exec_enc_idle a hs h
  | send => exact exec_send_idle hs h
  | capt => exact exec_capt_idle hs
  | dec => exact exec_dec_idle hs h
  | val a => exact exec_val_idle a hs
  | xact a b => exact exec_xact_idle a b hs h
  | tmoSet a b => exact exec_tmoSet_idle a b hs
  | flgClr => exact exec_flgClr_idle hs
  | reservedD => exact exec_reserved_idle (.inl rfl) hs
  | reservedE => exact exec_reserved_idle (.inr (.inl rfl)) hs
  | reservedF => exact exec_reserved_idle (.inr (.inr rfl)) hs
  | wireErrorAnswer | wireAnswer | wireRtcReadRequest | wireRtcReadAnswer | rxByteStx | rxByteEtx | rxByteOther =>
    exact absurd hi Bool.false_ne_true

theorem accessible_argPush {a : Byte} {s t : State} (hs : s.phase = .idle) (h : execArgPush a s = .next t) :
    s.arglen ≤ s.params.argMax := by
  rcases execArgPush_next h with ⟨-, hfull, -⟩ | ⟨-, hfits, -⟩ | ⟨hbusy, -⟩
  · exact Nat.le_of_eq hfull
  · exact Nat.le_of_succ_le (of_decide_eq_true hfits)
  · exact absurd hs hbusy

/-- A command that goes on in `IDLE` found the elements it asks for. -/
theorem accessible_of_exec {i : Instr} {s t : State} (hs : s.phase = .idle) (h : exec i s = .next t) :
    Accessible i s := by
  cases i with
  | argPush a => exact accessible_argPush hs h
  | enc a =>
    rcases execEnc_next h with ⟨-, hfits, -⟩ | ⟨hbusy, -⟩
    · exact (of_decide_eq_true hfits : s.arglen ≤ s.params.argMax)
    · exact absurd hs hbusy
  | xact a b =>
    rcases execXact_next h with ⟨-, hfits, -, -⟩ | ⟨hbusy, -⟩
    · exact (of_decide_eq_true hfits : s.arglen ≤ s.params.argMax)
    · exact absurd hs hbusy
  | send =>
    rcases execSend_next h with ⟨-, hfits, -⟩ | ⟨hbusy, -⟩
    · exact hfits
    · exact absurd hs hbusy
  | dec =>
    rcases execDec_next h with ⟨-, hfits, -⟩ | ⟨hbusy, -⟩
    · exact hfits
    · exact absurd hs hbusy
  | _ => exact trivial

/-- Everything a command can do: its own effect in `IDLE`, and `BUSYERR` in another phase (R232). -/
theorem exec_command_next {i : Instr} {s t : State} (hi : i.isCommand = true) (h : exec i s = .next t) :
    (s.phase = .idle ∧ Accessible i s ∧ t = idleEffect i s) ∨ (s.phase ≠ .idle ∧ t = s.setFlag .busyerr) := by
  by_cases hs : s.phase = .idle
  · have hacc : Accessible i s := accessible_of_exec hs h
    cases (exec_command_idle hi hs hacc).symm.trans h
    exact .inl ⟨hs, hacc, rfl⟩
  · cases (exec_command_busy hi hs).symm.trans h
    exact .inr ⟨hs, rfl⟩

/-! ### Received bytes -/

/-- The next states of a received byte (`42_rx_capture.md` R177 to R181, `44_validator_transaction.md` R227). -/
inductive ByteEffect (b : Byte) (s : State) : State → Prop
  | discarded (hs : s.phase = .hunt) (hb : b ≠ stx) : ByteEffect b s s
  | started (hs : s.phase = .hunt) (hb : b = stx) (hfits : s.fits .rxbuf 1 = true) : ByteEffect b s (startedFrame s)
  | dropped (hs : s.phase = .acc) (hfull : s.params.rxCap = some s.rxlen) : ByteEffect b s (dropFrame s)
  | stored (hs : s.phase = .acc) (hb : b ≠ etx) (hroom : s.room = true) : ByteEffect b s (pushRx s b)
  | short (hs : s.phase = .acc) (hb : b = etx) (hroom : s.room = true) (hlen : s.rxlen + 1 < minFrame) :
    ByteEffect b s (timeOut (closedFrame s))
  | received (hs : s.phase = .acc) (hb : b = etx) (hroom : s.room = true) (hlen : minFrame ≤ s.rxlen + 1)
    (hmode : s.mode = .standalone) : ByteEffect b s ((closedFrame s).raise (.loc .dataReceived))
  | completed (hs : s.phase = .acc) (hb : b = etx) (hroom : s.room = true) (hlen : minFrame ≤ s.rxlen + 1)
    (hmode : s.mode = .transaction) : ByteEffect b s (withValidated (closedFrame s) (decodeFrame (s.frame ++ [etx])))

/-- In `HUNT` a byte other than `STX` is discarded (R177). -/
theorem exec_decodeRxByte_discarded {b : Byte} (hb : b ≠ stx) {s : State} (h : s.phase = .hunt) :
    exec (decodeRxByte b) s = .next s := by
  rcases decodeRxByte_cases b with ⟨hstx, -⟩ | ⟨-, hrow⟩ | ⟨-, -, hrow⟩
  · exact absurd hstx hb
  · rw [hrow, exec_rxByteEtx_hunt h]
  · rw [hrow, exec_rxByteOther_hunt b h]

theorem exec_rxByteEtx_short {s : State} (h : s.phase = .acc) (hroom : s.room = true) (hlen : s.rxlen + 1 < minFrame) :
    exec .rxByteEtx s = .next (timeOut (closedFrame s)) := by
  rw [exec_rxByteEtx_room h hroom, completeCapture_short (s := closedFrame s) hlen, finish_ok]

theorem exec_rxByteEtx_standalone {s : State} (h : s.phase = .acc) (hroom : s.room = true)
    (hlen : minFrame ≤ s.rxlen + 1) (hmode : s.mode = .standalone) :
    exec .rxByteEtx s = .next ((closedFrame s).raise (.loc .dataReceived)) := by
  rw [exec_rxByteEtx_room h hroom, completeCapture_standalone (s := closedFrame s) hlen hmode, finish_ok]

/-- A byte that meets the conditions of an effect has it. -/
theorem ByteEffect.exec {b : Byte} {s t : State} (h : ByteEffect b s t) : exec (decodeRxByte b) s = .next t := by
  cases h with
  | discarded hs hb => exact exec_decodeRxByte_discarded hb hs
  | started hs hb hfits =>
    subst hb
    exact exec_rxByteStx_hunt hs hfits
  | dropped hs hfull => exact exec_decodeRxByte_full b hs hfull
  | stored hs hb hroom => exact exec_decodeRxByte_room hb hs hroom
  | short hs hb hroom hlen =>
    subst hb
    exact exec_rxByteEtx_short hs hroom hlen
  | received hs hb hroom hlen hmode =>
    subst hb
    exact exec_rxByteEtx_standalone hs hroom hlen hmode
  | completed hs hb hroom hlen hmode =>
    subst hb
    exact exec_rxByteEtx_transaction hs hroom hlen hmode

/-- A stored `ETX` has one of the three endings. -/
theorem byteEffect_etx {s : State} (hs : s.phase = .acc) (hroom : s.room = true) : ∃ t, ByteEffect etx s t := by
  by_cases hlen : s.rxlen + 1 < minFrame
  · exact ⟨_, .short hs rfl hroom hlen⟩
  · have hge : minFrame ≤ s.rxlen + 1 := Nat.not_lt.1 hlen
    cases hmode : s.mode with
    | standalone => exact ⟨_, .received hs rfl hroom hge hmode⟩
    | transaction => exact ⟨_, .completed hs rfl hroom hge hmode⟩

/-- A byte that goes on without being stored or dropped with a full buffer found room. -/
theorem room_of_accumulate {b : Byte} {s t : State} (hfull : s.params.rxCap ≠ some s.rxlen)
    (h : accumulate s b = .ok t) : s.room = true := by
  rcases accumulate_ok h with ⟨hcap, -⟩ | ⟨-, happend⟩
  · exact absurd hcap hfull
  · exact (appendRx_ok_iff.1 happend).1

/-- In `ACC` a byte that goes on found a full buffer or room. -/
theorem room_of_exec_decodeRxByte {b : Byte} {s t : State} (hs : s.phase = .acc)
    (hfull : s.params.rxCap ≠ some s.rxlen) (h : exec (decodeRxByte b) s = .next t) : s.room = true := by
  by_cases hb : b = etx
  · subst hb
    rcases execRxByteEtx_next h with ⟨hhunt, -⟩ | ⟨-, hcap, -⟩ | ⟨-, -, hroom, -⟩
    · exact absurd (hs.symm.trans hhunt) nofun
    · exact absurd hcap hfull
    · exact hroom
  · rw [exec_decodeRxByte_acc hb hs] at h
    exact room_of_accumulate hfull (finish_next_iff.1 h)

/-- A byte that goes on has some effect. -/
theorem exists_byteEffect {b : Byte} {s t : State} (h : exec (decodeRxByte b) s = .next t) : ∃ u, ByteEffect b s u := by
  cases hs : s.phase with
  | idle =>
    rcases decodeRxByte_cases b with ⟨-, hrow⟩ | ⟨-, hrow⟩ | ⟨-, -, hrow⟩ <;> rw [hrow] at h
    · rw [(receivedBytesWaitInIdle s hs).1] at h
      exact absurd h nofun
    · rw [(receivedBytesWaitInIdle s hs).2.1] at h
      exact absurd h nofun
    · rw [(receivedBytesWaitInIdle s hs).2.2.1] at h
      exact absurd h nofun
  | hunt =>
    by_cases hb : b = stx
    · subst hb
      rcases execRxByteStx_next h with ⟨-, hfits, -⟩ | ⟨hacc, -⟩
      · exact ⟨_, .started hs rfl hfits⟩
      · exact absurd (hs.symm.trans hacc) nofun
    · exact ⟨_, .discarded hs hb⟩
  | acc =>
    by_cases hfull : s.params.rxCap = some s.rxlen
    · exact ⟨_, .dropped hs hfull⟩
    · have hroom : s.room = true := room_of_exec_decodeRxByte hs hfull h
      by_cases hb : b = etx
      · subst hb
        exact byteEffect_etx hs hroom
      · exact ⟨_, .stored hs hb hroom⟩

/-- Everything a received byte can do. -/
theorem exec_decodeRxByte_iff {b : Byte} {s t : State} :
    exec (decodeRxByte b) s = .next t ↔ ByteEffect b s t := by
  constructor
  · intro h
    obtain ⟨u, hu⟩ := exists_byteEffect h
    cases hu.exec.symm.trans h
    exact hu
  · exact ByteEffect.exec

/-- Everything the channel's offer can do. -/
theorem onRxByte_next {s t : State} (h : onRxByte s = .next t) :
    (t = s ∧ (s.phase = .idle ∨ s.rxq = [])) ∨
    ∃ b q, s.phase ≠ .idle ∧ s.rxq = b :: q ∧ ByteEffect b { s with rxq := q } t := by
  rcases onRxByte_cases s with ⟨hnext, hquiet⟩ | ⟨b, q, hs, hq, htaken⟩
  · cases hnext.symm.trans h
    exact .inl ⟨rfl, hquiet⟩
  · exact .inr ⟨b, q, hs, hq, exec_decodeRxByte_iff.1 (htaken.symm.trans h)⟩

end Sys2Proof.Machine
end

section
/-! PROOFS. The invariants of `10_state.md` R46 fall into two parts that are kept independently of each other: what holds
of the lengths and the buffers whatever the phase is (`InBounds`), and what holds of a capture under way (`CaptureOk`).
Every event keeps both. -/

namespace Sys2Proof.Machine

/-- The buffers are canonical and list only elements that exist. -/
def BuffersOk (s : State) : Prop :=
  ∀ sp, (s.mem sp).wf = true ∧ ∀ c ∈ s.mem sp, s.fits sp (c.1 + 1) = true

/-- The part of the invariants that does not depend on `PHASE`. -/
structure InBounds (s : State) : Prop where
  params_ok : s.params.ok = true
  buffers_ok : BuffersOk s
  lens_fit : ∀ sp, s.fits sp (s.len sp) = true
  txlen_shape : s.txlen = 0 ∨ (s.txlen % 2 = 0 ∧ 8 ≤ s.txlen)
  mismatch_clear : s.status = .loc .opcodeMismatch → s.plen = 0

/-- The part of the invariants that speaks of a capture under way. -/
structure CaptureOk (s : State) : Prop where
  hunt_empty : s.phase = .hunt → s.rxlen = 0
  acc_frame : s.phase = .acc →
    1 ≤ s.rxlen ∧ s.elem .rxbuf 0 = stx ∧ ∀ i, i < s.rxlen → 1 ≤ i → s.elem .rxbuf i ≠ etx
  armed : s.phase ≠ .idle → 1 ≤ s.tmr.toNat ∧ s.status = .loc .none
  transaction_clear : s.phase ≠ .idle → s.mode = .transaction → s.plen = 0 ∧ s.ansop = 0x00

theorem inv_iff (s : State) : s.Inv ↔ InBounds s ∧ CaptureOk s := by
  constructor
  · intro h
    have hlens : ∀ sp, s.fits sp (s.len sp) = true
      | .argbuf => h.arglen_fits
      | .txbuf => h.txlen_fits
      | .rxbuf => h.rxlen_fits
      | .payload => h.plen_fits
    exact ⟨⟨h.params_ok, fun sp => ⟨h.buffers_wf sp, h.cells_exist sp⟩, hlens, h.txlen_shape, h.mismatch_clear⟩,
      ⟨h.hunt_empty, h.acc_frame, h.armed, h.transaction_clear⟩⟩
  · rintro ⟨hb, hc⟩
    exact {
      params_ok := hb.params_ok
      arglen_fits := hb.lens_fit .argbuf
      txlen_fits := hb.lens_fit .txbuf
      txlen_shape := hb.txlen_shape
      rxlen_fits := hb.lens_fit .rxbuf
      plen_fits := hb.lens_fit .payload
      buffers_wf := fun sp => (hb.buffers_ok sp).1
      cells_exist := fun sp => (hb.buffers_ok sp).2
      hunt_empty := hc.hunt_empty
      acc_frame := hc.acc_frame
      armed := hc.armed
      mismatch_clear := hb.mismatch_clear
      transaction_clear := hc.transaction_clear }

/-! ### Lengths and buffers: the shared operations -/

/-- Writing elements that exist keeps the buffers in order. -/
theorem BuffersOk.write {s : State} (h : BuffersOk s) {sp : Space} {i : Nat} {bs : List Byte}
    (hfits : s.fits sp (i + bs.length) = true) : BuffersOk (s.setMem sp ((s.mem sp).writeAll i bs)) := by
  intro sp'
  by_cases hsp : sp' = sp
  · subst hsp
    rw [mem_setMem_same]
    refine ⟨writeAll_wf (h sp').1 bs i, fun c hc => ?_⟩
    rw [fits_congr (setMem_params s sp' _)]
    rcases mem_writeAll bs hc with hlt | hold
    · exact fits_mono hlt hfits
    · exact (h sp').2 c hold
  · rw [mem_setMem_other s _ hsp]
    refine ⟨(h sp').1, fun c hc => ?_⟩
    rw [fits_congr (setMem_params s sp _)]
    exact (h sp').2 c hc

/-- An operation that writes no buffer and lets no length grow keeps the bounds. -/
theorem InBounds.of_shrink {s t : State} (h : InBounds s) (hparams : t.params = s.params)
    (hmem : ∀ sp, t.mem sp = s.mem sp) (hlen : ∀ sp, t.len sp ≤ s.len sp) (htx : t.txlen = s.txlen)
    (hmismatch : t.status = .loc .opcodeMismatch → t.plen = 0) : InBounds t where
  params_ok := by rw [hparams, h.params_ok]
  buffers_ok sp := by
    rw [hmem sp]
    simp only [fits_congr hparams]
    exact h.buffers_ok sp
  lens_fit sp := by
    rw [fits_congr hparams]
    exact fits_mono (hlen sp) (h.lens_fit sp)
  txlen_shape := by rw [htx]; exact h.txlen_shape
  mismatch_clear := hmismatch

/-- A register that the bounds do not speak of is written. -/
theorem InBounds.of_same {s t : State} (h : InBounds s) (hparams : t.params = s.params)
    (hmem : ∀ sp, t.mem sp = s.mem sp) (hlen : ∀ sp, t.len sp = s.len sp)
    (hstatus : t.status = .loc .opcodeMismatch → s.status = .loc .opcodeMismatch) : InBounds t :=
  h.of_shrink hparams hmem (fun sp => Nat.le_of_eq (hlen sp)) (hlen .txbuf)
    fun hm => (hlen .payload).trans (h.mismatch_clear (hstatus hm))

theorem InBounds.setFlag {s : State} (h : InBounds s) (f : Flag) : InBounds (s.setFlag f) :=
  h.of_same rfl (fun _ => rfl) (fun _ => rfl) id

theorem InBounds.raise {s : State} (h : InBounds s) {st : Status} (hst : st ≠ .loc .opcodeMismatch) :
    InBounds (s.raise st) :=
  h.of_same rfl (fun _ => rfl) (fun _ => rfl) fun hm => absurd hm hst

/-- `RXLEN` goes to 0 and the status is no mismatch: all that arming, a timeout and an overflow do to the bounds. -/
theorem InBounds.of_rxlen_zero {s t : State} (h : InBounds s) (hparams : t.params = s.params)
    (hmem : ∀ sp, t.mem sp = s.mem sp) (hlen : ∀ sp, t.len sp = { s with rxlen := 0 : State }.len sp)
    (hstatus : t.status = .loc .opcodeMismatch → s.status = .loc .opcodeMismatch) : InBounds t := by
  refine h.of_shrink hparams hmem (fun sp => ?_) (hlen .txbuf) fun hm =>
    (hlen .payload).trans (h.mismatch_clear (hstatus hm))
  rw [hlen sp]
  cases sp with
  | rxbuf => exact Nat.zero_le _
  | argbuf | txbuf | payload => exact Nat.le_refl _

theorem InBounds.timeOut {s : State} (h : InBounds s) : InBounds (timeOut s) :=
  h.of_rxlen_zero rfl (fun _ => rfl) (fun _ => rfl) nofun

theorem InBounds.dropFrame {s : State} (h : InBounds s) : InBounds (dropFrame s) :=
  h.of_rxlen_zero rfl (fun _ => rfl) (fun _ => rfl) id

theorem InBounds.arm {s : State} (h : InBounds s) : InBounds (arm s) := by
  rcases arm_cases s with ⟨-, ht⟩ | ⟨-, ht⟩ <;> rw [ht]
  · exact h.timeOut
  · exact h.of_rxlen_zero rfl (fun _ => rfl) (fun _ => rfl) id

/-- A built frame has an even length of at least eight (R155). -/
theorem encodeFrame_length_shape (op : Byte) (args : List Byte) :
    (encodeFrame op args).length % 2 = 0 ∧ 8 ≤ (encodeFrame op args).length := by
  rw [encodeFrame_length]
  omega

theorem InBounds.holdingTx {s : State} (h : InBounds s) {op : Byte} {args : List Byte}
    (hfits : s.fits .txbuf (encodeFrame op args).length = true) : InBounds (holdingTx s (encodeFrame op args)) where
  params_ok := h.params_ok
  buffers_ok := h.buffers_ok.write (sp := .txbuf) (i := 0) (by rwa [Nat.zero_add])
  lens_fit
    | .argbuf => h.lens_fit .argbuf
    | .txbuf => hfits
    | .rxbuf => h.lens_fit .rxbuf
    | .payload => h.lens_fit .payload
  txlen_shape := .inr (encodeFrame_length_shape op args)
  mismatch_clear := h.mismatch_clear

theorem InBounds.pushArg {s : State} (h : InBounds s) (hfits : s.fits .argbuf (s.arglen + 1) = true) (a : Byte) :
    InBounds (pushArg s a) where
  params_ok := h.params_ok
  buffers_ok := h.buffers_ok.write (sp := .argbuf) (bs := [a]) hfits
  lens_fit
    | .argbuf => hfits
    | .txbuf => h.lens_fit .txbuf
    | .rxbuf => h.lens_fit .rxbuf
    | .payload => h.lens_fit .payload
  txlen_shape := h.txlen_shape
  mismatch_clear := h.mismatch_clear

theorem InBounds.pushRx {s : State} (h : InBounds s) (hroom : s.room = true) (b : Byte) : InBounds (pushRx s b) where
  params_ok := h.params_ok
  buffers_ok := h.buffers_ok.write (sp := .rxbuf) (bs := [b]) hroom
  lens_fit
    | .argbuf => h.lens_fit .argbuf
    | .txbuf => h.lens_fit .txbuf
    | .rxbuf => hroom
    | .payload => h.lens_fit .payload
  txlen_shape := h.txlen_shape
  mismatch_clear := h.mismatch_clear

theorem InBounds.closedFrame {s : State} (h : InBounds s) (hroom : s.room = true) : InBounds (closedFrame s) :=
  (h.pushRx hroom etx).of_same rfl (fun _ => rfl) (fun _ => rfl) id

theorem InBounds.startedFrame {s : State} (h : InBounds s) (hfits : s.fits .rxbuf 1 = true) :
    InBounds (startedFrame s) where
  params_ok := h.params_ok
  buffers_ok := h.buffers_ok.write (sp := .rxbuf) (i := 0) (bs := [stx]) hfits
  lens_fit
    | .argbuf => h.lens_fit .argbuf
    | .txbuf => h.lens_fit .txbuf
    | .rxbuf => hfits
    | .payload => h.lens_fit .payload
  txlen_shape := h.txlen_shape
  mismatch_clear := h.mismatch_clear

/-- A payload that fits is stored with its length, and the status is no mismatch. -/
theorem InBounds.of_payload {s t : State} (h : InBounds s) {bs : List Byte} (hfits : s.fits .payload bs.length = true)
    (hparams : t.params = s.params)
    (hmem : ∀ sp, t.mem sp = (s.setMem .payload ((s.mem .payload).writeAll 0 bs)).mem sp)
    (hlen : ∀ sp, t.len sp = { s with plen := bs.length : State }.len sp)
    (hstatus : t.status ≠ .loc .opcodeMismatch) : InBounds t where
  params_ok := by rw [hparams, h.params_ok]
  buffers_ok sp := by
    rw [hmem sp]
    simp only [fits_congr hparams]
    have hwritten := h.buffers_ok.write (sp := .payload) (i := 0) (bs := bs) (by rwa [Nat.zero_add])
    exact hwritten sp
  lens_fit sp := by
    rw [fits_congr hparams, hlen sp]
    cases sp with
    | payload => exact hfits
    | argbuf => exact h.lens_fit .argbuf
    | txbuf => exact h.lens_fit .txbuf
    | rxbuf => exact h.lens_fit .rxbuf
  txlen_shape := by
    have htx : t.txlen = s.txlen := hlen .txbuf
    rw [htx]
    exact h.txlen_shape
  mismatch_clear hm := absurd hm hstatus

/-- A decoded frame is never reported as a mismatch: that is the validator's. -/
theorem decodeFrame_status_ne_mismatch (f : List Byte) : (decodeFrame f).status ≠ .loc .opcodeMismatch := by
  rcases decodeFrame_cases f with h | h | ⟨code, h⟩ | ⟨op, rest, -, -, h⟩ <;> rw [h] <;> exact nofun

theorem InBounds.withDecoded {s : State} (h : InBounds s) {f : List Byte} (hfits : s.fits .rxbuf f.length = true) :
    InBounds (withDecoded s (decodeFrame f)) :=
  h.of_payload (decoded_fits hfits) rfl (fun _ => rfl) (fun _ => rfl) (decodeFrame_status_ne_mismatch f)

/-- What `validate` makes of a frame is a mismatch only where it attaches no payload (R227, R28). -/
theorem InBounds.withValidated {s : State} (h : InBounds s) {f : List Byte} (hfits : s.fits .rxbuf f.length = true) :
    InBounds (withValidated s (decodeFrame f)) := by
  have happly : applyValidated s (decodeFrame f) = .ok (Machine.withValidated s (decodeFrame f)) :=
    applyValidated_fits (decoded_fits hfits)
  rcases applyValidated_ok_iff.1 happly with ⟨-, hroom, heq⟩ | ⟨-, heq⟩ <;> rw [heq]
  · exact h.of_payload hroom rfl (fun _ => rfl) (fun _ => rfl) nofun
  · refine h.of_shrink rfl (fun _ => rfl) (fun sp => ?_) rfl fun _ => rfl
    cases sp with
    | payload => exact Nat.zero_le _
    | argbuf | txbuf | rxbuf => exact Nat.le_refl _

theorem frame_length (s : State) : s.frame.length = s.rxlen := elems_length ..

/-! ### Lengths and buffers: every event -/

theorem InBounds.execSend {s : State} (h : InBounds s) : InBounds (idleEffect .send s) := by
  refine h.of_same rfl (fun _ => rfl) (fun _ => rfl) fun hm => absurd hm ?_
  change (if s.draw.txok then Status.loc .dataSent else .loc .hwErr) ≠ _
  split <;> exact nofun

theorem InBounds.execVal {s : State} (h : InBounds s) (a : Byte) : InBounds (idleEffect (.val a) s) := by
  refine h.of_shrink rfl (fun _ => rfl) (fun sp => ?_) rfl fun hm => if_pos hm
  cases sp with
  | payload =>
    change (if _ then 0 else s.plen) ≤ s.plen
    split
    · exact Nat.zero_le _
    · exact Nat.le_refl _
  | argbuf | txbuf | rxbuf => exact Nat.le_refl _

theorem InBounds.execArgClr {s : State} (h : InBounds s) : InBounds (idleEffect .argClr s) := by
  refine h.of_shrink rfl (fun _ => rfl) (fun sp => ?_) rfl h.mismatch_clear
  cases sp with
  | argbuf => exact Nat.zero_le _
  | txbuf | rxbuf | payload => exact Nat.le_refl _

theorem InBounds.execArgPush {a : Byte} {s : State} (h : InBounds s) (hargs : s.arglen ≤ s.params.argMax) :
    InBounds (idleEffect (.argPush a) s) := by
  change InBounds (if s.arglen = s.params.argMax then s.setFlag .argovf else Machine.pushArg s a)
  split
  · exact h.setFlag _
  · have hroom : s.arglen + 1 ≤ s.params.argMax := by omega
    exact h.pushArg (decide_eq_true hroom) a

theorem InBounds.xactSent {s : State} (h : InBounds s) (a b : Byte)
    (hfits : s.fits .txbuf (encodeFrame a s.args).length = true) : InBounds (xactSent a b s) := by
  refine (h.holdingTx hfits).of_shrink rfl (fun _ => rfl) (fun sp => ?_) rfl nofun
  cases sp with
  | payload => exact Nat.zero_le _
  | argbuf | txbuf | rxbuf => exact Nat.le_refl _

theorem InBounds.xactDone {s : State} (h : InBounds s) (a b : Byte) (hargs : s.arglen ≤ s.params.argMax) :
    InBounds (xactDone a b s) := by
  have hsent : InBounds (Machine.xactSent a b s) := h.xactSent a b (args_frame_fits a hargs)
  unfold Machine.xactDone
  split
  · exact InBounds.arm (s := transactionCapture a b s) (hsent.of_same rfl (fun _ => rfl) (fun _ => rfl) id)
  · exact hsent.raise nofun

theorem InBounds.idleEffect {i : Instr} {s : State} (h : InBounds s) (hacc : Accessible i s) :
    InBounds (idleEffect i s) := by
  cases i with
  | crcClr | crcUpd | tmoSet | flgClr => exact h.of_same rfl (fun _ => rfl) (fun _ => rfl) id
  | argClr => exact h.execArgClr
  | argPush a => exact h.execArgPush hacc
  | enc a => exact h.holdingTx (args_frame_fits a hacc)
  | send => exact h.execSend
  | capt =>
    exact InBounds.arm (s := standaloneCapture s) (h.of_same rfl (fun _ => rfl) (fun _ => rfl) nofun)
  | dec => exact h.withDecoded (frame_length s ▸ hacc)
  | val a => exact h.execVal a
  | xact a b => exact h.xactDone a b hacc
  | reservedD | reservedE | reservedF => exact h.setFlag _
  | nop | wireErrorAnswer | wireAnswer | wireRtcReadRequest | wireRtcReadAnswer | rxByteStx | rxByteEtx | rxByteOther =>
    exact h

theorem InBounds.byteEffect {b : Byte} {s t : State} (h : InBounds s) (ht : ByteEffect b s t) : InBounds t := by
  cases ht with
  | discarded => exact h
  | started _ _ hfits => exact h.startedFrame hfits
  | dropped => exact h.dropFrame
  | stored _ _ hroom => exact h.pushRx hroom b
  | short _ _ hroom => exact (h.closedFrame hroom).timeOut
  | received _ _ hroom => exact (h.closedFrame hroom).raise nofun
  | completed _ _ hroom =>
    refine (h.closedFrame hroom).withValidated ?_
    rw [List.length_append, frame_length]
    exact hroom

theorem InBounds.onTick {s : State} (h : InBounds s) : InBounds (onTick s) := by
  rcases onTick_cases s with ⟨-, ht⟩ | ⟨-, -, ht⟩ | ⟨-, -, ht⟩ <;> rw [ht]
  · exact h
  · exact InBounds.timeOut (s := { s with tmr := 0 }) (h.of_same rfl (fun _ => rfl) (fun _ => rfl) id)
  · exact h.of_same rfl (fun _ => rfl) (fun _ => rfl) id

theorem InBounds.handleEvent {e : Event} {s t : State} (h : InBounds s) (ht : handleEvent e s = .next t) :
    InBounds t := by
  cases e with
  | cmd w d =>
    have hdrawn : InBounds { s with draw := d } := h.of_same rfl (fun _ => rfl) (fun _ => rfl) id
    rcases exec_command_next (decodeCmd_row w).1 ht with ⟨-, hacc, rfl⟩ | ⟨-, rfl⟩
    · exact hdrawn.idleEffect hacc
    · exact hdrawn.setFlag _
  | rxByte =>
    rcases onRxByte_next ht with ⟨rfl, -⟩ | ⟨b, q, -, -, heffect⟩
    · exact h
    · have htaken : InBounds { s with rxq := q } := h.of_same rfl (fun _ => rfl) (fun _ => rfl) id
      exact htaken.byteEffect heffect
  | arrive b =>
    cases ht
    exact h.of_same rfl (fun _ => rfl) (fun _ => rfl) id
  | tick =>
    cases ht
    exact h.onTick
  | reset =>
    cases ht
    exact ((inv_iff _).1 (onReset_inv h.params_ok)).1

/-! ### The capture under way -/

/-- In `IDLE` there is no capture to speak of. -/
theorem captureOk_of_idle {s : State} (h : s.phase = .idle) : CaptureOk s where
  hunt_empty hhunt := absurd (h.symm.trans hhunt) nofun
  acc_frame hacc := absurd (h.symm.trans hacc) nofun
  armed hbusy := absurd h hbusy
  transaction_clear hbusy := absurd h hbusy

theorem CaptureOk.setFlag {s : State} (h : CaptureOk s) (f : Flag) : CaptureOk (s.setFlag f) :=
  ⟨h.hunt_empty, h.acc_frame, h.armed, h.transaction_clear⟩

/-- Arming leaves a capture in order, or none (R173, R174). -/
theorem captureOk_arm {s : State} (hstatus : s.status = .loc .none)
    (hclear : s.mode = .transaction → s.plen = 0 ∧ s.ansop = 0x00) : CaptureOk (arm s) := by
  rcases arm_cases s with ⟨-, ht⟩ | ⟨htimeout, ht⟩ <;> rw [ht]
  · exact captureOk_of_idle rfl
  · have hpos : 1 ≤ s.timeout.toNat := by bv_omega
    exact ⟨fun _ => rfl, nofun, fun _ => ⟨hpos, hstatus⟩, fun _ => hclear⟩

/-- A command in `IDLE` arms a capture that is in order, or none. -/
theorem captureOk_idleEffect {i : Instr} {s : State} (hs : s.phase = .idle) : CaptureOk (idleEffect i s) := by
  cases i with
  | capt => exact captureOk_arm rfl nofun
  | xact a b =>
    change CaptureOk (if s.draw.txok then arm (transactionCapture a b s) else (xactSent a b s).raise (.loc .hwErr))
    split
    · exact captureOk_arm rfl fun _ => ⟨rfl, rfl⟩
    · exact captureOk_of_idle rfl
  | send => exact captureOk_of_idle rfl
  | argPush a =>
    change CaptureOk (if s.arglen = s.params.argMax then s.setFlag .argovf else pushArg s a)
    split <;> exact captureOk_of_idle hs
  | _ => exact captureOk_of_idle hs

theorem CaptureOk.startedFrame {s : State} (h : CaptureOk s) (hs : s.phase = .hunt) :
    CaptureOk (startedFrame s) := by
  have hbusy : s.phase ≠ .idle := fun hidle => absurd (hs.symm.trans hidle) nofun
  refine ⟨nofun, fun _ => ⟨Nat.le_refl 1, elem_of_write_same (s := s) rfl, fun i hlt hge => ?_⟩,
    fun _ => h.armed hbusy, fun _ => h.transaction_clear hbusy⟩
  exact absurd hlt (Nat.not_lt.2 hge)

theorem CaptureOk.dropFrame {s : State} (h : CaptureOk s) (hs : s.phase = .acc) : CaptureOk (dropFrame s) := by
  have hbusy : s.phase ≠ .idle := fun hidle => absurd (hs.symm.trans hidle) nofun
  exact ⟨fun _ => rfl, nofun, fun _ => h.armed hbusy, fun _ => h.transaction_clear hbusy⟩

theorem CaptureOk.pushRx {s : State} (h : CaptureOk s) (hs : s.phase = .acc) {b : Byte} (hb : b ≠ etx) :
    CaptureOk (pushRx s b) := by
  obtain ⟨hpos, hstx, hnoEtx⟩ := h.acc_frame hs
  refine ⟨fun hhunt => absurd (hs.symm.trans hhunt) nofun, fun _ => ⟨Nat.le_add_left 1 s.rxlen, ?_, fun i hlt hge => ?_⟩,
    h.armed, h.transaction_clear⟩
  · rw [elem_pushRx_other s b (by omega)]
    exact hstx
  · by_cases hi : i = s.rxlen
    · rw [hi, elem_pushRx_same]
      exact hb
    · rw [elem_pushRx_other s b hi]
      exact hnoEtx i (Nat.lt_of_le_of_ne (Nat.le_of_lt_succ hlt) hi) hge

theorem CaptureOk.byteEffect {b : Byte} {s t : State} (h : CaptureOk s) (ht : ByteEffect b s t) : CaptureOk t := by
  cases ht with
  | discarded => exact h
  | started hs => exact h.startedFrame hs
  | dropped hs => exact h.dropFrame hs
  | stored hs hb => exact h.pushRx hs hb
  | short | received | completed => exact captureOk_of_idle rfl

theorem CaptureOk.onTick {s : State} (h : CaptureOk s) : CaptureOk (onTick s) := by
  rcases onTick_cases s with ⟨-, ht⟩ | ⟨-, -, ht⟩ | ⟨-, htwo, ht⟩ <;> rw [ht]
  · exact h
  · exact captureOk_of_idle rfl
  · have hpos : 1 ≤ (s.tmr - 1).toNat := by bv_omega
    exact ⟨h.hunt_empty, h.acc_frame, fun hs => ⟨hpos, (h.armed hs).2⟩, h.transaction_clear⟩

theorem CaptureOk.handleEvent {e : Event} {s t : State} (h : CaptureOk s) (ht : handleEvent e s = .next t) :
    CaptureOk t := by
  cases e with
  | cmd w d =>
    rcases exec_command_next (decodeCmd_row w).1 ht with ⟨hs, -, rfl⟩ | ⟨-, rfl⟩
    · exact captureOk_idleEffect hs
    · have hdrawn : CaptureOk { s with draw := d } := ⟨h.hunt_empty, h.acc_frame, h.armed, h.transaction_clear⟩
      exact hdrawn.setFlag _
  | rxByte =>
    rcases onRxByte_next ht with ⟨rfl, -⟩ | ⟨b, q, -, -, heffect⟩
    · exact h
    · have htaken : CaptureOk { s with rxq := q } := ⟨h.hunt_empty, h.acc_frame, h.armed, h.transaction_clear⟩
      exact htaken.byteEffect heffect
  | arrive b =>
    cases ht
    exact ⟨h.hunt_empty, h.acc_frame, h.armed, h.transaction_clear⟩
  | tick =>
    cases ht
    exact h.onTick
  | reset =>
    cases ht
    exact captureOk_of_idle rfl

/-! ### A step -/

theorem handleEvent_keeps_inv {e : Event} {s t : State} (h : s.Inv) (ht : handleEvent e s = .next t) : t.Inv := by
  obtain ⟨hbounds, hcapture⟩ := (inv_iff s).1 h
  exact (inv_iff t).2 ⟨hbounds.handleEvent ht, hcapture.handleEvent ht⟩

/-- Taking the next event touches nothing that the invariants speak of. -/
theorem nextEvent_inv {s : State} (h : s.Inv) : (nextEvent s).2.Inv := by
  obtain ⟨hbounds, hcapture⟩ := (inv_iff s).1 h
  unfold nextEvent
  split <;> exact (inv_iff _).2 ⟨hbounds.of_same rfl (fun _ => rfl) (fun _ => rfl) id,
    ⟨hcapture.hunt_empty, hcapture.acc_frame, hcapture.armed, hcapture.transaction_clear⟩⟩

/-- Settles O52: the event is taken, and its handling keeps both parts of the invariants. -/
theorem stepKeepsTheInvariants : Obligations.StepKeepsTheInvariants :=
  fun _ _ h ht => handleEvent_keeps_inv (nextEvent_inv h) ht

/-! ### Progress -/

/-- Lengths within their buffers leave no access without its element. -/
theorem InBounds.accessible {s : State} (h : InBounds s) (i : Instr) : Accessible i s := by
  cases i with
  | argPush | enc | xact => exact (of_decide_eq_true (h.lens_fit .argbuf) : s.arglen ≤ s.params.argMax)
  | send => exact h.lens_fit .txbuf
  | dec => exact h.lens_fit .rxbuf
  | _ => exact trivial

theorem exec_command_goesOn {i : Instr} {s : State} (h : InBounds s) (hi : i.isCommand = true) :
    ∃ t, exec i s = .next t := by
  by_cases hs : s.phase = .idle
  · exact ⟨_, exec_command_idle hi hs (h.accessible i)⟩
  · exact ⟨_, exec_command_busy hi hs⟩

theorem onRxByte_goesOn {s : State} (h : s.Inv) : ∃ t, onRxByte s = .next t := by
  by_cases hs : s.phase = .idle
  · exact ⟨s, onRxByte_of_idle hs⟩
  · obtain ⟨t, ht, -⟩ := onRxByte_capturing (capturing_of_inv h hs)
    exact ⟨t, ht⟩

theorem handleEvent_goesOn {s : State} (h : s.Inv) (e : Event) : ∃ t, handleEvent e s = .next t := by
  cases e with
  | cmd w d =>
    exact exec_command_goesOn (s := { s with draw := d })
      (((inv_iff s).1 h).1.of_same rfl (fun _ => rfl) (fun _ => rfl) id) (decodeCmd_row w).1
  | rxByte => exact onRxByte_goesOn h
  | arrive b => exact ⟨_, rfl⟩
  | tick => exact ⟨_, rfl⟩
  | reset => exact ⟨_, handleEvent_reset s⟩

/-- Settles O54: whatever event is next, its handling goes on. -/
theorem stepAlwaysGoesOn : Obligations.StepAlwaysGoesOn :=
  fun s h => handleEvent_goesOn (nextEvent_inv h) (nextEvent s).1

end Sys2Proof.Machine
end

section
/-! PROOFS. The bitwise CRC behind the table (`40_crc.md` R134, R138). One turn distributes over XOR and loses nothing:
the first makes the table-driven step eight turns of the bitwise one, the second keeps a changed byte apart to the
end. -/

namespace Sys2Proof.Machine

/-- What one turn XORs in for the bit that it shifts out: the polynomial or nothing. -/
def crcFeedback (out : Bool) : Word := if out then 0x1021 else 0

theorem crcBit_eq (c : Word) : crcBit c = (c <<< 1) ^^^ crcFeedback c.msb := by
  unfold crcBit crcFeedback
  split <;> simp

theorem crcFeedback_xor (a b : Bool) : crcFeedback (a ^^ b) = crcFeedback a ^^^ crcFeedback b := by
  revert a b; decide

/-- One turn distributes over XOR. -/
theorem crcBit_xor (c d : Word) : crcBit (c ^^^ d) = crcBit c ^^^ crcBit d := by
  rw [crcBit_eq, crcBit_eq, crcBit_eq, BitVec.msb_xor, crcFeedback_xor, BitVec.shiftLeft_xor_distrib]
  ac_rfl

theorem crcByteShift_xor (c d : Word) : crcByteShift (c ^^^ d) = crcByteShift c ^^^ crcByteShift d := by
  simp only [crcByteShift, crcBit_xor]

/-- The polynomial is odd, so the lowest bit after a turn tells which bit was shifted out. -/
theorem crcBit_getLsbD_zero (c : Word) : (crcBit c).getLsbD 0 = c.msb := by
  rw [crcBit_eq]
  cases c.msb <;> simp [crcFeedback]

/-- One turn loses nothing. -/
theorem crcBit_injective : Function.Injective crcBit := by
  intro c d h
  have hmsb : c.msb = d.msb := by rw [← crcBit_getLsbD_zero, h, crcBit_getLsbD_zero]
  have hshift : c <<< 1 = d <<< 1 := by rwa [crcBit_eq, crcBit_eq, hmsb, BitVec.xor_left_inj] at h
  ext i hi
  by_cases hlast : i = 15
  · subst hlast
    exact hmsb
  · have hnext : (c <<< 1).getLsbD (i + 1) = (d <<< 1).getLsbD (i + 1) := by rw [hshift]
    have hlt : i + 1 < 16 := by omega
    simpa [hlt] using hnext

theorem crcByteShift_eq_iterate : crcByteShift = crcBit^[8] := rfl

theorem crcByteShift_injective : Function.Injective crcByteShift := by
  rw [crcByteShift_eq_iterate]
  exact crcBit_injective.iterate 8

/-- Eight turns shift a low byte up and reach the polynomial for none of its bits. -/
theorem crcByteShift_low (b : Byte) : crcByteShift (b.setWidth 16) = b.setWidth 16 <<< 8 := by
  revert b; decide

/-- Every printed entry is the generator's (R138). -/
theorem crcTab_eq_generator (i : Byte) : crcTab i = crcTabGen i := by
  revert i; decide

/-- An accumulator is its high byte in its place and its low byte. -/
theorem high_xor_low (c : Word) :
    ((c >>> 8).setWidth 8).setWidth 16 <<< 8 ^^^ (c.setWidth 8).setWidth 16 = c := by
  apply BitVec.eq_of_getLsbD_eq
  intro i hi
  by_cases hlow : i < 8
  · simp [hi, hlow]
  · have hhigh : i - 8 < 8 := by omega
    have hback : 8 + (i - 8) = i := by omega
    simp [hi, hlow, hhigh, hback]

/-- The low byte shifted up is the accumulator shifted up. -/
theorem low_shiftLeft (c : Word) : (c.setWidth 8).setWidth 16 <<< 8 = c <<< 8 := by
  apply BitVec.eq_of_toNat_eq
  bv_omega

theorem setWidth_xor_shiftLeft (a b : Byte) :
    (a ^^^ b).setWidth 16 <<< 8 = a.setWidth 16 <<< 8 ^^^ b.setWidth 16 <<< 8 := by
  rw [BitVec.setWidth_xor, BitVec.shiftLeft_xor_distrib]

/-- The table-driven step is eight turns of the bitwise one, with the byte XORed into the high half (R138). -/
theorem crcStep_eq_crcByteShift (acc : Word) (b : Byte) : crcStep acc b = crcByteShift (acc ^^^ (b.setWidth 16 <<< 8)) := by
  have hsplit : acc ^^^ (b.setWidth 16 <<< 8) =
      (((acc >>> 8).setWidth 8 ^^^ b).setWidth 16 <<< 8) ^^^ (acc.setWidth 8).setWidth 16 := by
    conv_lhs => rw [← high_xor_low acc]
    rw [setWidth_xor_shiftLeft]
    ac_rfl
  calc crcStep acc b
      = crcTabGen ((acc >>> 8).setWidth 8 ^^^ b) ^^^ (acc <<< 8) := by rw [crcStep, crcTab_eq_generator, BitVec.xor_comm]
    _ = crcByteShift (((acc >>> 8).setWidth 8 ^^^ b).setWidth 16 <<< 8) ^^^ crcByteShift ((acc.setWidth 8).setWidth 16) := by
        rw [crcByteShift_low, low_shiftLeft, crcTabGen]
    _ = crcByteShift (acc ^^^ (b.setWidth 16 <<< 8)) := by rw [← crcByteShift_xor, hsplit]

/-- Settles O12: the table entry by entry, and the step by the turn's distributing over XOR. -/
theorem crcTableIsBitwiseDivision : Obligations.CrcTableIsBitwiseDivision := by
  refine ⟨crcTab_eq_generator, fun c => ?_, by decide, by decide, by decide, by decide, crcStep_eq_crcByteShift, by decide⟩
  rw [crcBit, BitVec.msb_eq_getLsbD_last]

/-- A byte in the high half of a word is that byte's alone. -/
theorem highByte_injective : Function.Injective fun b : Byte => b.setWidth 16 <<< 8 := by
  intro a b h
  apply BitVec.eq_of_toNat_eq
  bv_omega

/-- Different bytes part the accumulators. -/
theorem crcStep_right_injective (acc : Word) : Function.Injective (crcStep acc) := by
  intro a b h
  rw [crcStep_eq_crcByteShift, crcStep_eq_crcByteShift] at h
  exact highByte_injective ((BitVec.xor_right_inj acc).1 (crcByteShift_injective h))

/-- Equal bytes keep different accumulators apart. -/
theorem crcStep_left_injective (b : Byte) : Function.Injective fun acc => crcStep acc b := by
  intro c d h
  simp only [crcStep_eq_crcByteShift] at h
  exact (BitVec.xor_left_inj _).1 (crcByteShift_injective h)

theorem foldl_crcStep_injective (q : List Byte) : Function.Injective fun acc => q.foldl crcStep acc := by
  induction q with
  | nil => exact Function.injective_id
  | cons b q ih => exact ih.comp (crcStep_left_injective b)

/-- Settles O13: the changed byte parts the accumulators, and the bytes after it keep them apart. -/
theorem oneChangedByteChangesTheCrc : Obligations.OneChangedByteChangesTheCrc := by
  intro p q b b' hne heq
  have hfold (c : Byte) : crc16 (p ++ c :: q) = q.foldl crcStep (crcStep (crc16 p) c) := List.foldl_append
  rw [hfold, hfold] at heq
  exact hne (crcStep_right_injective _ (foldl_crcStep_injective q heq))

end Sys2Proof.Machine
end

section
/-! PROOFS. The rows of received bodies over the frame in `RXBUF` (`43_deframer.md` R208, R209): each does what `DEC`
does for the frames that select it. -/

namespace Sys2Proof.Machine

/-- A result whose payload fits is stored (R200). -/
theorem applyDecoded_fits {s : State} {r : Decoded} (h : s.fits .payload r.payload.length = true) :
    applyDecoded s r = .ok (withDecoded s r) := applyDecoded_ok_iff.2 ⟨h, rfl⟩

/-- A selected row over a built frame stores the row's own outcome for the bytes after the opcode (R201). -/
theorem deframeRow_encodeFrame {s : State} {op : Byte} {args : List Byte} (hfits : s.fits .rxbuf s.rxlen = true)
    (hframe : s.frame = encodeFrame op args) (row : List Byte → Decoded) :
    deframeRow s row = applyDecoded s (row args) := by
  have hread : readBuf s .rxbuf s.rxlen = .ok (encodeFrame op args) := hframe ▸ readBuf_fits hfits
  have hopen : openFrame (encodeFrame op args) = .ok (op, args) := openFrame_cons op args
  simp only [deframeRow, hread, hopen]

/-- `DEC` is the row that `decode` selects for the frame (R106). -/
theorem exec_dec_eq_row {s : State} {op : Byte} {args : List Byte} {row : List Byte → Decoded} (hs : s.phase = .idle)
    (hfits : s.fits .rxbuf s.rxlen = true) (hframe : s.frame = encodeFrame op args)
    (hrow : decodeFrame (encodeFrame op args) = row args) : exec .dec s = finish (deframeRow s row) := by
  have hread : readBuf s .rxbuf s.rxlen = .ok (encodeFrame op args) := hframe ▸ readBuf_fits hfits
  rw [deframeRow_encodeFrame hfits hframe, ← hrow]
  change execDec s = _
  simp only [execDec, whenIdle_idle hs, hread]

/-- Settles O37: the three classes of a first body byte. -/
theorem decRunsTheRowOfTheFirstBodyByte : Obligations.DecRunsTheRowOfTheFirstBodyByte := by
  intro s b args i hs hfits hframe hdecode
  cases (decode_rxBody b).symm.trans hdecode
  by_cases herr : b = errOp
  · subst herr
    exact exec_dec_eq_row hs hfits hframe (decodeFrame_encodeFrame_errOp args)
  · have hanswer : exec .dec s = finish (deframeRow s (answerFrame b)) :=
      exec_dec_eq_row hs hfits hframe (decodeFrame_encodeFrame herr args)
    by_cases hrtc : b = 0x97
    · subst hrtc
      exact hanswer
    · rw [decodeRxBody_answer herr hrtc]
      exact hanswer

/-- The error row over an error frame (R208). -/
theorem exec_wireErrorAnswer_frame {s : State} {args : List Byte} (hfits : s.fits .rxbuf s.rxlen = true)
    (hframe : s.frame = encodeFrame errOp args) (hpayload : (errorFrame args).payload = []) :
    exec .wireErrorAnswer s = .next (withDecoded s (errorFrame args)) := by
  have hroom : s.fits .payload (errorFrame args).payload.length = true := by
    rw [hpayload]
    exact fits_zero s .payload
  change finish (deframeRow s errorFrame) = _
  rw [deframeRow_encodeFrame hfits hframe, applyDecoded_fits hroom, finish_ok]

/-- Settles O38: the code's two bytes, and a code that is cut off. -/
theorem errorAnswerReportsTheTerminalCode : Obligations.ErrorAnswerReportsTheTerminalCode := by
  refine ⟨fun s lo hi rest hfits hframe => ?_, fun s args hfits hshort hframe => ?_⟩
  · rw [exec_wireErrorAnswer_frame hfits hframe rfl, errorFrame_code]
    rfl
  · have hmalformed : errorFrame args = malformed := errorFrame_short hshort
    rw [exec_wireErrorAnswer_frame hfits hframe (congrArg Decoded.payload hmalformed), hmalformed]
    rfl

/-- An answer row over a frame of its opcode (R209). -/
theorem deframeRow_answerFrame {s : State} {op : Byte} (hop : op ≠ errOp) {args : List Byte}
    (hfits : s.fits .rxbuf s.rxlen = true) (hframe : s.frame = encodeFrame op args) :
    finish (deframeRow s (answerFrame op)) = .next (withDecoded s (answerFrame op args)) := by
  have hlength : s.fits .rxbuf (encodeFrame op args).length = true := by
    rw [← hframe, State.frame, elems_length]
    exact hfits
  have hroom : s.fits .payload (answerFrame op args).payload.length = true := by
    rw [← decodeFrame_encodeFrame hop args]
    exact decoded_fits hlength
  rw [deframeRow_encodeFrame hfits hframe, applyDecoded_fits hroom, finish_ok]

/-- Settles O39: any answer, and the RTC answer as one of them. -/
theorem answersDeliverOpcodeAndPayload : Obligations.AnswersDeliverOpcodeAndPayload :=
  ⟨fun s op args hop hfits hframe => ⟨withDecoded s (answerFrame op args), deframeRow_answerFrame hop hfits hframe, rfl,
      result_withDecoded s (answerFrame op args), fun _ => elem_withDecoded_above s (r := answerFrame op args)⟩,
    fun s args hfits hframe => deframeRow_answerFrame (by decide) hfits hframe⟩

/-- The RTC read request is built whatever the state: eight bytes fit every `TXBUF` (R9, R257). -/
theorem exec_wireRtcReadRequest (s : State) :
    exec .wireRtcReadRequest s = .next (holdingTx s (encodeFrame 0x17 [])) :=
  finish_next_iff.2 (storeFrame_ok_iff.2 ⟨frame_fits (fits_zero s .argbuf), rfl⟩)

theorem encodeFrame_rtcRead : encodeFrame 0x17 [] = [0x02, 0x31, 0x37, 0x32, 0x36, 0x38, 0x33, 0x03] := by decide

/-- Settles O40: the stored frame, and `ENC 0x17` with no arguments. -/
theorem rtcReadRequestIsBuilt : Obligations.RtcReadRequestIsBuilt := by
  refine ⟨fun s => ?_, fun s hs hargs => ?_⟩
  · rw [← encodeFrame_rtcRead]
    exact ⟨_, exec_wireRtcReadRequest s, rfl, elems_holdingTx s _, fun _ => elem_holdingTx_above s (f := encodeFrame 0x17 [])⟩
  · have hnone : s.args = [] := by rw [State.args, hargs]; rfl
    rw [exec_enc_idle 0x17 hs (by omega), hnone, exec_wireRtcReadRequest]

end Sys2Proof.Machine
end

section
/-! PROOFS. The validator (`44_validator_transaction.md` R221, R222). -/

namespace Sys2Proof.Machine

theorem decodeCmd_val {w : CmdWord} (h : cmdField w = 0x9) : decodeCmd w = .val (aField w) := by
  simp [decodeCmd, h]

theorem validate_match (op : Byte) : validate (.loc .dataReceived) op op = .loc .success := by
  rw [validate, if_pos rfl, if_pos rfl]

theorem validate_mismatch {op e : Byte} (h : op ≠ e) : validate (.loc .dataReceived) op e = .loc .opcodeMismatch := by
  rw [validate, if_pos rfl, if_neg h]

theorem validate_other {st : Status} (h : st ≠ .loc .dataReceived) (op e : Byte) : validate st op e = st := by
  rw [validate, if_neg h]

/-- Any other status stays, and `PLEN` with it where a mismatch left it 0 (R222). -/
theorem exec_val_keeps (a : Byte) {s : State} (hs : s.phase = .idle) (hstatus : s.status ≠ .loc .dataReceived)
    (hplen : s.status = .loc .opcodeMismatch → s.plen = 0) : exec (.val a) s = .next { s with exp := a } := by
  have hsame : (if s.status = .loc .opcodeMismatch then 0 else s.plen) = s.plen := by
    split
    · rename_i hmismatch
      exact (hplen hmismatch).symm
    · rfl
  rw [exec_val_idle a hs, validate_other hstatus, hsame]

/-- Settles O42: the row, the four cases of `validate`, what `VAL` makes of each, and the busy block. -/
theorem valPromotesOnlyAMatch : Obligations.ValPromotesOnlyAMatch := by
  refine ⟨fun _ => decodeCmd_val, validate_match, fun _ _ => validate_mismatch, fun _ op e h => validate_other h op e,
    fun a s hs hstatus hop => ?success, fun a s hs hstatus hop => ?mismatch, fun a s => exec_val_keeps a,
    fun a s hs hstatus => ?again, fun _ _ => exec_command_busy rfl⟩
  case success =>
    rw [exec_val_idle a hs, hstatus, hop, validate_match, if_neg nofun]
  case mismatch =>
    rw [exec_val_idle a hs, hstatus, validate_mismatch hop, if_pos rfl]
  case again =>
    rw [exec_val_idle a hs, validate_other (by rw [hstatus]; exact nofun), hstatus, if_pos rfl, ← hstatus]

end Sys2Proof.Machine
end

section
/-! PROOFS. Where a length lies beyond its buffer's capacity (`20_memory.md` R60, log 12): the access faults with the
buffer's name. -/

namespace Sys2Proof.Machine

theorem readBuf_beyond {s : State} {sp : Space} {n : Nat} (h : s.fits sp n = false) :
    readBuf s sp n = .error (.noSuchElement sp) := by
  rw [readBuf, if_neg (ne_true_of_eq_false h)]

theorem writeBuf_beyond {s : State} {sp : Space} {i : Nat} (h : s.fits sp i = false) (bs : List Byte) :
    writeBuf s sp i bs = .error (.noSuchElement sp) := by
  have hmore : s.fits sp (i + bs.length) ≠ true := fun hfits =>
    absurd (fits_mono (Nat.le_add_right i bs.length) hfits) (ne_true_of_eq_false h)
  rw [writeBuf, if_neg hmore]

theorem appendRx_beyond {s : State} (h : s.fits .rxbuf s.rxlen = false) (b : Byte) :
    appendRx s b = .error (.noSuchElement .rxbuf) := by
  rw [appendRx, writeBuf_beyond h]

/-- Beyond its capacity a buffer is not exactly full. -/
theorem not_full_of_beyond {s : State} (h : s.fits .rxbuf s.rxlen = false) : s.params.rxCap ≠ some s.rxlen := by
  intro hfull
  rw [fits_rxbuf, hfull] at h
  simp at h

theorem exec_decodeRxByte_beyond (b : Byte) {s : State} (hs : s.phase = .acc) (h : s.fits .rxbuf s.rxlen = false) :
    exec (decodeRxByte b) s = .fault (.noSuchElement .rxbuf) := by
  by_cases hb : b = etx
  · subst hb
    change execRxByteEtx s = _
    simp only [execRxByteEtx, hs, if_neg (not_full_of_beyond h), appendRx_beyond h]
  · rw [exec_decodeRxByte_acc hb hs, accumulate, if_neg (not_full_of_beyond h), appendRx_beyond h, finish_error]

/-- Settles O60: each instruction's first access to the buffer. -/
theorem lengthsBeyondCapacityStop : Obligations.LengthsBeyondCapacityStop := by
  refine ⟨fun a s hs hlen => ?_, fun s hs hlen => ?send, fun s hs hlen => ?dec, fun b s => exec_decodeRxByte_beyond b⟩
  · have hbeyond : s.fits .argbuf s.arglen = false := decide_eq_false (Nat.not_le.2 hlen)
    refine ⟨?push, ?enc, fun b => ?xact⟩
    case push =>
      change execArgPush a s = _
      rw [execArgPush, whenIdle_idle hs, if_neg (Nat.ne_of_gt hlen), writeBuf_beyond hbeyond]
    case enc =>
      change execEnc a s = _
      rw [execEnc, whenIdle_idle hs, buildFrame, readBuf_beyond hbeyond, finish_error]
    case xact =>
      change execXact a b s = _
      rw [execXact, whenIdle_idle hs, readBuf_beyond hbeyond]
  case send =>
    have hbeyond : s.fits .txbuf s.txlen = false := decide_eq_false (Nat.not_le.2 hlen)
    change execSend s = _
    rw [execSend, whenIdle_idle hs, readBuf_beyond hbeyond]
  case dec =>
    change execDec s = _
    rw [execDec, whenIdle_idle hs, readBuf_beyond hlen]

end Sys2Proof.Machine
end

section
/-! PROOFS. Where `SUCCESS` comes from (`44_validator_transaction.md` R224, R235): `validate` alone writes it, for an
answer with the expected opcode, in `VAL` and in the completion of a transaction. -/

namespace Sys2Proof.Machine

/-- `decode` reports no `SUCCESS`: that is the validator's. -/
theorem decodeFrame_status_ne_success (f : List Byte) : (decodeFrame f).status ≠ .loc .success := by
  rcases decodeFrame_cases f with h | h | ⟨code, h⟩ | ⟨op, rest, -, -, h⟩ <;> rw [h] <;> exact nofun

/-- What is reported as received is an answer, of an opcode other than `0xFF` (R208, R209). -/
theorem decodeFrame_received {f : List Byte} (h : (decodeFrame f).status = .loc .dataReceived) :
    ∃ op payload, op ≠ errOp ∧ decodeFrame f = answerFrame op payload := by
  rcases decodeFrame_cases f with hf | hf | ⟨code, hf⟩ | ⟨op, rest, hop, -, hf⟩
  · exact absurd h (by rw [hf]; exact nofun)
  · exact absurd h (by rw [hf]; exact nofun)
  · exact absurd h (by rw [hf]; exact nofun)
  · exact ⟨op, rest, hop, hf⟩

/-- A captured frame is validated as `SUCCESS` only where it is an answer of the expected opcode (R221). -/
theorem validate_decodeFrame_success {f : List Byte} {e : Byte}
    (h : validate (decodeFrame f).status (decodeFrame f).ansop e = .loc .success) :
    e ≠ errOp ∧ ∃ payload, decodeFrame f = answerFrame e payload := by
  rcases validate_success h with hsuccess | ⟨hreceived, hop⟩
  · exact absurd hsuccess (decodeFrame_status_ne_success f)
  · obtain ⟨op, payload, hne, hf⟩ := decodeFrame_received hreceived
    rw [hf] at hop
    cases hop
    exact ⟨hne, payload, hf⟩

/-- A completed transaction that ends in `SUCCESS`: its frame decodes to the expected opcode and to the payload now in
`PAYLOAD` (R227). -/
theorem withValidated_success {s : State} (h : (withValidated s (decodeFrame s.frame)).status = .loc .success) :
    s.exp ≠ errOp ∧
    decodeFrame (withValidated s (decodeFrame s.frame)).frame =
      answerFrame s.exp (withValidated s (decodeFrame s.frame)).result ∧
    (withValidated s (decodeFrame s.frame)).ansop = s.exp := by
  obtain ⟨hexp, payload, hf⟩ := validate_decodeFrame_success h
  rw [frame_withValidated, result_withValidated h, hf]
  exact ⟨hexp, rfl, rfl⟩

/-- A received byte that brings `SUCCESS` is the `ETX` of a transaction's frame, and completes it. -/
theorem ByteEffect.success {b : Byte} {s t : State} (h : ByteEffect b s t) (hsuccess : t.status = .loc .success)
    (hnew : s.status ≠ .loc .success) :
    s.phase = .acc ∧ b = etx ∧ s.mode = .transaction ∧ s.exp ≠ errOp ∧
      decodeFrame t.frame = answerFrame s.exp t.result ∧ t.ansop = s.exp := by
  cases h with
  | discarded | started | dropped | stored => exact absurd hsuccess hnew
  | short | received => exact absurd hsuccess nofun
  | completed hs hb _ _ hmode =>
    rw [← frame_closedFrame] at hsuccess ⊢
    exact ⟨hs, hb, hmode, withValidated_success hsuccess⟩

/-- Settles O45: an answer's opcode is never `0xFF`, and only an answer of the expected opcode is a `SUCCESS`. -/
theorem expectedErrorOpcodeNeverSucceeds : Obligations.ExpectedErrorOpcodeNeverSucceeds := by
  refine ⟨fun f hf => ?_, fun s t _ _ hexp hstatus ht hsuccess => ?_⟩
  · obtain ⟨op, payload, hop, hdecoded⟩ := decodeFrame_received hf
    rw [hdecoded]
    exact hop
  · have heffect : ByteEffect etx s t := exec_decodeRxByte_iff.1 ht
    obtain ⟨-, -, -, hne, -⟩ := heffect.success hsuccess (by rw [hstatus]; exact nofun)
    exact hne hexp

/-- Arming reports a timeout, or nothing new. -/
theorem arm_not_success {s : State} (h : s.status ≠ .loc .success) : (arm s).status ≠ .loc .success := by
  rcases arm_cases s with ⟨-, ht⟩ | ⟨-, ht⟩ <;> rw [ht]
  · exact nofun
  · exact h

theorem xactDone_not_success (a b : Byte) (s : State) : (xactDone a b s).status ≠ .loc .success := by
  unfold xactDone
  split
  · exact arm_not_success (s := transactionCapture a b s) nofun
  · exact nofun

/-- A command in `IDLE` brings `SUCCESS` only as a `VAL` with the opcode of a received answer (R222). -/
theorem idleEffect_success {i : Instr} {s : State} (hsuccess : (idleEffect i s).status = .loc .success)
    (hnew : s.status ≠ .loc .success) : ∃ a, i = .val a ∧ s.status = .loc .dataReceived ∧ s.ansop = a := by
  cases i with
  | val a => exact ⟨a, rfl, (validate_success hsuccess).resolve_left hnew⟩
  | argPush a =>
    change (if s.arglen = s.params.argMax then s.setFlag .argovf else pushArg s a).status = _ at hsuccess
    split at hsuccess <;> exact absurd hsuccess hnew
  | send =>
    change (if s.draw.txok then Status.loc .dataSent else .loc .hwErr) = _ at hsuccess
    split at hsuccess <;> exact absurd hsuccess nofun
  | capt => exact absurd hsuccess (arm_not_success (s := standaloneCapture s) nofun)
  | dec => exact absurd hsuccess (decodeFrame_status_ne_success _)
  | xact a b => exact absurd hsuccess (xactDone_not_success a b s)
  | _ => exact absurd hsuccess hnew

theorem onTick_not_success {s : State} (hnew : s.status ≠ .loc .success) : (onTick s).status ≠ .loc .success := by
  rcases onTick_cases s with ⟨-, ht⟩ | ⟨-, -, ht⟩ | ⟨-, -, ht⟩ <;> rw [ht]
  · exact hnew
  · exact nofun
  · exact hnew

/-- Settles O46: event by event, a command and a byte by what they can do. -/
theorem successNeedsAMatchingAnswer : Obligations.SuccessNeedsAMatchingAnswer := by
  intro e s t h hsuccess hnew
  cases e with
  | cmd w d =>
    rcases exec_command_next (decodeCmd_row w).1 h with ⟨hs, -, rfl⟩ | ⟨-, rfl⟩
    · obtain ⟨a, hval, hreceived, hop⟩ := idleEffect_success hsuccess hnew
      exact .inl ⟨w, d, a, rfl, hval, hs, hreceived, hop⟩
    · exact absurd hsuccess hnew
  | rxByte =>
    rcases onRxByte_next h with ⟨rfl, -⟩ | ⟨b, q, -, hq, heffect⟩
    · exact absurd hsuccess hnew
    · obtain ⟨hs, rfl, hmode, -, hframe, hop⟩ := heffect.success hsuccess hnew
      exact .inr ⟨rfl, hs, hmode, congrArg List.head? hq, hframe, hop⟩
  | arrive b =>
    cases h
    exact absurd hsuccess hnew
  | tick =>
    cases h
    exact absurd hsuccess (onTick_not_success hnew)
  | reset =>
    cases h
    exact absurd hsuccess nofun

end Sys2Proof.Machine
end

section
/-! PROOFS. A transaction against the commands that it stands for (`44_validator_transaction.md` R236): its start
against `ENC`, `SEND`, `CAPT`, and each of its ends against the end of a standalone capture, `DEC` and `VAL`. -/

namespace Sys2Proof.Machine

/-! ### The start -/

/-- The state after `ENC` and `SEND`: a frame stored, handed to the channel, and its status reported (R156, R158). -/
def encSent (s : State) (f : List Byte) (st : Status) : State := ((holdingTx s f).emit f).raise st

/-- `SEND` after `ENC` sends the frame that `ENC` stored. -/
theorem exec_send_holdingTx {s : State} {f : List Byte} (hs : s.phase = .idle) (hfits : s.fits .txbuf f.length = true) :
    exec .send (holdingTx s f) = .next (encSent s f (if s.draw.txok then .loc .dataSent else .loc .hwErr)) := by
  have hsend := exec_send_idle (s := holdingTx s f) hs hfits
  rwa [show (holdingTx s f).txlen = f.length from rfl, elems_holdingTx] at hsend

/-- Settles O47: both sides end in the state that has sent the frame and is armed. -/
theorem xactStartIsEncSendCapt : Obligations.XactStartIsEncSendCapt := by
  intro a b s hs hargs hdraw htimeout
  have hsend := exec_send_holdingTx hs (args_frame_fits a hargs)
  rw [if_pos hdraw] at hsend
  have hcapt := exec_capt_idle (s := encSent s (encodeFrame a s.args) (.loc .dataSent)) rfl
  rw [arm_of_timeout_ne_zero (s := standaloneCapture (encSent s (encodeFrame a s.args) (.loc .dataSent))) htimeout]
    at hcapt
  refine ⟨_, _, _, _, exec_xact_idle a b hs hargs, exec_enc_idle a hs hargs, hsend, rfl, hcapt, ?_⟩
  rw [xactDone_of_txok a b hdraw, arm_of_timeout_ne_zero (s := transactionCapture a b s) htimeout]
  rfl

/-! ### The ends -/

/-- With `TIMEOUT` 0 or a failed send there is no capture, and `VAL` after the commands only writes `EXP` (R236). -/
theorem xact_timeout_zero (a b : Byte) {s : State} (hs : s.phase = .idle) (hargs : s.arglen ≤ s.params.argMax)
    (hdraw : s.draw.txok = true) (htimeout : s.timeout = 0) :
    ∃ x p q u w, exec (.xact a b) s = .next x ∧
      exec (.enc a) s = .next p ∧ exec .send p = .next q ∧ q.status = .loc .dataSent ∧
      exec .capt q = .next u ∧ u.status = .loc .timeout ∧ exec (.val b) u = .next w ∧
      x = { w with mode := .transaction, ansop := 0x00, plen := 0 } := by
  have hsend := exec_send_holdingTx hs (args_frame_fits a hargs)
  rw [if_pos hdraw] at hsend
  have hcapt := exec_capt_idle (s := encSent s (encodeFrame a s.args) (.loc .dataSent)) rfl
  rw [arm_of_timeout_eq_zero (s := standaloneCapture (encSent s (encodeFrame a s.args) (.loc .dataSent))) htimeout]
    at hcapt
  refine ⟨_, _, _, _, _, exec_xact_idle a b hs hargs, exec_enc_idle a hs hargs, hsend, rfl, hcapt, rfl,
    exec_val_keeps b rfl nofun nofun, ?_⟩
  rw [xactDone_of_txok a b hdraw, arm_of_timeout_eq_zero (s := transactionCapture a b s) htimeout]
  rfl

theorem xact_not_sent (a b : Byte) {s : State} (hs : s.phase = .idle) (hargs : s.arglen ≤ s.params.argMax)
    (hdraw : s.draw.txok = false) :
    ∃ x p q w, exec (.xact a b) s = .next x ∧
      exec (.enc a) s = .next p ∧ exec .send p = .next q ∧ q.status = .loc .hwErr ∧ exec (.val b) q = .next w ∧
      x = { w with ansop := 0x00, plen := 0 } := by
  have hsend := exec_send_holdingTx hs (args_frame_fits a hargs)
  rw [if_neg (ne_true_of_eq_false hdraw)] at hsend
  refine ⟨_, _, _, _, exec_xact_idle a b hs hargs, exec_enc_idle a hs hargs, hsend, rfl,
    exec_val_keeps b rfl nofun nofun, ?_⟩
  rw [xactDone_of_not_txok a b hdraw]
  rfl

/-- A timed-out transaction is a timed-out standalone capture but for `MODE`, and `VAL` leaves that as it is. -/
theorem timeOut_then_val {s : State} (hmode : s.mode = .transaction) :
    ∃ w, exec (.val s.exp) (timeOut { s with mode := .standalone }) = .next w ∧
      timeOut s = { w with mode := .transaction } := by
  refine ⟨_, exec_val_keeps s.exp rfl nofun nofun, ?_⟩
  rw [← hmode]
  rfl

theorem onTick_at_deadline {s : State} (hs : s.phase ≠ .idle) (htmr : s.tmr = 1) :
    handleEvent .tick s = .next (timeOut { s with tmr := 0 }) :=
  congrArg Host.Outcome.next (onTick_deadline hs (congrArg BitVec.toNat htmr))

/-- Without a payload to attach there is nothing for a status other than `SUCCESS` and a mismatch to withhold. -/
theorem payload_length_of_validate {f : List Byte} {e : Byte} {v : Status}
    (hv : validate (decodeFrame f).status (decodeFrame f).ansop e = v) :
    (if v = .loc .success then (decodeFrame f).payload.length else 0) =
      if v = .loc .opcodeMismatch then 0 else (decodeFrame f).payload.length := by
  subst hv
  rcases decodeFrame_cases f with hf | hf | ⟨code, hf⟩ | ⟨op, rest, -, -, hf⟩ <;> rw [hf]
  · exact ite_self _
  · exact ite_self _
  · exact ite_self _
  · by_cases hop : op = e
    · subst hop
      simp [answerFrame, validate_match]
    · simp [answerFrame, validate_mismatch hop]

/-- The standalone capture of the same frame, decoded. -/
def capturedAndDecoded (s : State) : State :=
  withDecoded ((closedFrame { s with mode := .standalone }).raise (.loc .dataReceived))
    (decodeFrame (s.frame ++ [etx]))

theorem exec_dec_after_capture {s : State} (hroom : s.room = true) :
    exec .dec ((closedFrame { s with mode := .standalone }).raise (.loc .dataReceived)) =
      .next (capturedAndDecoded s) := by
  have hframe : ((closedFrame { s with mode := .standalone }).raise (.loc .dataReceived)).frame = s.frame ++ [etx] :=
    calc ((closedFrame { s with mode := .standalone }).raise (.loc .dataReceived)).frame
        = (closedFrame s).frame := frame_congr rfl rfl rfl
      _ = s.frame ++ [etx] := frame_closedFrame s
  have hdec := exec_dec_idle (s := (closedFrame { s with mode := .standalone }).raise (.loc .dataReceived)) rfl hroom
  rwa [hframe] at hdec

/-- The state after `ETX`, `DEC` and `VAL` of the expected opcode. -/
def capturedDecodedValidated (s : State) : State := idleEffect (.val s.exp) (capturedAndDecoded s)

theorem plen_transaction_eq (s : State) :
    (withValidated (closedFrame s) (decodeFrame (s.frame ++ [etx]))).plen = (capturedDecodedValidated s).plen :=
  payload_length_of_validate rfl

/-- Where the transaction attaches no payload there is none to read. -/
theorem result_transaction_eq (s : State) :
    (withValidated (closedFrame s) (decodeFrame (s.frame ++ [etx]))).result = (capturedDecodedValidated s).result := by
  have hplen := plen_transaction_eq s
  by_cases hv : validate (decodeFrame (s.frame ++ [etx])).status (decodeFrame (s.frame ++ [etx])).ansop s.exp =
      .loc .success
  · have hmem : (withValidated (closedFrame s) (decodeFrame (s.frame ++ [etx]))).payload =
        (capturedDecodedValidated s).payload := if_pos hv
    rw [State.result, State.result, hplen]
    exact elems_congr (sp := .payload) hmem rfl _ 0
  · have hzero : (withValidated (closedFrame s) (decodeFrame (s.frame ++ [etx]))).plen = 0 := if_neg hv
    rw [State.result, State.result, ← hplen, hzero]
    rfl

/-! ### Until the end -/

/-- A state as another mode, and other values of the registers that R236 lets differ, would have it. -/
def inMode (m : Mode) (op : Byte) (n : Nat) (x : Byte) (s : State) : State :=
  { s with mode := m, ansop := op, plen := n, exp := x }

/-- A byte that leaves the capture armed acts the same in either mode. -/
theorem ByteEffect.inMode {b : Byte} {s t : State} (h : ByteEffect b s t) (ht : t.phase ≠ .idle) (m : Mode) (op : Byte)
    (n : Nat) (x : Byte) : ByteEffect b (inMode m op n x s) (inMode m op n x t) := by
  cases h with
  | discarded hs hb => exact .discarded (s := Machine.inMode m op n x s) hs hb
  | started hs hb hfits => exact .started (s := Machine.inMode m op n x s) hs hb hfits
  | dropped hs hfull => exact .dropped (s := Machine.inMode m op n x s) hs hfull
  | stored hs hb hroom => exact .stored (s := Machine.inMode m op n x s) hs hb hroom
  | short | received | completed => exact absurd rfl ht

theorem onTick_inMode {s : State} (ht : (onTick s).phase ≠ .idle) (m : Mode) (op : Byte) (n : Nat) (x : Byte) :
    onTick (inMode m op n x s) = inMode m op n x (onTick s) := by
  rcases onTick_cases s with ⟨hs, heq⟩ | ⟨-, -, heq⟩ | ⟨hs, htwo, heq⟩
  · exact absurd ((congrArg State.phase heq).trans hs) ht
  · exact absurd (congrArg State.phase heq) ht
  · rw [heq, onTick_counts (s := inMode m op n x s) hs htwo]
    rfl

theorem onRxByte_inMode {s t : State} (h : onRxByte s = .next t) (ht : t.phase ≠ .idle) (m : Mode) (op : Byte)
    (n : Nat) (x : Byte) : onRxByte (inMode m op n x s) = .next (inMode m op n x t) := by
  rcases onRxByte_next h with ⟨rfl, hidle | hempty⟩ | ⟨b, q, hs, hq, heffect⟩
  · exact absurd hidle ht
  · exact onRxByte_of_empty (s := inMode m op n x t) hempty
  · rw [onRxByte_of_armed (s := inMode m op n x s) hs hq]
    exact (heffect.inMode ht m op n x).exec

/-- An event of the channel or the clock that leaves the capture armed acts the same in either mode (R236). -/
theorem handleEvent_inMode {e : Event} (he : FromChannelOrClock e) {s t : State} (h : handleEvent e s = .next t)
    (ht : t.phase ≠ .idle) (m : Mode) (op : Byte) (n : Nat) (x : Byte) :
    handleEvent e (inMode m op n x s) = .next (inMode m op n x t) := by
  rcases he with rfl | rfl | ⟨b, rfl⟩
  · cases h
    exact congrArg Host.Outcome.next (onTick_inMode ht m op n x)
  · exact onRxByte_inMode h ht m op n x
  · cases h
    rfl

/-- Settles O48: the long frame, the other ends, and what both modes do until then. -/
theorem transactionEndIsCaptureDecVal : Obligations.TransactionEndIsCaptureDecVal := by
  refine ⟨fun s hs hroom hlen hmode => ?long, fun s hs hroom hlen hmode => ?short, fun s hs htmr hmode => ?deadline,
    fun a b s => xact_timeout_zero a b, fun a b s => xact_not_sent a b,
    fun e s t m op x n he _ h ht => handleEvent_inMode he h ht m op n x⟩
  case long =>
    refine ⟨_, _, _, capturedDecodedValidated s, exec_rxByteEtx_transaction hs hroom hlen hmode,
      exec_rxByteEtx_standalone (s := { s with mode := .standalone }) hs hroom hlen rfl, rfl, exec_dec_after_capture hroom,
      exec_val_idle s.exp rfl, ?_⟩
    exact ⟨rfl, rfl, plen_transaction_eq s, result_transaction_eq s, rfl, rfl, rfl, rfl, rfl, rfl, rfl, rfl, rfl⟩
  case short =>
    obtain ⟨w, hval, heq⟩ := timeOut_then_val (s := closedFrame s) hmode
    exact ⟨_, _, w, exec_rxByteEtx_short hs hroom hlen,
      exec_rxByteEtx_short (s := { s with mode := .standalone }) hs hroom hlen, rfl, hval, heq⟩
  case deadline =>
    obtain ⟨w, hval, heq⟩ := timeOut_then_val (s := { s with tmr := 0 }) hmode
    exact ⟨_, _, w, onTick_at_deadline hs htmr, onTick_at_deadline (s := { s with mode := .standalone }) hs htmr, rfl,
      hval, heq⟩

end Sys2Proof.Machine
end

section
/-! PROOFS. A whole frame received (`42_rx_capture.md` R185, `44_validator_transaction.md` R225). `TakesAll` is a run of
received bytes with the channel left out, so that a frame's reception is said once, whether its bytes are queued before
the run or arrive one by one. -/

namespace Sys2Proof.Machine

/-! ### Bytes taken one after the other -/

/-- The bytes taken in order lead from one state to the other. -/
inductive TakesAll : List Byte → State → State → Prop
  | nil (s : State) : TakesAll [] s s
  | cons {b : Byte} {bs : List Byte} {s u t : State} (hb : ByteEffect b s u) (hbs : TakesAll bs u t) :
    TakesAll (b :: bs) s t

theorem TakesAll.append {as bs : List Byte} {s u t : State} (ha : TakesAll as s u) (hb : TakesAll bs u t) :
    TakesAll (as ++ bs) s t := by
  induction ha with
  | nil => exact hb
  | cons hfirst _ ih => exact .cons hfirst (ih hb)

theorem TakesAll.concat {bs : List Byte} {b : Byte} {s u t : State} (hbs : TakesAll bs s u) (hb : ByteEffect b u t) :
    TakesAll (bs ++ [b]) s t := hbs.append (.cons hb (.nil t))

/-- No byte is taken in `IDLE` (R176). -/
theorem ByteEffect.armed {b : Byte} {s t : State} (h : ByteEffect b s t) : s.phase ≠ .idle := by
  intro hidle
  cases h with
  | discarded hs | started hs | dropped hs | stored hs | short hs | received hs | completed hs =>
    exact absurd (hs.symm.trans hidle) nofun

/-- A byte's effect neither reads nor writes what is still in the channel. -/
theorem ByteEffect.with_rxq {b : Byte} {s t : State} (h : ByteEffect b s t) (q : List Byte) :
    ByteEffect b { s with rxq := q } { t with rxq := q } := by
  cases h with
  | discarded hs hb => exact .discarded (s := { s with rxq := q }) hs hb
  | started hs hb hfits => exact .started (s := { s with rxq := q }) hs hb hfits
  | dropped hs hfull => exact .dropped (s := { s with rxq := q }) hs hfull
  | stored hs hb hroom => exact .stored (s := { s with rxq := q }) hs hb hroom
  | short hs hb hroom hlen => exact .short (s := { s with rxq := q }) hs hb hroom hlen
  | received hs hb hroom hlen hmode => exact .received (s := { s with rxq := q }) hs hb hroom hlen hmode
  | completed hs hb hroom hlen hmode =>
    have hframe : { s with rxq := q : State }.frame = s.frame := frame_congr rfl rfl rfl
    have hdone := ByteEffect.completed (s := { s with rxq := q }) hs hb hroom hlen hmode
    rwa [hframe] at hdone

theorem ByteEffect.rxq_eq {b : Byte} {s t : State} (h : ByteEffect b s t) : t.rxq = s.rxq := by
  cases h <;> rfl

/-- Bytes queued in the channel are taken by one offer each, and what follows them stays there (R185). -/
theorem TakesAll.handleAll_queued {bs : List Byte} {s t : State} (h : TakesAll bs s t) (rest : List Byte) :
    handleAll (List.replicate bs.length .rxByte) { s with rxq := bs ++ rest } = .next { t with rxq := rest } := by
  induction h with
  | nil => rfl
  | @cons b bs s u t hb _ ih =>
    have hstep : handleEvent .rxByte { s with rxq := b :: bs ++ rest } = .next { u with rxq := bs ++ rest } :=
      (onRxByte_of_armed (s := { s with rxq := b :: bs ++ rest }) hb.armed rfl).trans (hb.with_rxq _).exec
    exact (handleAll_cons hstep).trans ih

/-- Bytes that arrive and are offered one by one over an empty channel are taken as they come (R112). -/
theorem TakesAll.handleAll_pseudoRxs {bs : List Byte} {s t : State} (h : TakesAll bs s t) (hq : s.rxq = []) :
    handleAll (pseudoRxs bs) s = .next t := by
  induction h with
  | nil => rfl
  | @cons b bs s u t hb _ ih =>
    have harrive : handleEvent (.arrive b) s = .next { s with rxq := [b] } := by
      rw [handleEvent, hq]
      rfl
    have hempty : { s with rxq := [] } = s := by rw [← hq]
    have htaken : handleEvent .rxByte { s with rxq := [b] } = .next u :=
      (onRxByte_of_armed (s := { s with rxq := [b] }) hb.armed rfl).trans (by rw [hempty]; exact hb.exec)
    rw [pseudoRxs, handleAll_cons harrive, handleAll_cons htaken]
    exact ih (hb.rxq_eq.trans hq)

/-! ### A frame taken -/

/-- Bytes before the first `STX` are discarded (R177). -/
theorem takesAll_noise {noise : List Byte} (hnoise : stx ∉ noise) {s : State} (hs : s.phase = .hunt) :
    TakesAll noise s s := by
  induction noise with
  | nil => exact .nil s
  | cons b noise ih =>
    rw [List.mem_cons, not_or] at hnoise
    exact .cons (.discarded hs (Ne.symm hnoise.1)) (ih hnoise.2)

/-- The state with bytes appended to the frame in `RXBUF`. -/
def pushRxs (s : State) (bs : List Byte) : State :=
  { s with rxbuf := s.rxbuf.writeAll s.rxlen bs, rxlen := s.rxlen + bs.length }

theorem pushRxs_cons (s : State) (b : Byte) (bs : List Byte) : pushRxs s (b :: bs) = pushRxs (pushRx s b) bs := by
  have hlen : s.rxlen + (b :: bs).length = s.rxlen + 1 + bs.length := by
    rw [List.length_cons]
    omega
  rw [pushRxs, hlen]
  rfl

/-- Bytes other than `ETX` are stored as long as there is room for them (R179). -/
theorem takesAll_pushRxs {bs : List Byte} (hetx : etx ∉ bs) {s : State} (hs : s.phase = .acc)
    (hfits : s.fits .rxbuf (s.rxlen + bs.length) = true) : TakesAll bs s (pushRxs s bs) := by
  induction bs generalizing s with
  | nil => exact .nil s
  | cons b bs ih =>
    rw [List.mem_cons, not_or] at hetx
    have hlen : s.rxlen + (b :: bs).length = s.rxlen + 1 + bs.length := by
      rw [List.length_cons]
      omega
    rw [hlen] at hfits
    have hroom : s.room = true := fits_mono (Nat.le_add_right _ _) hfits
    rw [pushRxs_cons]
    exact .cons (.stored hs (Ne.symm hetx.1) hroom) (ih hetx.2 (s := pushRx s b) hs hfits)

theorem frame_pushRxs (s : State) (bs : List Byte) : (pushRxs s bs).frame = s.frame ++ bs := by
  induction bs generalizing s with
  | nil => rw [List.append_nil]; rfl
  | cons b bs ih => rw [pushRxs_cons, ih, frame_pushRx, List.append_assoc, List.singleton_append]

theorem frame_startedFrame (s : State) : (startedFrame s).frame = [stx] :=
  congrArg (fun b => [b]) (elem_of_write_same (s := s) (t := startedFrame s) (sp := .rxbuf) (i := 0) rfl)

/-- The state with a frame in progress: a start marker and the bytes after it (R177, R179). -/
def frameInProgress (s : State) (mid : List Byte) : State := pushRxs (startedFrame s) mid

theorem frame_frameInProgress (s : State) (mid : List Byte) : (frameInProgress s mid).frame = [stx] ++ mid := by
  rw [frameInProgress, frame_pushRxs, frame_startedFrame]

/-- The frame in progress has room for its end marker where the whole frame fits. -/
theorem room_frameInProgress {s : State} {mid : List Byte} (h : s.fits .rxbuf (mid.length + 2) = true) :
    (frameInProgress s mid).room = true := by
  have hlen : (frameInProgress s mid).rxlen + 1 = mid.length + 2 := by
    change 1 + mid.length + 1 = _
    omega
  rw [State.room, hlen]
  exact h

/-! ### What a reception leaves alone -/

/-- What the arguments in `ARGBUF` depend on. -/
theorem args_congr {s t : State} (hbuf : t.argbuf = s.argbuf) (hlen : t.arglen = s.arglen) (hepoch : t.epoch = s.epoch) :
    t.args = s.args := by
  rw [State.args, hlen]
  exact elems_congr (sp := .argbuf) hbuf hepoch ..

/-- What the payload of the result depends on. -/
theorem result_congr {s t : State} (hbuf : t.payload = s.payload) (hlen : t.plen = s.plen)
    (hepoch : t.epoch = s.epoch) : t.result = s.result := by
  rw [State.result, hlen]
  exact elems_congr (sp := .payload) hbuf hepoch ..

section
variable (s : State) (mid q : List Byte) (st : Status) (r : Decoded)

theorem frame_with_rxq : { s with rxq := q : State }.frame = s.frame := frame_congr rfl rfl rfl
theorem args_with_rxq : { s with rxq := q : State }.args = s.args := args_congr rfl rfl rfl
theorem result_with_rxq : { s with rxq := q : State }.result = s.result := result_congr rfl rfl rfl
theorem frame_raise : (s.raise st).frame = s.frame := frame_congr rfl rfl rfl

@[simp] theorem frameInProgress_tmr : (frameInProgress s mid).tmr = s.tmr := rfl
@[simp] theorem frameInProgress_flags : (frameInProgress s mid).flags = s.flags := rfl
@[simp] theorem frameInProgress_ansop : (frameInProgress s mid).ansop = s.ansop := rfl
@[simp] theorem frameInProgress_plen : (frameInProgress s mid).plen = s.plen := rfl
@[simp] theorem frameInProgress_crc : (frameInProgress s mid).crc = s.crc := rfl
@[simp] theorem frameInProgress_exp : (frameInProgress s mid).exp = s.exp := rfl
@[simp] theorem frameInProgress_sent : (frameInProgress s mid).sent = s.sent := rfl
@[simp] theorem frameInProgress_args : (frameInProgress s mid).args = s.args := args_congr rfl rfl rfl

@[simp] theorem closedFrame_phase : (closedFrame s).phase = .idle := rfl
@[simp] theorem closedFrame_tmr : (closedFrame s).tmr = s.tmr := rfl
@[simp] theorem closedFrame_flags : (closedFrame s).flags = s.flags := rfl
@[simp] theorem closedFrame_ansop : (closedFrame s).ansop = s.ansop := rfl
@[simp] theorem closedFrame_plen : (closedFrame s).plen = s.plen := rfl
@[simp] theorem closedFrame_crc : (closedFrame s).crc = s.crc := rfl
@[simp] theorem closedFrame_exp : (closedFrame s).exp = s.exp := rfl
@[simp] theorem closedFrame_sent : (closedFrame s).sent = s.sent := rfl
@[simp] theorem closedFrame_args : (closedFrame s).args = s.args := args_congr rfl rfl rfl

@[simp] theorem withValidated_phase : (withValidated s r).phase = s.phase := rfl
@[simp] theorem withValidated_tmr : (withValidated s r).tmr = s.tmr := rfl
@[simp] theorem withValidated_flags :
    (withValidated s r).flags = if r.malf then withFlag s.flags .malf else s.flags := rfl
@[simp] theorem withValidated_ansop : (withValidated s r).ansop = r.ansop := rfl
@[simp] theorem withValidated_crc : (withValidated s r).crc = s.crc := rfl
@[simp] theorem withValidated_exp : (withValidated s r).exp = s.exp := rfl
@[simp] theorem withValidated_sent : (withValidated s r).sent = s.sent := rfl
@[simp] theorem withValidated_args : (withValidated s r).args = s.args := args_congr rfl rfl rfl

end

/-! ### The whole frame taken -/

/-- Noise, a start marker, bytes other than `ETX`, and the end marker with whatever it does (R185). -/
theorem takesAll_frame {noise mid : List Byte} {s t : State} (hs : s.phase = .hunt) (hnoise : stx ∉ noise)
    (hmid : etx ∉ mid) (hfits : s.fits .rxbuf (mid.length + 2) = true)
    (hend : ByteEffect etx (frameInProgress s mid) t) : TakesAll (noise ++ ([stx] ++ mid ++ [etx])) s t := by
  have hone : s.fits .rxbuf 1 = true := fits_mono (by omega) hfits
  have hroom : (startedFrame s).fits .rxbuf ((startedFrame s).rxlen + mid.length) = true :=
    fits_mono (s := s) (by change 1 + mid.length ≤ mid.length + 2; omega) hfits
  have hstored : TakesAll ([stx] ++ mid) s (frameInProgress s mid) :=
    .cons (.started hs rfl hone) (takesAll_pushRxs hmid rfl hroom)
  exact (takesAll_noise hnoise hs).append (hstored.concat hend)

/-- Settles O35: the frame is taken whole, and the capture reports it. -/
theorem captureReturnsTheFirstFrame : Obligations.CaptureReturnsTheFirstFrame := by
  intro s noise mid rest hs hmode hnoise hmid hlen hfits
  have hframeLen : minFrame ≤ (frameInProgress s mid).rxlen + 1 := by
    change 6 ≤ 1 + mid.length + 1
    omega
  have htakes := takesAll_frame hs hnoise hmid hfits (.received rfl rfl (room_frameInProgress hfits) hframeLen hmode)
  have hcount : noise.length + mid.length + 2 = (noise ++ ([stx] ++ mid ++ [etx])).length := by
    simp only [List.length_append, List.length_singleton]
    omega
  have hframe : (closedFrame (frameInProgress s mid)).frame = [stx] ++ mid ++ [etx] := by
    rw [frame_closedFrame, frame_frameInProgress]
  rw [hcount]
  refine ⟨_, htakes.handleAll_queued rest, ?_⟩
  rw [frame_with_rxq, frame_raise, hframe]
  simp [stx, etx]

/-! ### The answer of a transaction taken -/

/-- The state of a transaction that has captured the answer it expects: the frame, then the result (R227). -/
def answered (s : State) (payload : List Byte) : State :=
  withValidated (closedFrame (frameInProgress s (frameInterior (s.exp :: payload)))) (answerFrame s.exp payload)

theorem etx_not_mem_frameInterior (bs : List Byte) : etx ∉ frameInterior bs := by
  intro hmem
  obtain ⟨n, hn⟩ := mem_frameInterior hmem
  exact (digit_ne_marker n).2 hn.symm

/-- A transaction takes the frame of the answer it expects (R225). -/
theorem takesAll_answer {noise payload : List Byte} {s : State} (hs : s.phase = .hunt) (hmode : s.mode = .transaction)
    (hexp : s.exp ≠ errOp) (hnoise : stx ∉ noise)
    (hfits : s.fits .rxbuf (encodeFrame s.exp payload).length = true) :
    TakesAll (noise ++ encodeFrame s.exp payload) s (answered s payload) := by
  have hframe : encodeFrame s.exp payload = [stx] ++ frameInterior (s.exp :: payload) ++ [etx] :=
    encodeFrame_eq s.exp payload
  have hinterior : s.fits .rxbuf ((frameInterior (s.exp :: payload)).length + 2) = true := by
    rwa [hframe, List.length_append, List.length_append, Nat.add_comm [stx].length] at hfits
  have hlen : minFrame ≤ (frameInProgress s (frameInterior (s.exp :: payload))).rxlen + 1 := by
    change 6 ≤ 1 + (frameInterior (s.exp :: payload)).length + 1
    rw [frameInterior_length]
    omega
  have hend : ByteEffect etx (frameInProgress s (frameInterior (s.exp :: payload))) _ :=
    .completed rfl rfl (room_frameInProgress hinterior) hlen hmode
  rw [frame_frameInProgress, ← hframe, decodeFrame_encodeFrame hexp] at hend
  rw [hframe]
  exact takesAll_frame hs hnoise (etx_not_mem_frameInterior _) hinterior hend

theorem validate_answered (s : State) (payload : List Byte) :
    validate (answerFrame s.exp payload).status (answerFrame s.exp payload).ansop
      (closedFrame (frameInProgress s (frameInterior (s.exp :: payload)))).exp = .loc .success :=
  validate_match s.exp

section
variable (s : State) (payload : List Byte)

@[simp] theorem answered_status : (answered s payload).status = .loc .success := validate_answered s payload

@[simp] theorem answered_plen : (answered s payload).plen = payload.length := if_pos (validate_answered s payload)

@[simp] theorem answered_result : (answered s payload).result = payload :=
  result_withValidated (validate_answered s payload)

@[simp] theorem answered_phase : (answered s payload).phase = .idle := by simp [answered]
@[simp] theorem answered_ansop : (answered s payload).ansop = s.exp := by simp [answered, answerFrame]
@[simp] theorem answered_exp : (answered s payload).exp = s.exp := by simp [answered]
@[simp] theorem answered_tmr : (answered s payload).tmr = s.tmr := by simp [answered]
@[simp] theorem answered_flags : (answered s payload).flags = s.flags := by simp [answered, answerFrame]
@[simp] theorem answered_crc : (answered s payload).crc = s.crc := by simp [answered]
@[simp] theorem answered_sent : (answered s payload).sent = s.sent := by simp [answered]
@[simp] theorem answered_args : (answered s payload).args = s.args := by simp [answered]

end


/-! ### From the command to the answer -/

/-- The transaction that `XACT` arms: its frame sent, and the capture hunting (R226). -/
def armedTransaction (a b : Byte) (s : State) : State :=
  { transactionCapture a b s with rxlen := 0, tmr := s.timeout, phase := .hunt }

section
variable (a b : Byte) (s : State)

@[simp] theorem armedTransaction_exp : (armedTransaction a b s).exp = b := rfl
@[simp] theorem armedTransaction_tmr : (armedTransaction a b s).tmr = s.timeout := rfl
@[simp] theorem armedTransaction_flags : (armedTransaction a b s).flags = s.flags := rfl
@[simp] theorem armedTransaction_crc : (armedTransaction a b s).crc = s.crc := rfl
@[simp] theorem armedTransaction_args : (armedTransaction a b s).args = s.args := args_congr rfl rfl rfl

/-- What the transaction has emitted is its request's frame. -/
@[simp] theorem armedTransaction_sent :
    (armedTransaction a b s).sent = s.sent ++ [{ frame := encodeFrame a s.args, draw := s.draw }] := rfl

end

theorem handleEvent_xact (a b : Byte) {s : State} {d : TxDraw} (hs : s.phase = .idle)
    (hargs : s.arglen ≤ s.params.argMax) (hdraw : d.txok = true) (htimeout : s.timeout ≠ 0) :
    handleEvent (.cmd (encodeCmd (.xact a b)) d) s = .next (armedTransaction a b { s with draw := d }) := by
  have hdone : xactDone a b { s with draw := d } = armedTransaction a b { s with draw := d } := by
    rw [xactDone_of_txok a b (s := { s with draw := d }) hdraw,
      arm_of_timeout_ne_zero (s := transactionCapture a b { s with draw := d }) htimeout]
    rfl
  rw [handleEvent, decodeCmd_encodeCmd rfl, exec_xact_idle a b (s := { s with draw := d }) hs hargs, hdone]

/-- `XACT` and an offer for each byte up to the end of the answer that stands in the channel (R225). -/
theorem handleAll_transaction {s : State} {d : TxDraw} (q : Byte) {e : Byte} {payload noise rest : List Byte}
    (hs : s.phase = .idle) (htimeout : s.timeout ≠ 0) (hargs : s.arglen ≤ s.params.argMax) (hdraw : d.txok = true)
    (hexp : e ≠ errOp) (hnoise : stx ∉ noise) (hfits : s.fits .rxbuf (encodeFrame e payload).length = true)
    (hq : s.rxq = noise ++ encodeFrame e payload ++ rest) :
    handleAll (.cmd (encodeCmd (.xact q e)) d ::
        List.replicate (noise.length + (encodeFrame e payload).length) .rxByte) s =
      .next { answered (armedTransaction q e { s with draw := d }) payload with rxq := rest } := by
  have htakes : TakesAll (noise ++ encodeFrame e payload) (armedTransaction q e { s with draw := d }) _ :=
    takesAll_answer (s := armedTransaction q e { s with draw := d }) rfl rfl hexp hnoise hfits
  have hqueue : { armedTransaction q e { s with draw := d } with rxq := noise ++ encodeFrame e payload ++ rest } =
      armedTransaction q e { s with draw := d } := by
    rw [← hq]
    rfl
  have hrun := htakes.handleAll_queued rest
  rw [hqueue, List.length_append] at hrun
  exact (handleAll_cons (handleEvent_xact q e hs hargs hdraw htimeout)).trans hrun

/-- Settles O49: the command arms a transaction, which takes its answer from the channel. -/
theorem transactionDeliversThePayload : Obligations.TransactionDeliversThePayload := by
  intro s taken q e payload noise rest hs htimeout hargs hexp hnoise hfits
  have hrun := handleAll_transaction (s := { s with rxq := noise ++ encodeFrame e payload ++ rest })
    (d := { txok := true, taken := taken }) q hs htimeout hargs rfl hexp hnoise hfits rfl
  have hkept (queue : List Byte) (d : TxDraw) : { s with rxq := queue, draw := d : State }.args = s.args :=
    args_congr rfl rfl rfl
  refine ⟨_, hrun, ?_⟩
  rw [result_with_rxq, args_with_rxq]
  simp [hkept]

/-! ### The RTC entry -/

theorem toNat_append_add {m n : Nat} (x : BitVec m) (y : BitVec n) : (x ++ y).toNat = 2 ^ n * x.toNat + y.toNat := by
  rw [BitVec.toNat_append, Nat.shiftLeft_eq, Nat.mul_comm, Nat.two_pow_add_eq_or_of_lt y.isLt]

/-- The time of an RTC answer: four bytes, the last one highest, and the epoch (R257). -/
theorem rtcTime_four (b0 b1 b2 b3 : Byte) :
    rtcTime [b0, b1, b2, b3] = some ((b3 ++ b2 ++ b1 ++ b0).toNat + 1514764800) := by
  simp only [rtcTime, rtcEpoch, toNat_append_add, Option.some.injEq]
  omega

/-- On `SUCCESS` an enqueue is what the check of its echoed ID says (R256). -/
theorem enqueueStatus_success (short : Status) (id : Word) (lo hi : Byte) (rest : List Byte) :
    enqueueStatus short id (.loc .success) (lo :: hi :: rest) =
      if hi ++ lo = id then .loc .success else .loc .payloadIdCheckFailed := by
  have hecho : echoedId (lo :: hi :: rest) = some (hi ++ lo) := congrArg some (errorCode_eq_append lo hi)
  rw [enqueueStatus, entryResult_some hecho, checkEcho]

/-- The commands of an entry without arguments arm its transaction (R112, R250). -/
theorem handleAll_pseudoExec (a b : Byte) {s : State} (hs : s.phase = .idle) (htimeout : s.timeout ≠ 0) :
    handleAll (pseudoExec a b []) s =
      .next (armedTransaction a b { s with arglen := 0, draw := { txok := true, taken := 0 } }) := by
  have hclear : handleEvent (command .argClr) s =
      .next { s with arglen := 0, draw := { txok := true, taken := 0 } } := by
    rw [handleEvent_command rfl]
    exact exec_argClr_idle hs
  have hstart := handleEvent_xact a b (s := { s with arglen := 0, draw := { txok := true, taken := 0 } })
    (d := { txok := true, taken := 0 }) hs (Nat.zero_le _) rfl htimeout
  exact (handleAll_cons hclear).trans (handleAll_cons hstart)

/-- The transaction of the RTC entry, armed with no arguments (R257). -/
def rtcArmed (s : State) : State :=
  armedTransaction 0x17 0x97 { s with arglen := 0, draw := { txok := true, taken := 0 } }

/-- The RTC entry over its answer's frame: the answered transaction, and the time (R257, R261). -/
theorem rtcRead_run {s : State} (short : Status) (b0 b1 b2 b3 : Byte) (hs : s.phase = .idle) (htimeout : s.timeout ≠ 0)
    (hq : s.rxq = []) (hfits : s.fits .rxbuf 16 = true) :
    rtcRead.run short () (pseudoRxs (encodeFrame 0x97 [b0, b1, b2, b3])) s =
      some (answered (rtcArmed s) [b0, b1, b2, b3], .ok ((b3 ++ b2 ++ b1 ++ b0).toNat + 1514764800)) := by
  have htakes : TakesAll (encodeFrame 0x97 [b0, b1, b2, b3]) (rtcArmed s) (answered (rtcArmed s) [b0, b1, b2, b3]) :=
    takesAll_answer (s := rtcArmed s) (noise := []) rfl rfl (by decide : (0x97 : Byte) ≠ errOp) List.not_mem_nil hfits
  have hrun : handleAll (pseudoExec 0x17 0x97 [] ++ pseudoRxs (encodeFrame 0x97 [b0, b1, b2, b3])) s =
      .next (answered (rtcArmed s) [b0, b1, b2, b3]) :=
    (handleAll_append (handleAll_pseudoExec 0x17 0x97 hs htimeout)).trans (htakes.handleAll_pseudoRxs hq)
  have hresult : entryResult rtcTime short (answered (rtcArmed s) [b0, b1, b2, b3]).status
      (answered (rtcArmed s) [b0, b1, b2, b3]).result = .ok ((b3 ++ b2 ++ b1 ++ b0).toNat + 1514764800) := by
    rw [answered_status, answered_result]
    exact entryResult_some (rtcTime_four b0 b1 b2 b3)
  have hbusy : (answered (rtcArmed s) [b0, b1, b2, b3]).busy = false := rfl
  have houtcome : rtcRead.outcome short (answered (rtcArmed s) [b0, b1, b2, b3]) =
      some (.ok ((b3 ++ b2 ++ b1 ++ b0).toNat + 1514764800)) := by
    rw [Descriptor.outcome, hbusy, ← hresult]
    rfl
  have hissue : rtcRead.issue () = .ok (pseudoExec 0x17 0x97 []) := rfl
  simp only [Descriptor.run, hissue, hrun, houtcome, Option.map_some]

/-- What the RTC entry emits is its request's frame and no other. -/
theorem rtcArmed_answered_sent (s : State) (payload : List Byte) :
    (answered (rtcArmed s) payload).sent.map (·.frame) = s.sent.map (·.frame) ++ [encodeFrame 0x17 []] :=
  List.map_append

/-- Settles O41: the entry's fields, the time, the check of the echo, and the entry used end to end. -/
theorem catalogReadsTimeAndChecksEcho : Obligations.CatalogReadsTimeAndChecksEcho := by
  refine ⟨rfl, rfl, rfl, rtcTime_four, fun short id lo hi rest h => ?_, fun short id lo hi rest h => ?_,
    fun s short b0 b1 b2 b3 hs htimeout hq hfits => ?_⟩
  · rw [enqueueStatus_success, if_pos h]
  · rw [enqueueStatus_success, if_neg h]
  · exact ⟨_, rtcRead_run short b0 b1 b2 b3 hs htimeout hq hfits, rtcArmed_answered_sent s _⟩

end Sys2Proof.Machine
end

section
/-! PROOFS. The flags (`10_state.md` R36): which event sets and which clears each of them. -/

namespace Sys2Proof.Machine

/-! ### One flag -/

/-- A set bit is the flag's own, or was set before. -/
theorem getLsbD_withFlag (flags : BitVec 5) (f g : Flag) :
    (withFlag flags g).getLsbD f.bit = true ↔ f = g ∨ flags.getLsbD f.bit = true := by
  have hbit : (1#5 <<< g.bit).getLsbD f.bit = decide (f = g) := by cases f <;> cases g <;> rfl
  rw [withFlag, BitVec.getLsbD_or, hbit, Bool.or_eq_true, decide_eq_true_eq, or_comm]

theorem flag_setFlag (s : State) (f g : Flag) : (s.setFlag g).flag f = true ↔ f = g ∨ s.flag f = true :=
  getLsbD_withFlag s.flags f g

/-- A flag set under a condition. -/
theorem getLsbD_ite_withFlag (c : Prop) [Decidable c] (flags : BitVec 5) (f g : Flag) :
    (if c then withFlag flags g else flags).getLsbD f.bit = true ↔ (f = g ∧ c) ∨ flags.getLsbD f.bit = true := by
  split
  · rename_i hc
    simp only [getLsbD_withFlag, hc, and_true]
  · rename_i hc
    simp only [hc, and_false, false_or]

/-! ### Commands -/

/-- The reserved codes are those from `0xD` on (R91). -/
theorem decodeCmd_reserved_iff (w : CmdWord) :
    decodeCmd w = .reservedD ∨ decodeCmd w = .reservedE ∨ decodeCmd w = .reservedF ↔ 0xD0000 ≤ w.toNat := by
  have hfield : 13 ≤ (cmdField w).toNat ↔ 0xD0000 ≤ w.toNat := by rw [cmdField_toNat]; omega
  rw [← hfield]
  constructor
  · intro h
    have hrow := (decodeCmd_row w).2
    rcases h with h | h | h <;> rw [h, encodeCmd, cmdField_cmdWord] at hrow <;> rw [← hrow] <;> decide
  · exact decodeCmd_reserved

/-- The flags that a command sets in `IDLE`. -/
def CommandRaises (i : Instr) (s : State) : Flag → Prop
  | .malf => i = .dec ∧ (decodeFrame s.frame).malf = true
  | .argovf => (∃ a, i = .argPush a) ∧ s.arglen = s.params.argMax
  | .illcmd => i = .reservedD ∨ i = .reservedE ∨ i = .reservedF
  | .rxovf | .busyerr => False

theorem arm_flags (s : State) : (arm s).flags = s.flags := by
  rcases arm_cases s with ⟨-, h⟩ | ⟨-, h⟩ <;> rw [h]
  rfl

theorem xactDone_flags (a b : Byte) (s : State) : (xactDone a b s).flags = s.flags := by
  unfold xactDone
  split
  · exact arm_flags (transactionCapture a b s)
  · rfl

/-- `FLAGS` after a command in `IDLE`. -/
def commandFlags (i : Instr) (s : State) : BitVec 5 :=
  match i with
  | .argPush _ => if s.arglen = s.params.argMax then withFlag s.flags .argovf else s.flags
  | .dec => if (decodeFrame s.frame).malf then withFlag s.flags .malf else s.flags
  | .flgClr => 0
  | .reservedD | .reservedE | .reservedF => withFlag s.flags .illcmd
  | _ => s.flags

theorem idleEffect_flags (i : Instr) (s : State) : (idleEffect i s).flags = commandFlags i s := by
  cases i with
  | argPush a =>
    change (if s.arglen = s.params.argMax then s.setFlag .argovf else pushArg s a).flags = _
    exact apply_ite State.flags _ _ _
  | capt => exact arm_flags (standaloneCapture s)
  | xact a b => exact xactDone_flags a b s
  | _ => rfl

/-- A command in `IDLE` sets its own flags and clears none, but `FLG.CLR`, which clears all. -/
theorem idleEffect_flag (i : Instr) (s : State) (f : Flag) :
    (idleEffect i s).flag f = true ↔ CommandRaises i s f ∨ (s.flag f = true ∧ i ≠ .flgClr) := by
  rw [State.flag, idleEffect_flags]
  cases i with
  | argPush a =>
    rw [commandFlags, getLsbD_ite_withFlag]
    cases f <;> simp [CommandRaises, State.flag]
  | dec =>
    rw [commandFlags, getLsbD_ite_withFlag]
    cases f <;> simp [CommandRaises, State.flag]
  | reservedD | reservedE | reservedF =>
    rw [commandFlags, getLsbD_withFlag]
    cases f <;> simp [CommandRaises, State.flag]
  | _ => cases f <;> simp [CommandRaises, commandFlags, State.flag]

/-! ### Received bytes -/

/-- The flags that a received byte sets. -/
def ByteRaises (b : Byte) (s : State) : Flag → Prop
  | .malf => s.phase = .acc ∧ s.mode = .transaction ∧ b = etx ∧ s.room = true ∧ minFrame ≤ s.rxlen + 1 ∧
    (decodeFrame (s.frame ++ [etx])).malf = true
  | .rxovf => s.phase = .acc ∧ s.params.rxCap = some s.rxlen
  | .argovf | .busyerr | .illcmd => False

/-- A byte that sets no flag leaves them all. -/
theorem flag_of_not_raises {b : Byte} {s t : State} (hflags : t.flags = s.flags) (h : ∀ f, ¬ ByteRaises b s f)
    (f : Flag) : t.flag f = true ↔ ByteRaises b s f ∨ s.flag f = true := by
  rw [State.flag, hflags, State.flag]
  exact (or_iff_right (h f)).symm

/-- A received byte sets `RXOVF` where the buffer is full, `MALF` where it completes a transaction with a malformed
frame, and clears none. -/
theorem ByteEffect.flag {b : Byte} {s t : State} (h : ByteEffect b s t) (f : Flag) :
    t.flag f = true ↔ ByteRaises b s f ∨ s.flag f = true := by
  cases h with
  | discarded hs | started hs =>
    refine flag_of_not_raises (by rfl) (fun g hg => ?_) f
    cases g <;> simp [ByteRaises, hs] at hg
  | dropped hs hfull =>
    have hroom : s.room = false := by
      by_contra hne
      exact not_full_of_room (by simpa using hne) hfull
    rw [State.flag, dropFrame_flags, getLsbD_withFlag, State.flag]
    cases f <;> simp [ByteRaises, hs, hfull, hroom]
  | stored hs hb hroom =>
    refine flag_of_not_raises (by rfl) (fun g hg => ?_) f
    cases g <;> simp [ByteRaises, hb, not_full_of_room hroom] at hg
  | short hs hb hroom hlen =>
    refine flag_of_not_raises (by rfl) (fun g hg => ?_) f
    cases g <;> simp [ByteRaises, not_full_of_room hroom, Nat.not_le.2 hlen] at hg
  | received hs hb hroom hlen hmode =>
    refine flag_of_not_raises (by rfl) (fun g hg => ?_) f
    cases g <;> simp [ByteRaises, hmode, not_full_of_room hroom] at hg
  | completed hs hb hroom hlen hmode =>
    rw [State.flag, withValidated_flags, getLsbD_ite_withFlag, closedFrame_flags, State.flag]
    cases f <;> simp [ByteRaises, hs, hb, hroom, hlen, hmode, not_full_of_room hroom]

/-! ### Events -/

/-- The events that clear every flag (R36). -/
def Clears (e : Event) (s : State) : Prop :=
  e = .reset ∨ ∃ w d, e = .cmd w d ∧ decodeCmd w = .flgClr ∧ s.phase = .idle

/-- The events that set a flag, flag by flag (R36). -/
def Raises (e : Event) (s : State) : Flag → Prop
  | .malf =>
    (∃ w d, e = .cmd w d ∧ decodeCmd w = .dec ∧ s.phase = .idle ∧ (decodeFrame s.frame).malf = true) ∨
    (e = .rxByte ∧ s.phase = .acc ∧ s.mode = .transaction ∧ s.rxq.head? = some 0x03 ∧ s.room = true ∧
      6 ≤ s.rxlen + 1 ∧ (decodeFrame (s.frame ++ [0x03])).malf = true)
  | .rxovf => e = .rxByte ∧ s.phase = .acc ∧ s.rxq ≠ [] ∧ s.params.rxCap = some s.rxlen
  | .argovf => ∃ w d a, e = .cmd w d ∧ decodeCmd w = .argPush a ∧ s.phase = .idle ∧ s.arglen = s.params.argMax
  | .busyerr => (∃ w d, e = .cmd w d) ∧ s.phase ≠ .idle
  | .illcmd => ∃ w d, e = .cmd w d ∧ 0xD0000 ≤ w.toNat ∧ s.phase = .idle

/-- In `IDLE` a command's event sets the flags that its instruction sets. -/
theorem raises_cmd_idle {w : CmdWord} {d : TxDraw} {s : State} (hs : s.phase = .idle) (f : Flag) :
    Raises (.cmd w d) s f ↔ CommandRaises (decodeCmd w) s f := by
  cases f <;> simp [Raises, CommandRaises, hs, decodeCmd_reserved_iff]

/-- The draw of a send is none of what a flag depends on. -/
theorem commandRaises_with_draw (i : Instr) (s : State) (d : TxDraw) (f : Flag) :
    CommandRaises i { s with draw := d } f ↔ CommandRaises i s f := by
  have hframe : { s with draw := d : State }.frame = s.frame := frame_congr rfl rfl rfl
  cases f with
  | malf => rw [CommandRaises, hframe, CommandRaises]
  | rxovf | argovf | busyerr | illcmd => exact Iff.rfl

/-- Outside `IDLE` a command's event sets `BUSYERR` alone. -/
theorem raises_cmd_busy {w : CmdWord} {d : TxDraw} {s : State} (hs : s.phase ≠ .idle) (f : Flag) :
    Raises (.cmd w d) s f ↔ f = .busyerr := by
  cases f <;> simp [Raises, hs]

theorem clears_cmd_iff {w : CmdWord} {d : TxDraw} {s : State} :
    Clears (.cmd w d) s ↔ decodeCmd w = .flgClr ∧ s.phase = .idle := by
  simp [Clears]

/-- The channel's offer of a byte sets the flags that the byte sets. -/
theorem raises_rxByte {s : State} {b : Byte} {q : List Byte} (hq : s.rxq = b :: q) (f : Flag) :
    Raises .rxByte s f ↔ ByteRaises b { s with rxq := q } f := by
  have hframe : { s with rxq := q : State }.frame = s.frame := frame_with_rxq s q
  have hroom : { s with rxq := q : State }.room = s.room := rfl
  cases f <;> simp [Raises, ByteRaises, hq, hframe, hroom, etx, minFrame]

/-- With nothing taken nothing is set. -/
theorem not_raises_rxByte_quiet {s : State} (h : s.phase = .idle ∨ s.rxq = []) (f : Flag) : ¬ Raises .rxByte s f := by
  rcases h with h | h <;> cases f <;> simp [Raises, h]

theorem not_clears_rxByte (s : State) : ¬ Clears .rxByte s := by simp [Clears]

theorem onTick_flags (s : State) : (onTick s).flags = s.flags := by
  rcases onTick_cases s with ⟨-, h⟩ | ⟨-, -, h⟩ | ⟨-, -, h⟩ <;> rw [h]
  rfl

/-- An event that neither sets nor clears. -/
theorem flag_of_quiet {e : Event} {s t : State} (hflags : t.flags = s.flags) (hraises : ∀ f, ¬ Raises e s f)
    (hclears : ¬ Clears e s) (f : Flag) : t.flag f = true ↔ Raises e s f ∨ (s.flag f = true ∧ ¬ Clears e s) := by
  rw [State.flag, hflags, State.flag]
  simp [hraises f, hclears]

/-- After an event a flag is set exactly where the event sets it, or it was set and the event does not clear. -/
theorem handleEvent_flag {e : Event} {s t : State} (h : handleEvent e s = .next t) (f : Flag) :
    t.flag f = true ↔ Raises e s f ∨ (s.flag f = true ∧ ¬ Clears e s) := by
  cases e with
  | cmd w d =>
    rcases exec_command_next (decodeCmd_row w).1 h with ⟨hs, -, rfl⟩ | ⟨hs, rfl⟩
    · have hidle : s.phase = .idle := hs
      rw [idleEffect_flag, commandRaises_with_draw, raises_cmd_idle hidle, clears_cmd_iff, and_iff_left hidle]
      rfl
    · have hbusy : s.phase ≠ .idle := hs
      rw [flag_setFlag, raises_cmd_busy hbusy, clears_cmd_iff, and_iff_left (fun h => hbusy h.2)]
      rfl
  | rxByte =>
    rcases onRxByte_next h with ⟨rfl, hquiet⟩ | ⟨b, q, -, hq, heffect⟩
    · exact flag_of_quiet rfl (not_raises_rxByte_quiet hquiet) (not_clears_rxByte t) f
    · rw [heffect.flag, raises_rxByte hq]
      simp only [not_clears_rxByte, not_false_eq_true, and_true]
      rfl
  | arrive b =>
    cases h
    exact flag_of_quiet (e := .arrive b) (s := s) rfl (fun g => by cases g <;> simp [Raises]) (by simp [Clears]) f
  | tick =>
    cases h
    exact flag_of_quiet (onTick_flags s) (fun g => by cases g <;> simp [Raises]) (by simp [Clears]) f
  | reset =>
    cases h
    have hclear : (onReset s).flag f = false := BitVec.getLsbD_zero
    cases f <;> simp [Raises, Clears, hclear]

/-- An event that clears the flags sets none. -/
theorem not_raises_of_clears {e : Event} {s : State} (h : Clears e s) (f : Flag) : ¬ Raises e s f := by
  rcases h with rfl | ⟨w, d, rfl, hw, hs⟩
  · cases f <;> simp [Raises]
  · rw [raises_cmd_idle hs, hw]
    cases f <;> simp [CommandRaises]

/-- A clear flag becomes set exactly where the event sets it. -/
theorem flag_becomes_set {e : Event} {s t : State} (h : handleEvent e s = .next t) {f : Flag} (hf : s.flag f = false) :
    t.flag f = true ↔ Raises e s f := by
  rw [handleEvent_flag h]
  simp [hf]

/-- A set flag becomes clear exactly where the event clears. -/
theorem flag_becomes_clear {e : Event} {s t : State} (h : handleEvent e s = .next t) {f : Flag} (hf : s.flag f = true) :
    t.flag f = false ↔ Clears e s := by
  rw [← Bool.not_eq_true, handleEvent_flag h]
  constructor
  · intro hno
    by_contra hkept
    exact hno (.inr ⟨hf, hkept⟩)
  · rintro hclear (hraise | ⟨-, hkept⟩)
    · exact not_raises_of_clears hclear f hraise
    · exact hkept hclear

/-- Settles O57: each flag by the event that sets it, and all of them by the two that clear. -/
theorem flagsAreStickyAndHaveTheirCauses : Obligations.FlagsAreStickyAndHaveTheirCauses :=
  fun _ _ _ h => ⟨fun _ => flag_becomes_clear h, flag_becomes_set h, flag_becomes_set h, flag_becomes_set h,
    flag_becomes_set h, flag_becomes_set h⟩

end Sys2Proof.Machine
end

section
/-! PROOFS. No rule reads a flag (`10_state.md` R36): with other flags every event leaves everything else as it would. -/

namespace Sys2Proof.Machine

/-- A state with other flags. -/
def withFlags (s : State) (x : BitVec 5) : State := { s with flags := x }

theorem args_withFlags (s : State) (x : BitVec 5) : (withFlags s x).args = s.args := args_congr rfl rfl rfl

theorem frame_withFlags (s : State) (x : BitVec 5) : (withFlags s x).frame = s.frame := frame_congr rfl rfl rfl

theorem arm_withFlags (s : State) (x : BitVec 5) : arm (withFlags s x) = withFlags (arm s) x := by
  rcases arm_cases s with ⟨htimeout, h⟩ | ⟨htimeout, h⟩ <;> rw [h]
  · exact arm_of_timeout_eq_zero (s := withFlags s x) htimeout
  · exact arm_of_timeout_ne_zero (s := withFlags s x) htimeout

theorem xactSent_withFlags (a b : Byte) (s : State) (x : BitVec 5) :
    xactSent a b (withFlags s x) = withFlags (xactSent a b s) x := by
  have hargs : (withFlags s x).elems .argbuf 0 (withFlags s x).arglen = s.elems .argbuf 0 s.arglen :=
    args_withFlags s x
  rw [xactSent, hargs]
  rfl

theorem xactDone_withFlags (a b : Byte) (s : State) (x : BitVec 5) :
    xactDone a b (withFlags s x) = withFlags (xactDone a b s) x := by
  cases hdraw : s.draw.txok with
  | true =>
    have hcapture : transactionCapture a b (withFlags s x) = withFlags (transactionCapture a b s) x := by
      rw [transactionCapture, xactSent_withFlags]
      rfl
    rw [xactDone_of_txok a b hdraw, xactDone_of_txok a b (s := withFlags s x) hdraw, hcapture, arm_withFlags]
  | false =>
    rw [xactDone_of_not_txok a b hdraw, xactDone_of_not_txok a b (s := withFlags s x) hdraw, xactSent_withFlags]
    rfl

/-- Which elements a command asks for does not depend on the flags. -/
theorem accessible_withFlags {i : Instr} {s : State} (h : Accessible i s) (x : BitVec 5) :
    Accessible i (withFlags s x) := by
  cases i <;> exact h

/-- A command in `IDLE` reads no flag. -/
theorem idleEffect_withFlags (i : Instr) (s : State) (x : BitVec 5) :
    ∃ y, idleEffect i (withFlags s x) = withFlags (idleEffect i s) y := by
  cases i with
  | argPush a =>
    change ∃ y, (if s.arglen = s.params.argMax then (withFlags s x).setFlag .argovf else pushArg (withFlags s x) a) =
      withFlags (if s.arglen = s.params.argMax then s.setFlag .argovf else pushArg s a) y
    split
    · exact ⟨withFlag x .argovf, rfl⟩
    · exact ⟨x, rfl⟩
  | enc a =>
    refine ⟨x, ?_⟩
    change holdingTx (withFlags s x) (encodeFrame a (withFlags s x).args) =
      withFlags (holdingTx s (encodeFrame a s.args)) x
    rw [args_withFlags]
    rfl
  | send =>
    refine ⟨x, ?_⟩
    have hframe : (withFlags s x).elems .txbuf 0 s.txlen = s.elems .txbuf 0 s.txlen :=
      elems_congr (s := s) (t := withFlags s x) (sp := .txbuf) rfl rfl _ 0
    change ((withFlags s x).emit ((withFlags s x).elems .txbuf 0 s.txlen)).raise
        (if s.draw.txok then .loc .dataSent else .loc .hwErr) =
      withFlags ((s.emit (s.elems .txbuf 0 s.txlen)).raise (if s.draw.txok then .loc .dataSent else .loc .hwErr)) x
    rw [hframe]
    rfl
  | capt => exact ⟨x, arm_withFlags (standaloneCapture s) x⟩
  | dec =>
    refine ⟨if (decodeFrame s.frame).malf then withFlag x .malf else x, ?_⟩
    change withDecoded (withFlags s x) (decodeFrame (withFlags s x).frame) = _
    rw [frame_withFlags]
    rfl
  | xact a b => exact ⟨x, xactDone_withFlags a b s x⟩
  | flgClr => exact ⟨0, rfl⟩
  | reservedD | reservedE | reservedF => exact ⟨withFlag x .illcmd, rfl⟩
  | _ => exact ⟨x, rfl⟩

/-- A received byte reads no flag. -/
theorem ByteEffect.withFlags {b : Byte} {s t : State} (h : ByteEffect b s t) (x : BitVec 5) :
    ∃ y, ByteEffect b (withFlags s x) (withFlags t y) := by
  cases h with
  | discarded hs hb => exact ⟨x, .discarded (s := Machine.withFlags s x) hs hb⟩
  | started hs hb hfits => exact ⟨x, .started (s := Machine.withFlags s x) hs hb hfits⟩
  | dropped hs hfull => exact ⟨withFlag x .rxovf, .dropped (s := Machine.withFlags s x) hs hfull⟩
  | stored hs hb hroom => exact ⟨x, .stored (s := Machine.withFlags s x) hs hb hroom⟩
  | short hs hb hroom hlen => exact ⟨x, .short (s := Machine.withFlags s x) hs hb hroom hlen⟩
  | received hs hb hroom hlen hmode => exact ⟨x, .received (s := Machine.withFlags s x) hs hb hroom hlen hmode⟩
  | completed hs hb hroom hlen hmode =>
    have hdone := ByteEffect.completed (s := Machine.withFlags s x) hs hb hroom hlen hmode
    rw [frame_withFlags] at hdone
    exact ⟨if (decodeFrame (s.frame ++ [etx])).malf then withFlag x .malf else x, hdone⟩

theorem onTick_withFlags (s : State) (x : BitVec 5) : onTick (withFlags s x) = withFlags (onTick s) x := by
  rcases onTick_cases s with ⟨hs, h⟩ | ⟨hs, hle, h⟩ | ⟨hs, htwo, h⟩
  · rw [h, onTick_idle (s := withFlags s x) hs]
  · rcases onTick_cases (withFlags s x) with ⟨hidle, -⟩ | ⟨-, -, h'⟩ | ⟨-, htwo, -⟩
    · exact absurd hidle hs
    · rw [h, h']
      rfl
    · exact absurd htwo (Nat.not_le.2 (Nat.lt_succ_of_le hle))
  · rw [h, onTick_counts (s := withFlags s x) hs htwo]
    rfl

theorem handleEvent_cmd_withFlags {w : CmdWord} {d : TxDraw} {s t : State} (h : handleEvent (.cmd w d) s = .next t)
    (x : BitVec 5) : ∃ y, handleEvent (.cmd w d) (withFlags s x) = .next (withFlags t y) := by
  have hi : (decodeCmd w).isCommand = true := (decodeCmd_row w).1
  rcases exec_command_next hi h with ⟨hs, hacc, rfl⟩ | ⟨hs, rfl⟩
  · obtain ⟨y, hy⟩ := idleEffect_withFlags (decodeCmd w) { s with draw := d } x
    refine ⟨y, ?_⟩
    rw [← hy]
    exact exec_command_idle (s := withFlags { s with draw := d } x) hi hs (accessible_withFlags hacc x)
  · exact ⟨withFlag x .busyerr, exec_command_busy (s := withFlags { s with draw := d } x) hi hs⟩

theorem onRxByte_withFlags {s t : State} (h : onRxByte s = .next t) (x : BitVec 5) :
    ∃ y, onRxByte (withFlags s x) = .next (withFlags t y) := by
  rcases onRxByte_next h with ⟨rfl, hidle | hempty⟩ | ⟨b, q, hs, hq, heffect⟩
  · exact ⟨x, onRxByte_of_idle (s := withFlags t x) hidle⟩
  · exact ⟨x, onRxByte_of_empty (s := withFlags t x) hempty⟩
  · obtain ⟨y, hy⟩ := heffect.withFlags x
    exact ⟨y, (onRxByte_of_armed (s := withFlags s x) hs hq).trans hy.exec⟩

/-- Settles O58, event by event. -/
theorem flagsChangeNoBehaviour : Obligations.FlagsChangeNoBehaviour := by
  intro e s t x h
  cases e with
  | cmd w d => exact handleEvent_cmd_withFlags h x
  | rxByte => exact onRxByte_withFlags h x
  | arrive b =>
    cases h
    exact ⟨x, rfl⟩
  | tick =>
    cases h
    exact ⟨x, congrArg Host.Outcome.next (onTick_withFlags s x)⟩
  | reset =>
    cases h
    exact ⟨0, rfl⟩

end Sys2Proof.Machine
end

section
/-! PROOFS. The column 'written by' of the table of registers (`10_state.md` section 1): what each command, a received
byte and a tick can write, register by register. -/

namespace Sys2Proof.Machine

/-- The rows of the table, and the parameters, which nothing writes. -/
inductive Register where
  | crc | argbuf | arglen | txbuf | txlen | rxbuf | rxlen | tmr | timeout | exp | ansop | payload | plen | phase | mode
  | status | flags | params

/-- The register holds in the second state what it held in the first. -/
@[simp] def Register.Kept (r : Register) (s t : State) : Prop :=
  match r with
  | .crc => t.crc = s.crc
  | .argbuf => t.argbuf = s.argbuf
  | .arglen => t.arglen = s.arglen
  | .txbuf => t.txbuf = s.txbuf
  | .txlen => t.txlen = s.txlen
  | .rxbuf => t.rxbuf = s.rxbuf
  | .rxlen => t.rxlen = s.rxlen
  | .tmr => t.tmr = s.tmr
  | .timeout => t.timeout = s.timeout
  | .exp => t.exp = s.exp
  | .ansop => t.ansop = s.ansop
  | .payload => t.payload = s.payload
  | .plen => t.plen = s.plen
  | .phase => t.phase = s.phase
  | .mode => t.mode = s.mode
  | .status => t.status = s.status
  | .flags => t.flags = s.flags
  | .params => t.params = s.params

/-- The commands that the table names as a register's writers. -/
@[simp] def Register.WrittenByCommand (r : Register) (i : Instr) : Prop :=
  match r with
  | .crc => i = .crcClr ∨ ∃ a, i = .crcUpd a
  | .argbuf => ∃ a, i = .argPush a
  | .arglen => i = .argClr ∨ ∃ a, i = .argPush a
  | .txbuf | .txlen => ∃ a, i = .enc a ∨ ∃ b, i = .xact a b
  | .rxlen | .tmr | .phase | .mode => i = .capt ∨ ∃ a b, i = .xact a b
  | .timeout => ∃ a b, i = .tmoSet a b
  | .exp => ∃ a, i = .val a ∨ ∃ b, i = .xact b a
  | .ansop => i = .dec ∨ ∃ a b, i = .xact a b
  | .payload => i = .dec
  | .plen => i = .dec ∨ (∃ a, i = .val a) ∨ ∃ a b, i = .xact a b
  | .status => i = .send ∨ i = .capt ∨ i = .dec ∨ (∃ a, i = .val a) ∨ ∃ a b, i = .xact a b
  | .flags => i = .flgClr ∨ i = .dec ∨ (∃ a, i = .argPush a) ∨ i = .reservedD ∨ i = .reservedE ∨ i = .reservedF
  | .rxbuf | .params => False

/-- The registers that a received byte can write. -/
@[simp] def Register.WrittenByByte : Register → Prop
  | .rxbuf | .rxlen | .ansop | .payload | .plen | .phase | .status | .flags => True
  | _ => False

/-- The registers that a tick can write. -/
@[simp] def Register.WrittenByTick : Register → Prop
  | .rxlen | .tmr | .phase | .status => True
  | _ => False

/-- What the table allows an event that found a state to write. -/
@[simp] def Register.WrittenBy (r : Register) (e : Event) (s : State) : Prop :=
  (e = .rxByte ∧ r.WrittenByByte) ∨ (e = .tick ∧ r.WrittenByTick) ∨
    ∃ w d, e = .cmd w d ∧ (r.WrittenByCommand (decodeCmd w) ∨ (r = .flags ∧ s.phase ≠ .idle))

theorem Register.Kept.refl (r : Register) (s : State) : r.Kept s s := by
  cases r <;> rfl

/-- Setting a flag writes `FLAGS` alone. -/
theorem setFlag_kept (s : State) (f : Flag) (r : Register) : r.Kept s (s.setFlag f) ∨ r = .flags := by
  cases r <;> simp

/-- `CAPT` writes `MODE`, and what arming writes (R172 to R174). -/
theorem capt_kept (s : State) (r : Register) : r.Kept s (arm (standaloneCapture s)) ∨ r.WrittenByCommand .capt := by
  rcases arm_cases (standaloneCapture s) with ⟨-, h⟩ | ⟨-, h⟩ <;> rw [h] <;>
    cases r <;> simp [standaloneCapture]

/-- `XACT` writes the transmit buffer, the result registers but `PAYLOAD`, and what arming writes (R226). -/
theorem xact_kept (a b : Byte) (s : State) (hs : s.phase = .idle) (r : Register) :
    r.Kept s (xactDone a b s) ∨ r.WrittenByCommand (.xact a b) := by
  cases hdraw : s.draw.txok with
  | true =>
    rw [xactDone_of_txok a b hdraw]
    rcases arm_cases (transactionCapture a b s) with ⟨-, h⟩ | ⟨-, h⟩ <;> rw [h] <;>
      cases r <;> simp [transactionCapture, xactSent]
  | false =>
    rw [xactDone_of_not_txok a b hdraw]
    cases r <;> simp [xactSent, hs]

/-- `ENC` writes the transmit buffer (R156). -/
theorem holdingTx_kept (a : Byte) (f : List Byte) (s : State) (r : Register) :
    r.Kept s (holdingTx s f) ∨ r.WrittenByCommand (.enc a) := by
  cases r <;> simp [holdingTx]

/-- `SEND` writes `STATUS`; where it began in `IDLE`, `PHASE` stays (R158). -/
theorem send_kept (f : List Byte) (st : Status) {s : State} (hs : s.phase = .idle) (r : Register) :
    r.Kept s ((s.emit f).raise st) ∨ r.WrittenByCommand .send := by
  cases r <;> simp [hs]

/-- `DEC` writes the result registers and `MALF` (R200). -/
theorem withDecoded_kept (d : Decoded) (s : State) (r : Register) :
    r.Kept s (withDecoded s d) ∨ r.WrittenByCommand .dec := by
  cases r <;> simp [withDecoded]

/-- `VAL` writes `EXP`, `STATUS` and `PLEN`. -/
theorem val_kept (a : Byte) (st : Status) (n : Nat) (s : State) (r : Register) :
    r.Kept s { s with exp := a, status := st, plen := n } ∨ r.WrittenByCommand (.val a) := by
  cases r <;> simp

/-- A command in `IDLE` writes the registers whose row names it, and no other. -/
theorem idleEffect_kept {s : State} (hs : s.phase = .idle) (i : Instr) (r : Register) :
    r.Kept s (idleEffect i s) ∨ r.WrittenByCommand i := by
  cases i with
  | capt => exact capt_kept s r
  | xact a b => exact xact_kept a b s hs r
  | argPush a =>
    change r.Kept s (if s.arglen = s.params.argMax then s.setFlag .argovf else pushArg s a) ∨ _
    split <;> cases r <;> simp [pushArg]
  | enc a => exact holdingTx_kept a (encodeFrame a s.args) s r
  | send => exact send_kept (s.elems .txbuf 0 s.txlen) (if s.draw.txok then .loc .dataSent else .loc .hwErr) hs r
  | dec => exact withDecoded_kept (decodeFrame s.frame) s r
  | val a => exact val_kept a _ _ s r
  | crcClr =>
    change r.Kept s { s with crc := crcInit } ∨ _
    cases r <;> simp
  | crcUpd a =>
    change r.Kept s { s with crc := crcStep s.crc a } ∨ _
    cases r <;> simp
  | argClr =>
    change r.Kept s { s with arglen := 0 } ∨ _
    cases r <;> simp
  | tmoSet a b =>
    change r.Kept s { s with timeout := a ++ b } ∨ _
    cases r <;> simp
  | flgClr =>
    change r.Kept s { s with flags := 0 } ∨ _
    cases r <;> simp
  | reservedD | reservedE | reservedF =>
    refine (setFlag_kept s .illcmd r).imp_right ?_
    rintro rfl
    simp
  | _ => exact .inl (.refl r s)

theorem command_kept {i : Instr} {s t : State} (hi : i.isCommand = true) (h : exec i s = .next t) (r : Register) :
    r.Kept s t ∨ r.WrittenByCommand i ∨ (r = .flags ∧ s.phase ≠ .idle) := by
  rcases exec_command_next hi h with ⟨hs, -, rfl⟩ | ⟨hs, rfl⟩
  · rcases idleEffect_kept hs i r with hkept | hwritten
    · exact .inl hkept
    · exact .inr (.inl hwritten)
  · rcases setFlag_kept s .busyerr r with hkept | hflags
    · exact .inl hkept
    · exact .inr (.inr ⟨hflags, hs⟩)

theorem ByteEffect.kept {b : Byte} {s t : State} (h : ByteEffect b s t) (r : Register) :
    r.Kept s t ∨ r.WrittenByByte := by
  cases h <;> cases r <;>
    simp [startedFrame, dropFrame, pushRx, closedFrame, withValidated]

theorem onRxByte_kept {s t : State} (h : onRxByte s = .next t) (r : Register) : r.Kept s t ∨ r.WrittenByByte := by
  rcases onRxByte_next h with ⟨rfl, -⟩ | ⟨b, q, -, -, heffect⟩
  · exact .inl (.refl r t)
  · rcases heffect.kept r with hkept | hwritten
    · left
      cases r <;> exact hkept
    · exact .inr hwritten

theorem onTick_kept (s : State) (r : Register) : r.Kept s (onTick s) ∨ r.WrittenByTick := by
  rcases onTick_cases s with ⟨-, h⟩ | ⟨-, -, h⟩ | ⟨-, -, h⟩ <;> rw [h] <;>
    cases r <;> simp

/-- Every event but `Reset` keeps the registers whose row does not name it. -/
theorem handleEvent_kept {e : Event} {s t : State} (he : e ≠ .reset) (h : handleEvent e s = .next t) (r : Register) :
    r.Kept s t ∨ r.WrittenBy e s := by
  cases e with
  | cmd w d =>
    have hkept := command_kept (s := { s with draw := d }) (decodeCmd_row w).1 h r
    rcases hkept with hkept | hwritten
    · left
      cases r <;> exact hkept
    · exact .inr (.inr (.inr ⟨w, d, rfl, hwritten⟩))
  | rxByte =>
    rcases onRxByte_kept h r with hkept | hwritten
    · exact .inl hkept
    · exact .inr (.inl ⟨rfl, hwritten⟩)
  | arrive b =>
    cases h
    left
    cases r <;> rfl
  | tick =>
    cases h
    rcases onTick_kept s r with hkept | hwritten
    · exact .inl hkept
    · exact .inr (.inr (.inl ⟨rfl, hwritten⟩))
  | reset => exact absurd rfl he

/-- The writers of `FLAGS` in `IDLE`: the words of the reserved codes are those from `0xD0000` up (R92). -/
theorem flags_writers {w : CmdWord} (h : Register.flags.WrittenByCommand (decodeCmd w)) :
    decodeCmd w = .flgClr ∨ decodeCmd w = .dec ∨ (∃ a, decodeCmd w = .argPush a) ∨ 0xD0000 ≤ w.toNat := by
  rw [← decodeCmd_reserved_iff]
  exact h

/-- Settles O59: each row of the table from `handleEvent_kept`. -/
theorem registersChangeOnlyByTheirWriters : Obligations.RegistersChangeOnlyByTheirWriters := by
  intro e s t he h
  have written (r : Register) (hne : ¬ r.Kept s t) : r.WrittenBy e s := (handleEvent_kept he h r).resolve_left hne
  refine ⟨fun hcrc => ?_, fun hargbuf => ?_, fun harglen => ?_, fun htx => ?_, fun hrxbuf => ?_, fun hrxlen => ?_,
    fun htmr => ?_, fun htimeout => ?_, fun hexp => ?_, fun hansop => ?_, fun hpayload => ?_, fun hplen => ?_,
    fun hphase => ?_, fun hmode => ?_, fun hstatus => ?_, fun hflags => ?_, ?_⟩
  · simpa using written .crc hcrc
  · simpa using written .argbuf hargbuf
  · simpa using written .arglen harglen
  · rcases htx with htxbuf | htxlen
    · simpa using written .txbuf htxbuf
    · simpa using written .txlen htxlen
  · simpa using written .rxbuf hrxbuf
  · simpa using written .rxlen hrxlen
  · simpa using written .tmr htmr
  · simpa using written .timeout htimeout
  · simpa using written .exp hexp
  · simpa using written .ansop hansop
  · simpa using written .payload hpayload
  · simpa using written .plen hplen
  · simpa using written .phase hphase
  · simpa using written .mode hmode
  · simpa using written .status hstatus
  · rcases written .flags hflags with ⟨hrx, -⟩ | ⟨-, htick⟩ | ⟨w, d, hcmd, hwriter | ⟨-, hbusy⟩⟩
    · exact .inl hrx
    · exact htick.elim
    · exact .inr ⟨w, d, hcmd, .inr (flags_writers hwriter)⟩
    · exact .inr ⟨w, d, hcmd, .inl hbusy⟩
  · by_contra hparams
    simpa using written .params hparams

end Sys2Proof.Machine
end
